-- ==== Sys2Proof/Word.lean ====
section
/-! DEFINITION. The word type, the two directions and the small indexed records every other file uses. -/

namespace Sys2Proof

/-- A register value, buffer address, command word or mask: 32 bits, unsigned (R11, R13). -/
abbrev Word := BitVec 32

/-- A byte of the byte view of a bank (R62). -/
abbrev Byte := BitVec 8

/-- The two transfer directions (R3, R16, R17). -/
inductive Dir where
  /-- memory to stream, host to device -/
  | mm2s
  /-- stream to memory, device to host -/
  | s2mm
deriving DecidableEq, Repr, Inhabited

/-- `other(d)` of R16. -/
def Dir.other : Dir → Dir
  | .mm2s => .s2mm
  | .s2mm => .mm2s

/-- One value for each direction: the `x[MM2S]`, `x[S2MM]` of the spec (R16). -/
structure PerDir (α : Type) where
  mm2s : α
  s2mm : α
deriving DecidableEq, Repr, Inhabited

/-- `x[d]`. -/
def PerDir.get {α : Type} (x : PerDir α) : Dir → α
  | .mm2s => x.mm2s
  | .s2mm => x.s2mm

/-- `x[d] <- v`. -/
def PerDir.set {α : Type} (x : PerDir α) (d : Dir) (v : α) : PerDir α :=
  match d with
  | .mm2s => { x with mm2s := v }
  | .s2mm => { x with s2mm := v }

/-- The index k = 0..3 of the four bus-attribute fields (R11, R33). -/
inductive BusIx where
  | k0
  | k1
  | k2
  | k3
deriving DecidableEq, Repr, Inhabited

/-- k as a number. -/
def BusIx.toNat : BusIx → Nat
  | .k0 => 0
  | .k1 => 1
  | .k2 => 2
  | .k3 => 3

/-- k + 1, none after k = 3 (R246). -/
def BusIx.succ? : BusIx → Option BusIx
  | .k0 => some .k1
  | .k1 => some .k2
  | .k2 => some .k3
  | .k3 => none

/-- One value for each bus-attribute field. -/
structure Quad (α : Type) where
  v0 : α
  v1 : α
  v2 : α
  v3 : α
deriving DecidableEq, Repr, Inhabited

/-- `x[k]`. -/
def Quad.get {α : Type} (x : Quad α) : BusIx → α
  | .k0 => x.v0
  | .k1 => x.v1
  | .k2 => x.v2
  | .k3 => x.v3

end Sys2Proof
end

