-- ==== Sys2Proof/Config.lean ====
section
/-! DEFINITION. The parameters the spec leaves to an implementation (R12), the names of the register fields (R33), the
moves of the agents, and the free values. A `Config` is plain data held in `State.cfg`: a statement about every state is a
statement about every configuration. -/

namespace Sys2Proof

/-- A named field of the register space (R33); `d_NAME` is one constructor with a direction (R16). -/
inductive FieldId where
  | cmdAddr (d : Dir)
  | cmdData (d : Dir)
  | stsFifo (d : Dir)
  | xferEn (d : Dir)
  | stsFifoEmpty (d : Dir)
  | irqEnable
  | irqEn (d : Dir)
  | irqStatus
  | globalReset
  | busAttr (k : BusIx)
deriving DecidableEq, Repr, Inhabited

/-- The 19 fields in the order of the R34 table. -/
def FieldId.all : List FieldId :=
  [.cmdAddr .mm2s, .cmdData .mm2s, .stsFifo .mm2s, .xferEn .mm2s, .stsFifoEmpty .mm2s,
   .cmdAddr .s2mm, .cmdData .s2mm, .stsFifo .s2mm, .xferEn .s2mm, .stsFifoEmpty .s2mm,
   .irqEnable, .irqEn .mm2s, .irqEn .s2mm, .irqStatus, .globalReset,
   .busAttr .k0, .busAttr .k1, .busAttr .k2, .busAttr .k3]

/-- A field descriptor: (bank, offset, width) (R33, R102). -/
structure FDesc where
  bank : Nat
  offset : Nat
  width : Nat
deriving DecidableEq, Repr, Inhabited

/-- `FIELD_MAP` (R12): a descriptor for every field. -/
structure FieldMap where
  cmdAddr : PerDir FDesc
  cmdData : PerDir FDesc
  stsFifo : PerDir FDesc
  xferEn : PerDir FDesc
  stsFifoEmpty : PerDir FDesc
  irqEnable : FDesc
  irqEn : PerDir FDesc
  irqStatus : FDesc
  globalReset : FDesc
  busAttr : Quad FDesc
deriving DecidableEq, Repr

/-- `FIELD_MAP[f]` (R121). -/
def FieldMap.get (m : FieldMap) : FieldId → FDesc
  | .cmdAddr d => m.cmdAddr.get d
  | .cmdData d => m.cmdData.get d
  | .stsFifo d => m.stsFifo.get d
  | .xferEn d => m.xferEn.get d
  | .stsFifoEmpty d => m.stsFifoEmpty.get d
  | .irqEnable => m.irqEnable
  | .irqEn d => m.irqEn.get d
  | .irqStatus => m.irqStatus
  | .globalReset => m.globalReset
  | .busAttr k => m.busAttr.get k

/-- The functional blocks of the register space (R69). -/
inductive Block where
  | dma
  | rffe
  | spec
  | global
deriving DecidableEq, Repr

/-- `BLOCK_BASE[b]` (R12). -/
structure BlockBase where
  dma : Nat
  rffe : Nat
  spec : Nat
  global : Nat
deriving DecidableEq, Repr

/-- `OP_SEL` (R12, R92): the selector of every operation. -/
structure OpSel where
  reset : Word
  setIrqMask : Word
  getIrqStatus : Word
  getBufPhys : Word
  dmaWrite : Word
  dmaRead : Word
  map : Word
deriving DecidableEq, Repr

/-- The seven selectors as a list, in the order of R92. -/
def OpSel.toList (o : OpSel) : List Word :=
  [o.reset, o.setIrqMask, o.getIrqStatus, o.getBufPhys, o.dmaWrite, o.dmaRead, o.map]

/-- `BYTE_ORDER` (R62); that its other value is big-endian is PRESUMED. [log 23] -/
inductive ByteOrder where
  | little
  | big
deriving DecidableEq, Repr

/-- `DEV` (R12, R70): the device behind the REG port. -/
inductive Dev where
  /-- the reference device (R71-R79) -/
  | reference
  /-- any other device, known by a number: what it answers and does is the free functions `Config.devRead` to
  `Config.devEvents` of its own hidden state. [log 10] -/
  | other (id : Nat)
deriving DecidableEq, Repr

/-- What a reset does to one bank: `dregs[bank] <- (dregs[bank] & keep) | value`. -/
structure BankReset where
  bank : Nat
  keep : Word
  value : Word
deriving DecidableEq, Repr

/-- `DEV_RESET_EFFECT` (R66, R76, D19) of the reference device: which status FIFOs the reset empties, which `busy` bits it
clears, and what it does to banks. The spec gives the parameter no form: DESIGN CHOICE. [log 26] -/
structure ResetEffect where
  emptiesFifo : PerDir Bool
  clearsBusy : PerDir Bool
  banks : List BankReset
deriving DecidableEq, Repr

/-- The reference value "none": "it empties no status FIFO, clears no `busy[d]` and changes no other bank" (R76). -/
def ResetEffect.none : ResetEffect := ⟨⟨false, false⟩, ⟨false, false⟩, []⟩

/-- The parameters of R12, `BYTE_ORDER` of R62 and `DEV_RESET_EFFECT` of R66. [log 2, 10] -/
structure Config where
  numBanks : Nat
  blockStride : Nat
  blockBase : BlockBase
  fieldMap : FieldMap
  busAttrVal : Quad Word
  regMapOffset : Word
  bufMapOffset : Word
  opSel : OpSel
  /-- named by the spec and used by no rule (D12) -/
  interruptTimeout : Nat
  pollLimit : Nat
  countMax : Nat
  byteOrder : ByteOrder
  /-- the buffer address of each requester context (R22: "a parameter of the context"); `NUM_REQ` is how many there are -/
  bufs : List Word
  dev : Dev
  devResetEffect : ResetEffect
deriving DecidableEq, Repr

/-- `NUM_REQ` (R12, R289). -/
def Config.numReq (cfg : Config) : Nat := cfg.bufs.length

/-- `FIELD_MAP[f]` of a configuration. -/
abbrev Config.field (cfg : Config) (f : FieldId) : FDesc := cfg.fieldMap.get f

/-- The reference layout (R34). -/
def FieldMap.reference : FieldMap where
  cmdAddr := ⟨⟨0, 0, 32⟩, ⟨8, 0, 32⟩⟩
  cmdData := ⟨⟨1, 0, 32⟩, ⟨9, 0, 32⟩⟩
  stsFifo := ⟨⟨2, 0, 32⟩, ⟨10, 0, 32⟩⟩
  xferEn := ⟨⟨3, 0, 1⟩, ⟨11, 0, 1⟩⟩
  stsFifoEmpty := ⟨⟨4, 0, 1⟩, ⟨12, 0, 1⟩⟩
  irqEnable := ⟨14, 0, 32⟩
  irqEn := ⟨⟨14, 0, 1⟩, ⟨14, 1, 1⟩⟩
  irqStatus := ⟨15, 0, 32⟩
  globalReset := ⟨48, 0, 1⟩
  busAttr := ⟨⟨49, 0, 4⟩, ⟨49, 4, 4⟩, ⟨49, 8, 4⟩, ⟨49, 12, 4⟩⟩

/-- The reference selectors (R92). -/
def OpSel.reference : OpSel where
  reset := 0
  setIrqMask := 1
  getIrqStatus := 2
  getBufPhys := 3
  dmaWrite := 4
  dmaRead := 5
  map := 6

/-- The reference values of R12. `interruptTimeout` has none in the spec: 1, DESIGN CHOICE, used by no rule. [log 2]
`NUM_REQ` and the buffers are given per test: two requesters, DESIGN CHOICE. [log 6] -/
def Config.reference : Config where
  numBanks := 64
  blockStride := 16
  blockBase := ⟨0, 16, 32, 48⟩
  fieldMap := .reference
  busAttrVal := ⟨0xF, 0xF, 0x1, 0x1⟩
  regMapOffset := 0x00000000
  bufMapOffset := 0x00001000
  opSel := .reference
  interruptTimeout := 1
  pollLimit := 8
  countMax := 2 ^ 31 - 1
  byteOrder := .little
  bufs := [0x1A000000, 0x1B000000]
  dev := .reference
  devResetEffect := .none

/-- An agent (R9): the one a command or micro-operation belongs to, or the one that raised a model fault. -/
inductive Agent where
  | requester (r : Nat)
  | dispatcher
  | device
deriving DecidableEq, Repr, Inhabited

/-- One move of one agent: the events of the program syntax of R104, and the requesters' and dispatcher's own steps. -/
inductive Event where
  /-- HOST issues an HCMD to requester r (R91, R96): `r<N>: <OPERATION> [<ARG>]`. -/
  | host (r : Nat) (sel arg : Word)
  /-- Requester r takes the next step of its micro-state (R25). -/
  | own (r : Nat)
  /-- The dispatcher takes its next step (R171-R178). -/
  | disp
  /-- The device completes a transfer (R78): `dev: COMPLETE d`. -/
  | complete (d : Dir)
  /-- The device raises a spurious interrupt (R79): `dev: SPURIOUS`. -/
  | spurious
  /-- A device other than the reference one takes a step of its own (R70); the number picks among the steps it may take. -/
  | device (choice : Nat)
  /-- The environment cancels requester r (R143, R155): `env: CANCEL r<N>`. -/
  | cancel (r : Nat)
  /-- The environment lets requester r's wait time out (R154): `env: TIMEOUT r<N>`. -/
  | timeout (r : Nat)
deriving DecidableEq, Repr, Inhabited

/-- What the schedule may hold: a move, or a micro-operation word presented for an agent (R99: "For traces, test vectors
and a decoder of recorded sequences"). -/
inductive Input where
  | event (e : Event)
  | uop (a : Agent) (word val : Word)
deriving DecidableEq, Repr

/-- The free 32-bit values: the n-th `draw` (R14) of a status entry (R78), of a read of an empty status FIFO (R74) or of
the interrupt-status bank (R75). No body: nothing can be proved of a value. [log 8] -/
opaque Config.freeWord : Nat → Word

/-- A device other than the reference one (R70), each a free function of the device's number, its hidden state and a
number that stands for its own choice: the value a read of a bank returns. [log 10] -/
opaque Config.devRead : Nat → Nat → Nat → Nat → Word

/-- Its hidden state after a read of a bank. [log 10] -/
opaque Config.devAfterRead : Nat → Nat → Nat → Nat → Nat

/-- Its hidden state after a write of a word to a bank. [log 10] -/
opaque Config.devAfterWrite : Nat → Nat → Nat → Nat → Word → Nat

/-- Its hidden state after a step of its own. [log 10] -/
opaque Config.devStep : Nat → Nat → Nat → Nat

/-- How many events it adds to the IRQ input at a step of its own. [log 10] -/
opaque Config.devEvents : Nat → Nat → Nat → Nat

/-- The free moves: which agent moves next, and what HOST, the device and the environment do, once the placed schedule
is used up. No body: every interleaving is admitted (R15, R80, R146). [log 1] -/
opaque Config.freeEvent : Nat → Event

end Sys2Proof
end

