-- ==== Sys2Proof/Syntax.lean ====
section
/-! DEFINITION. The instructions: one constructor for each of the 19 rows of spec/opcode_table.json. -/

namespace Sys2Proof

/-- The host commands (format HCMD, R91, R92; every one carries its `ARG` word, which the issue step stores whether or not
the operation uses it, R96) and the micro-operations (format UOP, R99, R100). -/
inductive Instr where
  /-- RESET (R240); ARG ignored. -/
  | reset (arg : Word)
  /-- SET_IRQ_MASK (R250); ARG is the mask. -/
  | setIrqMask (arg : Word)
  /-- GET_IRQ_STATUS (R255); ARG ignored. -/
  | getIrqStatus (arg : Word)
  /-- GET_BUF_PHYS (R257); ARG ignored. -/
  | getBufPhys (arg : Word)
  /-- DMA_WRITE (R190); ARG is the command word. -/
  | dmaWrite (arg : Word)
  /-- DMA_READ (R191); ARG is the command word. -/
  | dmaRead (arg : Word)
  /-- MAP (R259); ARG is the map offset. -/
  | map (arg : Word)
  /-- READ f (R122). -/
  | read (f : FieldId)
  /-- WRITE f, v (R123). -/
  | write (f : FieldId) (v : Word)
  /-- GET_BIT f (R125). -/
  | getBit (f : FieldId)
  /-- SET_BIT f (R126). -/
  | setBit (f : FieldId)
  /-- CLEAR_BIT f (R127). -/
  | clearBit (f : FieldId)
  /-- ACQUIRE d (R142). -/
  | acquire (d : Dir)
  /-- RELEASE d (R144). -/
  | release (d : Dir)
  /-- NOTIFY d (R151). -/
  | notify (d : Dir)
  /-- WAIT d (R153). -/
  | wait (d : Dir)
  /-- CONSUME d (R156). -/
  | consume (d : Dir)
  /-- DISPATCH (R171). -/
  | dispatch
  /-- IRQ (R170). -/
  | irq
deriving DecidableEq, Repr

/-- The two encodings of instructions: a command at HOST (R91) or a micro-operation word (R99). -/
inductive Format where
  | hcmd
  | uop
deriving DecidableEq, Repr

/-- The format of an instruction. -/
def Instr.format : Instr → Format
  | .reset _ | .setIrqMask _ | .getIrqStatus _ | .getBufPhys _ | .dmaWrite _ | .dmaRead _ | .map _ => .hcmd
  | .read _ | .write _ _ | .getBit _ | .setBit _ | .clearBit _ | .acquire _ | .release _ | .notify _ | .wait _
  | .consume _ | .dispatch | .irq => .uop

end Sys2Proof
end

