-- ==== Sys2Proof/WellFormed.lean ====
section
/-! DEFINITION. Which configurations and which instructions have a meaning (R12, R33, R35, R36, R38, R128). -/

namespace Sys2Proof

/-- R35 for one field: 1 <= width <= 32, offset + width <= 32, 0 <= bank < NUM_BANKS, and a field of width 32 has offset 0. -/
def FDesc.fits (numBanks : Nat) (d : FDesc) : Bool :=
  decide (1 ≤ d.width ∧ d.width ≤ 32 ∧ d.offset + d.width ≤ 32 ∧ d.bank < numBanks ∧ (d.width = 32 → d.offset = 0))

/-- Two fields narrower than the word share no bit (R35); a full-width field is a bank view and is exempt (R36). -/
def FDesc.apart (d e : FDesc) : Bool :=
  decide (d.width = 32 ∨ e.width = 32 ∨ d.bank ≠ e.bank ∨ d.offset + d.width ≤ e.offset ∨ e.offset + e.width ≤ d.offset)

/-- The width R33 states for a field: 32 for the "full word" accesses, 1 for the bits; none for the bus attributes. -/
def FieldId.statedWidth : FieldId → Option Nat
  | .cmdAddr _ | .cmdData _ | .stsFifo _ | .irqEnable | .irqStatus => some 32
  | .xferEn _ | .stsFifoEmpty _ | .irqEn _ | .globalReset => some 1
  | .busAttr _ => none

/-- R35 over all of `FIELD_MAP`. -/
def Config.fieldsFit (cfg : Config) : Bool :=
  FieldId.all.all fun f => (cfg.field f).fits cfg.numBanks

/-- R35, R36 over all of `FIELD_MAP`: no two different narrow fields share a bit. -/
def Config.fieldsApart (cfg : Config) : Bool :=
  FieldId.all.all fun f => FieldId.all.all fun g => f == g || (cfg.field f).apart (cfg.field g)

/-- The widths R33 states. DEDUCED: the spec states them in the table of fields, not among the checks of R35. [log 11] -/
def Config.widthsAsStated (cfg : Config) : Bool :=
  FieldId.all.all fun f => f.statedWidth.isNone || f.statedWidth == some (cfg.field f).width

/-- `d_IRQ_EN` is "a field of `IRQ_ENABLE`" (R33). -/
def Config.irqEnInBank (cfg : Config) : Bool :=
  decide ((cfg.field (.irqEn .mm2s)).bank = (cfg.field .irqEnable).bank ∧
    (cfg.field (.irqEn .s2mm)).bank = (cfg.field .irqEnable).bank)

/-- `BLOCK_BASE[b]` is a multiple of `BLOCK_STRIDE` (R12). -/
def Config.basesAligned (cfg : Config) : Bool :=
  decide (cfg.blockBase.dma % cfg.blockStride = 0 ∧ cfg.blockBase.rffe % cfg.blockStride = 0 ∧
    cfg.blockBase.spec % cfg.blockStride = 0 ∧ cfg.blockBase.global % cfg.blockStride = 0)

/-- `BUS_ATTR_VAL[k]` fits the width of its field (R12). -/
def Config.busAttrFits (cfg : Config) (k : BusIx) : Bool :=
  decide ((cfg.busAttrVal.get k).toNat < 2 ^ (cfg.field (.busAttr k)).width)

/-- `BUS_ATTR_VAL[k]` fits its field for every k (R12). -/
def Config.busAttrsFit (cfg : Config) : Bool :=
  cfg.busAttrFits .k0 && cfg.busAttrFits .k1 && cfg.busAttrFits .k2 && cfg.busAttrFits .k3

/-- The scalar constraints of R12. -/
def Config.scalarsOk (cfg : Config) : Bool :=
  decide (1 ≤ cfg.numBanks ∧ 1 ≤ cfg.blockStride ∧ 0 < cfg.interruptTimeout ∧ 1 ≤ cfg.pollLimit ∧ 1 ≤ cfg.countMax ∧
    1 ≤ cfg.numReq)

/-- The two map-type selectors are distinct (R12). -/
def Config.offsetsDistinct (cfg : Config) : Bool :=
  decide (cfg.regMapOffset ≠ cfg.bufMapOffset)

/-- The `OP_SEL` values are distinct (R12). -/
def Config.selectorsDistinct (cfg : Config) : Bool :=
  decide cfg.opSel.toList.Nodup

/-- `DEV_RESET_EFFECT` names only banks that exist, each once. [log 26] -/
def Config.resetEffectFits (cfg : Config) : Bool :=
  decide ((∀ e ∈ cfg.devResetEffect.banks, e.bank < cfg.numBanks) ∧ (cfg.devResetEffect.banks.map BankReset.bank).Nodup)

/-- A configuration the model has a meaning for: the constraints of R12 and the field validity of R33, R35, R36. Any other
"is refused as a configuration". -/
def Config.valid (cfg : Config) : Bool :=
  cfg.scalarsOk && cfg.basesAligned && cfg.offsetsDistinct && cfg.selectorsDistinct && cfg.fieldsFit &&
    cfg.fieldsApart && cfg.widthsAsStated && cfg.irqEnInBank && cfg.busAttrsFit &&
    cfg.resetEffectFits

/-- The fields the block writes by read-modify-write (R38). -/
def FieldId.rmw : FieldId → Bool
  | .xferEn _ | .globalReset | .busAttr _ => true
  | _ => false

/-- The fields whose value the device owns (R33); among them is the one with a read side effect (R65). -/
def FieldId.deviceOwned : FieldId → Bool
  | .stsFifo _ | .stsFifoEmpty _ | .irqStatus => true
  | _ => false

/-- R38: the bank of a read-modify-write field holds no device-owned field, and the two enable bits lie in different
banks. A premise of claims, not a check of the machine: a layout that breaks it still runs, and shows the lost update of
R313 and R314. -/
def Config.separated (cfg : Config) : Bool :=
  (FieldId.all.all fun f => FieldId.all.all fun g =>
    !(f.rmw && g.deviceOwned) || decide ((cfg.field f).bank ≠ (cfg.field g).bank)) &&
  decide ((cfg.field (.xferEn .mm2s)).bank ≠ (cfg.field (.xferEn .s2mm)).bank)

/-- R128: GET_BIT, SET_BIT and CLEAR_BIT have a meaning only for fields of width 1. Every other operand is well formed. -/
def Instr.wellFormed (cfg : Config) : Instr → Bool
  | .getBit f | .setBit f | .clearBit f => decide ((cfg.field f).width = 1)
  | .reset _ | .setIrqMask _ | .getIrqStatus _ | .getBufPhys _ | .dmaWrite _ | .dmaRead _ | .map _
  | .read _ | .write _ _ | .acquire _ | .release _ | .notify _ | .wait _ | .consume _ | .dispatch | .irq => true

end Sys2Proof
end

