-- ==== Sys2Proof/Decode.lean ====
section
/-! DEFINITION. Decoding of host commands, micro-operation words and field descriptors (R91-R103), total, rejecting by name;
then the encoder, written from the same tables. -/

namespace Sys2Proof

/-- Why words spell no instruction (R94, R101, R103). -/
inductive DecodeError where
  /-- `code` is not in R100. -/
  | badCode
  /-- `z`, bits 31:17, is not zero. -/
  | zNonZero
  /-- `d` is set on an accessor or dispatcher code. -/
  | dSet
  /-- `fid` is set on a lock, signal or dispatcher code. -/
  | fidSet
  /-- `fid` is 19 or more. -/
  | badFid
  /-- GET_BIT, SET_BIT or CLEAR_BIT of a field whose width is not 1 (R128). -/
  | wideField
  /-- `SEL` is not in `OP_SEL`: the operation is INVALID (R94). -/
  | invalidSelector
  /-- Fewer words than the format has (R103). -/
  | truncated
deriving DecidableEq, Repr

/-- The answer of a decoder: an instruction with the words after it, or the name of the reason. -/
inductive Decoded where
  | ok (i : Instr) (rest : List Word)
  | error (e : DecodeError)
deriving DecidableEq, Repr

/-- The field id of a field (R100). -/
def FieldId.fid : FieldId → Nat
  | .cmdAddr .mm2s => 0
  | .cmdData .mm2s => 1
  | .stsFifo .mm2s => 2
  | .xferEn .mm2s => 3
  | .stsFifoEmpty .mm2s => 4
  | .cmdAddr .s2mm => 5
  | .cmdData .s2mm => 6
  | .stsFifo .s2mm => 7
  | .xferEn .s2mm => 8
  | .stsFifoEmpty .s2mm => 9
  | .irqEnable => 10
  | .irqEn .mm2s => 11
  | .irqEn .s2mm => 12
  | .irqStatus => 13
  | .globalReset => 14
  | .busAttr .k0 => 15
  | .busAttr .k1 => 16
  | .busAttr .k2 => 17
  | .busAttr .k3 => 18

/-- The field with a field id; none from 19 on (R101). -/
def FieldId.ofFid : Nat → Option FieldId
  | 0 => some (.cmdAddr .mm2s)
  | 1 => some (.cmdData .mm2s)
  | 2 => some (.stsFifo .mm2s)
  | 3 => some (.xferEn .mm2s)
  | 4 => some (.stsFifoEmpty .mm2s)
  | 5 => some (.cmdAddr .s2mm)
  | 6 => some (.cmdData .s2mm)
  | 7 => some (.stsFifo .s2mm)
  | 8 => some (.xferEn .s2mm)
  | 9 => some (.stsFifoEmpty .s2mm)
  | 10 => some .irqEnable
  | 11 => some (.irqEn .mm2s)
  | 12 => some (.irqEn .s2mm)
  | 13 => some .irqStatus
  | 14 => some .globalReset
  | 15 => some (.busAttr .k0)
  | 16 => some (.busAttr .k1)
  | 17 => some (.busAttr .k2)
  | 18 => some (.busAttr .k3)
  | _ => none

/-- The `d` bit of a direction (R99). -/
def Dir.code : Dir → Nat
  | .mm2s => 0
  | .s2mm => 1

/-- The direction of a `d` bit (R99). -/
def Dir.ofBit (b : Bool) : Dir := if b then .s2mm else .mm2s

/-- The UOP word `code | fid << 8 | d << 16` with `z` zero (R99). -/
def uopWord (code fid d : Nat) : Word := BitVec.ofNat 32 (code + fid * 2 ^ 8 + d * 2 ^ 16)

/-- `code`, bits [7:0] (R99). -/
def uopCode (w : Word) : Nat := (w.extractLsb' 0 8).toNat
/-- `fid`, bits [15:8] (R99). -/
def uopFid (w : Word) : Nat := (w.extractLsb' 8 8).toNat
/-- `d`, bit [16] (R99). -/
def uopD (w : Word) : Bool := w.getLsbD 16
/-- `z`, bits [31:17] (R99). -/
def uopZ (w : Word) : Nat := (w.extractLsb' 17 15).toNat

/-- The operation of a selector, none for INVALID (R94); `ARG` whole (R93). -/
def decodeHcmd (cfg : Config) (sel arg : Word) : Option Instr :=
  if sel = cfg.opSel.reset then some (.reset arg)
  else if sel = cfg.opSel.setIrqMask then some (.setIrqMask arg)
  else if sel = cfg.opSel.getIrqStatus then some (.getIrqStatus arg)
  else if sel = cfg.opSel.getBufPhys then some (.getBufPhys arg)
  else if sel = cfg.opSel.dmaWrite then some (.dmaWrite arg)
  else if sel = cfg.opSel.dmaRead then some (.dmaRead arg)
  else if sel = cfg.opSel.map then some (.map arg)
  else none

/-- An accessor code: `d` clear and a field id below 19 (R101). -/
def decodeAccessor (w : Word) (k : FieldId → Decoded) : Decoded :=
  if uopD w then .error .dSet
  else match FieldId.ofFid (uopFid w) with
    | some f => k f
    | none => .error .badFid

/-- A bit operation: an accessor code on a field of width 1 (R101, R128). -/
def decodeBitOp (cfg : Config) (w : Word) (mk : FieldId → Instr) (rest : List Word) : Decoded :=
  decodeAccessor w fun f => if (cfg.field f).width = 1 then .ok (mk f) rest else .error .wideField

/-- A lock or signal code: `fid` clear (R101). -/
def decodeDirOp (w : Word) (mk : Dir → Instr) (rest : List Word) : Decoded :=
  if uopFid w = 0 then .ok (mk (Dir.ofBit (uopD w))) rest else .error .fidSet

/-- A dispatcher code: `fid` and `d` clear (R101). -/
def decodePlain (w : Word) (i : Instr) (rest : List Word) : Decoded :=
  if uopFid w ≠ 0 then .error .fidSet else if uopD w then .error .dSet else .ok i rest

/-- WRITE: a field and the `VAL` word after it (R99, R123). -/
def decodeWrite (w : Word) (rest : List Word) : Decoded :=
  decodeAccessor w fun f =>
    match rest with
    | v :: rest => .ok (.write f v) rest
    | [] => .error .truncated

/-- Decoding one micro-operation from its word and the words after it (R99-R101). -/
def decodeUop (cfg : Config) (w : Word) (rest : List Word) : Decoded :=
  if uopZ w ≠ 0 then .error .zNonZero
  else match uopCode w with
    | 0x01 => decodeAccessor w fun f => .ok (.read f) rest
    | 0x02 => decodeWrite w rest
    | 0x03 => decodeBitOp cfg w .getBit rest
    | 0x04 => decodeBitOp cfg w .setBit rest
    | 0x05 => decodeBitOp cfg w .clearBit rest
    | 0x10 => decodeDirOp w .acquire rest
    | 0x11 => decodeDirOp w .release rest
    | 0x20 => decodeDirOp w .notify rest
    | 0x21 => decodeDirOp w .wait rest
    | 0x22 => decodeDirOp w .consume rest
    | 0x30 => decodePlain w .dispatch rest
    | 0x31 => decodePlain w .irq rest
    | _ => .error .badCode

/-- The decoder: any configuration, either format, any words. The format is that of the interface the words arrive at
(R91, R99); no word says it. [log 14] -/
def decode (cfg : Config) (fmt : Format) (ws : List Word) : Decoded :=
  match fmt, ws with
  | .hcmd, sel :: arg :: rest =>
    match decodeHcmd cfg sel arg with
    | some i => .ok i rest
    | none => .error .invalidSelector
  | .hcmd, _ => .error .truncated
  | .uop, w :: rest => decodeUop cfg w rest
  | .uop, [] => .error .truncated

/-- The words of an instruction (R91, R92, R99, R100). -/
def encode (cfg : Config) : Instr → List Word
  | .reset a => [cfg.opSel.reset, a]
  | .setIrqMask a => [cfg.opSel.setIrqMask, a]
  | .getIrqStatus a => [cfg.opSel.getIrqStatus, a]
  | .getBufPhys a => [cfg.opSel.getBufPhys, a]
  | .dmaWrite a => [cfg.opSel.dmaWrite, a]
  | .dmaRead a => [cfg.opSel.dmaRead, a]
  | .map a => [cfg.opSel.map, a]
  | .read f => [uopWord 0x01 f.fid 0]
  | .write f v => [uopWord 0x02 f.fid 0, v]
  | .getBit f => [uopWord 0x03 f.fid 0]
  | .setBit f => [uopWord 0x04 f.fid 0]
  | .clearBit f => [uopWord 0x05 f.fid 0]
  | .acquire d => [uopWord 0x10 0 d.code]
  | .release d => [uopWord 0x11 0 d.code]
  | .notify d => [uopWord 0x20 0 d.code]
  | .wait d => [uopWord 0x21 0 d.code]
  | .consume d => [uopWord 0x22 0 d.code]
  | .dispatch => [uopWord 0x30 0 0]
  | .irq => [uopWord 0x31 0 0]

/-- A field descriptor's 32-bit word: offset [4:0], width [10:5], zero [15:11], bank [31:16] (R102). A bank of 65536 or
above has no word: its bits above 15 are dropped here, and a layout that has one still runs. DESIGN CHOICE. [log 29] -/
def FDesc.encode (d : FDesc) : Word := BitVec.ofNat 32 (d.offset + d.width * 2 ^ 5 + d.bank * 2 ^ 16)

/-- The descriptor a word spells; none where bits [15:11] are set or the descriptor breaks R35 (R102). -/
def FDesc.decode (numBanks : Nat) (w : Word) : Option FDesc :=
  let d : FDesc := ⟨(w.extractLsb' 16 16).toNat, (w.extractLsb' 0 5).toNat, (w.extractLsb' 5 6).toNat⟩
  if (w.extractLsb' 11 5).toNat = 0 ∧ d.fits numBanks = true then some d else none

/-- The first two words of an instruction given as one number, bit 0 the least significant bit of word 0. -/
def tableWords (nbits w : Nat) : Word × Word :=
  (BitVec.ofNat 32 (w % 2 ^ nbits), BitVec.ofNat 32 (w % 2 ^ nbits / 2 ^ 32))

/-- The instruction the decoder reads from the bits `w` under the reference configuration. The table's two formats share
word values and a bare number does not say which interface it stands at: the host format, all of whose bits are fixed, is
read first, then the micro-operation format. [log 14] -/
def decodeTableWord (nbits w : Nat) : Option Instr :=
  let (w0, w1) := tableWords nbits w
  match decode .reference .hcmd [w0, w1] with
  | .ok i _ => some i
  | .error _ =>
    match decode .reference .uop [w0, w1] with
    | .ok i _ => some i
    | .error _ => none

end Sys2Proof
end

