-- ==== Sys2Proof/Machine/State.lean ====
section
/-! DEFINITION. The state of the block, of the register space and of the reference device (R20-R33, R71), with the model's
own fields for the schedule, the free values and the hand-built micro-operations; and the state at attach (R300). -/

namespace Sys2Proof.Machine

open Sys2Proof

/-- `ctx[r].op` (R22). -/
inductive Op where
  | none
  | reset
  | setIrqMask
  | getIrqStatus
  | getBufPhys
  | dmaWrite
  | dmaRead
  | map
deriving DecidableEq, Repr

/-- The micro-states of a requester (R24). -/
inductive MicroState where
  | idle
  | tAcq
  | tWaddr
  | tWdata
  | tEnR
  | tEnW
  | tMode
  | tWait
  | tConsume
  | tPoll
  | tDrain
  | tDisR
  | tDisW
  | tRel
  | tAbtR
  | tAbtW
  | tAbtRel
  | gAcq1
  | gAcq2
  | gCrel1
  | gRsR
  | gRsW
  | gRcR
  | gRcW
  /-- `G_BAk_R` -/
  | gBaR (k : BusIx)
  /-- `G_BAk_W` -/
  | gBaW (k : BusIx)
  | gRel2
  | gRel1
  | mAcq1
  | mAcq2
  | mCrel1
  | mWr
  | mRel2
  | mRel1
  | sRd
deriving DecidableEq, Repr

/-- The micro-states of the dispatcher (R29). -/
inductive DispPc where
  | dIdle
  | dRdM
  | dRdS
  | dChkS
  | dChkM
  | dNotifyS
  | dNotifyM
  | dLog
deriving DecidableEq, Repr

/-- The result codes (R97, R270). -/
inductive Result where
  | success
  | timeout
  | interrupted
  | invalidRequest
  /-- never produced by the block (R274) -/
  | resourceExhausted
deriving DecidableEq, Repr

/-- The outcomes of a wait (R153). -/
inductive WaitOutcome where
  | signalled
  | timedOut
  | interrupted
deriving DecidableEq, Repr

/-- An entry of the errant-interrupt log; it carries no text (R31). -/
inductive LogEvent where
  | errant
deriving DecidableEq, Repr

/-- The kinds of model fault (R276), recorded in `State.fault`. -/
inductive FaultKind where
  /-- RELEASE of a lock its requester does not hold (R144). -/
  | releaseNotOwner
  /-- CONSUME at count 0 (R156). -/
  | consumeAtZero
  /-- NOTIFY at COUNT_MAX (R151, R152). -/
  | countOverflow
deriving DecidableEq, Repr

/-- Why a step stops the whole machine. The spec's model faults are not here: they stop one agent and the others go on
(R14, R276), so raising one is a next state (`FaultKind`). [log 16] -/
inductive Fault where
  /-- Raised by a REG-port access to a bank outside 0 .. NUM_BANKS-1 (R60): there is no such bank. Safe: no step of a
  configuration that R35 accepts meets it (R129). -/
  | noSuchBank (bank : Nat)
deriving DecidableEq, Repr

/-- Why a step has no meaning. [log 21] -/
inductive Refusal where
  /-- Raised by an arm of `exec` that has no meaning yet. Safe. -/
  | notModelled (mnemonic : String)
  /-- Raised by `step` when the configuration breaks R12, R33 or R35: "refused as a configuration: the model has no
  meaning for it". Safe. -/
  | badConfiguration
  /-- Raised by `step` for a presented micro-operation word that spells none (R101). Safe. -/
  | badMicroOp
  /-- Raised by the meanings of GET_BIT, SET_BIT and CLEAR_BIT on a field whose width is not 1 (R128). Safe. -/
  | wideBitField (f : FieldId)
deriving DecidableEq, Repr

/-- A REG-port access (R60, R290). -/
inductive Access where
  | read (bank : Nat) (value : Word)
  | write (bank : Nat) (value : Word)
deriving DecidableEq, Repr

/-- A requester context (R22), with four fields of the model's own for hand-built micro-operations and stopped agents. -/
structure Ctx where
  op : Op
  pc : MicroState
  dir : Dir
  arg : Word
  buf : Word
  tmp : Word
  iter : Nat
  err : Option Result
  res : Option Result
  out : Option Word
  /-- the hand-built micro-operation that is not finished [log 12] -/
  uop : Option Instr
  /-- the caller's destination of a hand-built READ or GET_BIT [log 12] -/
  dest : Word
  /-- the outcome of the last hand-built WAIT, or cancelled ACQUIRE [log 12] -/
  waited : Option WaitOutcome
  /-- this agent raised a model fault and "takes no further step" (R276) -/
  stopped : Bool
deriving DecidableEq, Repr

/-- A context as the excluded layer creates it, with its buffer address (R22, R300). `dir`, `arg`, `tmp`, `iter`, `err` are
unspecified there: DESIGN CHOICE, the values below. [log 5] -/
def Ctx.fresh (buf : Word) : Ctx where
  op := .none
  pc := .idle
  dir := .mm2s
  arg := 0
  buf := buf
  tmp := 0
  iter := 0
  err := none
  res := none
  out := none
  uop := none
  dest := 0
  waited := none
  stopped := false

/-- The bytes of the register space: (byte address, byte), addresses strictly rising, no byte equal to what an unlisted
address reads as (R61, R62). -/
abbrev Memory := List Host.Cell

/-- The whole machine. -/
structure State where
  /-- the parameters of R12; no step changes them [log 2] -/
  cfg : Config
  /-- `lock[d]`: none or the requester that holds it (R140) -/
  lock : PerDir (Option Nat)
  /-- `count[d]` (R150) -/
  count : PerDir Nat
  /-- `ctx[r]` for r = 0 .. NUM_REQ-1 (R22, R289) -/
  ctxs : List Ctx
  dispPc : DispPc
  dispHeldM : Bool
  dispHeldS : Bool
  /-- the dispatcher raised a model fault and "takes no further step" (R276) -/
  dispStopped : Bool
  irqPending : Nat
  errlog : List LogEvent
  /-- none, or the kind of the model fault raised last (R32, R276) [log 16] -/
  fault : Option FaultKind
  /-- `dregs`, the register space (R21, R71), byte by byte -/
  dregs : Memory
  /-- `fifo[d]`, first entry first (R71) -/
  fifo : PerDir (List Word)
  /-- `busy[d]` (R71) -/
  busy : PerDir Bool
  /-- the hidden state of a device other than the reference one (R42, R70) [log 10] -/
  extDev : Nat
  /-- the device raised a model fault and "takes no further step" (R276) -/
  devStopped : Bool
  /-- the REG-port accesses made so far, newest first (R290) [log 22] -/
  portLog : List Access
  /-- the moves placed in advance, in order [log 1] -/
  sched : List Input
  /-- how many free moves have been taken [log 1] -/
  tick : Nat
  /-- how many draws have been taken [log 8] -/
  draws : Nat
  /-- the agent a command or micro-operation runs for [log 12] -/
  cur : Agent
deriving DecidableEq, Repr

/-- The state at attach (R300, R21) for a configuration, with a context for each of its buffers. What R21 and R302 leave
unspecified takes the values named in log 3, 4, 7 and 10. -/
def State.attach (cfg : Config) : State where
  cfg := cfg
  lock := ⟨none, none⟩
  count := ⟨0, 0⟩
  ctxs := cfg.bufs.map Ctx.fresh
  dispPc := .dIdle
  dispHeldM := false
  dispHeldS := false
  dispStopped := false
  irqPending := 0
  errlog := []
  fault := none
  dregs := []
  fifo := ⟨[], []⟩
  busy := ⟨false, false⟩
  extDev := 0
  devStopped := false
  portLog := []
  sched := []
  tick := 0
  draws := 0
  cur := .requester 0

/-- The machine right after attach, the only reset (R300): the reference configuration and two requesters. [log 6] -/
def State.reset : State := State.attach .reference

end Sys2Proof.Machine
end

