-- ==== Sys2Proof/Machine/Ops.lean ====
section
/-! DEFINITION. The operations every meaning is made of: the byte memory behind the banks, contexts, raising a model fault,
returning a result, the locks and the completion counts. An operation that goes on takes what comes next as its last
argument. -/

namespace Sys2Proof.Machine

open Sys2Proof

/-- The answer of a meaning. -/
abbrev Out := Host.Outcome State Fault Refusal

/-! ### Bytes of the register space (R61, R62, R71) -/

/-- What a byte of the register space that nothing has written reads as. DESIGN CHOICE. [log 3] -/
def unlistedByte : Byte := 0

/-- The byte at an address. -/
def Memory.get : Memory → Nat → Byte
  | [], _ => unlistedByte
  | (b, w) :: m, a => if b = a then w else Memory.get m a

/-- A byte put in its place by rising address. -/
def Memory.insert : Memory → Nat → Byte → Memory
  | [], a, v => [(a, v)]
  | (b, w) :: m, a, v => if a < b then (a, v) :: (b, w) :: m else (b, w) :: Memory.insert m a v

/-- The memory with one byte written, in canonical form: the byte an unlisted address reads as is not listed. -/
def Memory.set (m : Memory) (a : Nat) (v : Byte) : Memory :=
  let rest := m.filter fun c => c.1 ≠ a
  if v = unlistedByte then rest else Memory.insert rest a v

/-- The canonical form: addresses strictly rising, no entry equal to what an unlisted address reads as. -/
def Memory.wf : Memory → Bool
  | [] => true
  | [c] => c.2 != unlistedByte
  | c :: d :: m => c.2 != unlistedByte && decide (c.1 < d.1) && Memory.wf (d :: m)

/-- Which of the four bytes of a bank holds bits [8i+7:8i] of its word (R62). -/
def laneByte (o : ByteOrder) (i : Nat) : Nat :=
  match o with
  | .little => i
  | .big => 3 - i

/-- The byte address of bits [8i+7:8i] of bank b: bank b is bytes 4b to 4b + 3 (R61, R62). -/
def laneAddr (o : ByteOrder) (b i : Nat) : Nat := 4 * b + laneByte o i

/-- `dregs[b]` (R71). -/
def Memory.bank (m : Memory) (o : ByteOrder) (b : Nat) : Word :=
  m.get (laneAddr o b 3) ++ m.get (laneAddr o b 2) ++ m.get (laneAddr o b 1) ++ m.get (laneAddr o b 0)

/-- `dregs[b] <- v` (R71). -/
def Memory.setBank (m : Memory) (o : ByteOrder) (b : Nat) (v : Word) : Memory :=
  (((m.set (laneAddr o b 0) (v.extractLsb' 0 8)).set (laneAddr o b 1) (v.extractLsb' 8 8)).set
    (laneAddr o b 2) (v.extractLsb' 16 8)).set (laneAddr o b 3) (v.extractLsb' 24 8)

/-- `dregs[b]` of a state. -/
def State.stored (s : State) (b : Nat) : Word := s.dregs.bank s.cfg.byteOrder b

/-! ### Contexts -/

/-- `ctx[r]`, none where there is no requester r (R289). -/
abbrev State.ctx? (s : State) (r : Nat) : Option Ctx := s.ctxs[r]?

/-- `ctx[r] <- c`. -/
def State.setCtx (s : State) (r : Nat) (c : Ctx) : State := { s with ctxs := s.ctxs.set r c }

/-- The step of requester r ends with `pc <- p`. -/
def goto (r : Nat) (c : Ctx) (p : MicroState) (s : State) : Out := .next (s.setCtx r { c with pc := p })

/-- The context is at `IDLE` and no hand-built micro-operation of it is unfinished: it takes a command (R96). -/
def Ctx.ready (c : Ctx) : Bool := decide (c.pc = .idle) && c.uop.isNone && !c.stopped

/-- `return R` (R14, R22): the result is recorded, the operation is over, the context is at `IDLE`. -/
def finish (r : Nat) (c : Ctx) (res : Result) (s : State) : Out :=
  .next (s.setCtx r { c with op := .none, pc := .idle, res := some res })

/-- A command or micro-operation belongs to agent a. -/
def State.present (s : State) (a : Agent) : State := { s with cur := a }

/-! ### Model faults (R14, R32, R276) -/

/-- The agent takes no further step (R276). A stopped device takes no COMPLETE, SPURIOUS, IRQ or other step of its own; it
still answers the accesses that other agents make, which are their steps. DESIGN CHOICE. [log 16, 24] -/
def State.stop (s : State) : Agent → State
  | .requester r =>
    match s.ctx? r with
    | some c => s.setCtx r { c with stopped := true }
    | none => s
  | .dispatcher => { s with dispStopped := true }
  | .device => { s with devStopped := true }

/-- `raise Fault(k)` by agent a: the kind is recorded in `fault`, which is never cleared, and the agent stops. The other
agents go on, so this is a next state. [log 16] -/
def raise (a : Agent) (k : FaultKind) (s : State) : Out := .next { s.stop a with fault := some k }

/-! ### Locks (R140-R147) -/

/-- ACQUIRE d by requester r (R142): enabled only when the lock is free; otherwise r is blocked. -/
def acquire (r : Nat) (d : Dir) (s : State) (granted : State → Out) (blocked : Out) : Out :=
  if s.lock.get d = none then granted { s with lock := s.lock.set d (some r) } else blocked

/-- RELEASE d by requester r (R144): frees the lock, or raises RELEASE_NOT_OWNER. -/
def release (r : Nat) (d : Dir) (s : State) (released : State → Out) : Out :=
  if s.lock.get d = some r then released { s with lock := s.lock.set d none }
  else raise (.requester r) .releaseNotOwner s

/-! ### Completion counts (R150-R158) -/

/-- NOTIFY d by agent a (R151): one more, or COUNT_OVERFLOW at `COUNT_MAX`. -/
def notify (a : Agent) (d : Dir) (s : State) (notified : State → Out) : Out :=
  if s.count.get d = s.cfg.countMax then raise a .countOverflow s
  else notified { s with count := s.count.set d (s.count.get d + 1) }

/-- The SIGNALLED outcome of WAIT d (R153): enabled when the count is above 0, which it leaves as it is. -/
def awaitSignal (d : Dir) (s : State) (signalled : State → Out) (blocked : Out) : Out :=
  if 0 < s.count.get d then signalled s else blocked

/-- CONSUME d by requester r (R156): one less, or CONSUME_AT_ZERO. -/
def consume (r : Nat) (d : Dir) (s : State) (consumed : State → Out) : Out :=
  if s.count.get d = 0 then raise (.requester r) .consumeAtZero s
  else consumed { s with count := s.count.set d (s.count.get d - 1) }

/-- One interrupt event at the IRQ input (R170). -/
def State.raiseIrq (s : State) : State := { s with irqPending := s.irqPending + 1 }

end Sys2Proof.Machine
end

