-- ==== Sys2Proof/Machine/Operands.lean ====
section
/-! DEFINITION. Operand forms and numbers: masks, field values within a word (R13, R122, R123), block of a bank (R69), and
the codes the spec numbers (R24, R29, R97, R98). -/

namespace Sys2Proof.Machine

open Sys2Proof

/-- `mask(w)`: `(1 << w) - 1`, and 0xFFFFFFFF for w = 32 (R13, 90_conflicts C4). -/
def mask (w : Nat) : Word := BitVec.ofNat 32 (2 ^ w - 1)

/-- `full(f)`: the width is the word width (R121). -/
def fullWidth (d : FDesc) : Bool := decide (d.width = 32)

/-- The value of a field in its bank's word: whole for a full-width field, else `(word >> o) & mask(w)` (R122). -/
def fieldValue (d : FDesc) (word : Word) : Word :=
  if fullWidth d then word else (word >>> d.offset) &&& mask d.width

/-- `(tmp & ~(mask(w) << o)) | ((v & mask(w)) << o)` (R123). -/
def mergeField (d : FDesc) (tmp v : Word) : Word :=
  (tmp &&& ~~~(mask d.width <<< d.offset)) ||| ((v &&& mask d.width) <<< d.offset)

/-- The bit GET_BIT reads: `((word >> o) & 1) = 1` (R125). -/
def fieldBit (d : FDesc) (word : Word) : Bool := decide ((word >>> d.offset) &&& 1 = 1)

/-- `word | (1 << o)` (R126). -/
def withBitSet (d : FDesc) (word : Word) : Word := word ||| ((1 : Word) <<< d.offset)

/-- `word & ~(1 << o)` (R127). -/
def withBitClear (d : FDesc) (word : Word) : Word := word &&& ~~~((1 : Word) <<< d.offset)

/-- A truth value in a 32-bit destination: true is 1 (R125). -/
def boolWord (b : Bool) : Word := if b then 1 else 0

/-- The functional block a bank lies in: base `BLOCK_BASE[b]`, `BLOCK_STRIDE` banks long (R69). Where two ranges overlap,
which R12 allows, the first in the order DMA, RFFE, SPEC, GLOBAL is answered. DESIGN CHOICE. [log 28] -/
def blockOf (cfg : Config) (bank : Nat) : Option Block :=
  if cfg.blockBase.dma ≤ bank ∧ bank < cfg.blockBase.dma + cfg.blockStride then some .dma
  else if cfg.blockBase.rffe ≤ bank ∧ bank < cfg.blockBase.rffe + cfg.blockStride then some .rffe
  else if cfg.blockBase.spec ≤ bank ∧ bank < cfg.blockBase.spec + cfg.blockStride then some .spec
  else if cfg.blockBase.global ≤ bank ∧ bank < cfg.blockBase.global + cfg.blockStride then some .global
  else none

/-- The region id of a successful MAP (R98, R259); none for an offset that is neither selector. -/
def mapRegion (cfg : Config) (offset : Word) : Option Word :=
  if offset = cfg.regMapOffset then some 0
  else if offset = cfg.bufMapOffset then some 1
  else none

/-- The result codes of HRES (R97). -/
def Result.code : Result → Nat
  | .success => 0
  | .timeout => 1
  | .interrupted => 2
  | .invalidRequest => 3
  | .resourceExhausted => 4

/-- HRES (R97): what HOST receives when the operation of a context returns; none while none has. `OUT` is present only for
GET_IRQ_STATUS, GET_BUF_PHYS and a successful MAP. -/
def Ctx.hres (c : Ctx) : Option (Nat × Option Word) :=
  match c.res with
  | some res => some (res.code, c.out)
  | none => none

/-- The numeric codes of the micro-states (R24). -/
def MicroState.code : MicroState → Nat
  | .idle => 0
  | .tAcq => 1
  | .tWaddr => 2
  | .tWdata => 3
  | .tEnR => 4
  | .tEnW => 5
  | .tMode => 6
  | .tWait => 7
  | .tConsume => 8
  | .tPoll => 9
  | .tDrain => 10
  | .tDisR => 11
  | .tDisW => 12
  | .tRel => 13
  | .tAbtR => 14
  | .tAbtW => 15
  | .tAbtRel => 16
  | .gAcq1 => 20
  | .gAcq2 => 21
  | .gCrel1 => 22
  | .gRsR => 23
  | .gRsW => 24
  | .gRcR => 25
  | .gRcW => 26
  | .gBaR k => 27 + 2 * k.toNat
  | .gBaW k => 28 + 2 * k.toNat
  | .gRel2 => 35
  | .gRel1 => 36
  | .mAcq1 => 40
  | .mAcq2 => 41
  | .mCrel1 => 42
  | .mWr => 43
  | .mRel2 => 44
  | .mRel1 => 45
  | .sRd => 50

/-- The numeric codes of the dispatcher's micro-states (R29). -/
def DispPc.code : DispPc → Nat
  | .dIdle => 0
  | .dRdM => 1
  | .dRdS => 2
  | .dChkS => 3
  | .dChkM => 4
  | .dNotifyS => 5
  | .dNotifyM => 6
  | .dLog => 7

/-- The states the source names (R24, R192). -/
inductive SourceState where
  | idle
  | locked
  | commandIssued
  | awaitingCompletion
  | draining
deriving DecidableEq, Repr

/-- The "source state" column of R24; none for the micro-states the source does not name. -/
def MicroState.source : MicroState → Option SourceState
  | .idle | .tAcq => some .idle
  | .tWaddr | .tWdata => some .locked
  | .tEnR | .tEnW | .tMode => some .commandIssued
  | .tWait | .tConsume | .tPoll => some .awaitingCompletion
  | .tDrain | .tDisR | .tDisW | .tRel => some .draining
  | .tAbtR | .tAbtW | .tAbtRel | .gAcq1 | .gAcq2 | .gCrel1 | .gRsR | .gRsW | .gRcR | .gRcW | .gBaR _ | .gBaW _
  | .gRel2 | .gRel1 | .mAcq1 | .mAcq2 | .mCrel1 | .mWr | .mRel2 | .mRel1 | .sRd => none

end Sys2Proof.Machine
end

