-- ==== Sys2Proof/Machine/Flags.lean ====
section
/-! DEFINITION. The flags of the block: lock held (R26), interrupt mode (R27), status FIFO empty (R33, R73), transfer enable
(R33). They are functions of the state. -/

namespace Sys2Proof.Machine

open Sys2Proof

/-- `held(d)`: the lock has a holder, whatever it runs (R26). -/
def State.held (s : State) (d : Dir) : Bool := (s.lock.get d).isSome

/-- The interrupt-mode flag `d_IRQ_EN` as the device's storage has it (R27, R78). -/
def State.irqMode (s : State) (d : Dir) : Bool :=
  fieldBit (s.cfg.field (.irqEn d)) (s.stored (s.cfg.field .irqEnable).bank)

/-- The value of `d_STS_FIFO_EMPTY`: 1 exactly when `fifo[d]` is empty (R73). -/
def State.fifoEmpty (s : State) (d : Dir) : Bool := (s.fifo.get d).isEmpty

/-- `d_XFER_EN` as the device's storage has it (R77). -/
def State.xferEnabled (s : State) (d : Dir) : Bool :=
  fieldBit (s.cfg.field (.xferEn d)) (s.stored (s.cfg.field (.xferEn d)).bank)

end Sys2Proof.Machine
end

