-- ==== Sys2Proof/Machine/Device.lean ====
section
/-! DEFINITION. The device behind the REG port (R60-R79), a parameter (R70): the reference device of R71-R79 or any other. What
a read answers and does, what a write does, and the device's own steps. Where a layout puts several device-owned fields in one bank, the status FIFO's rule
comes first, then the interrupt status's, then the empty flags'. [log 9] -/

namespace Sys2Proof.Machine

open Sys2Proof

/-- Bank b holds field f. -/
def holdsField (cfg : Config) (b : Nat) (f : FieldId) : Bool := decide ((cfg.field f).bank = b)

/-- The direction whose status FIFO word is bank b (R74). -/
def fifoAt (cfg : Config) (b : Nat) : Option Dir :=
  if holdsField cfg b (.stsFifo .mm2s) then some .mm2s
  else if holdsField cfg b (.stsFifo .s2mm) then some .s2mm
  else none

/-- The word with the bit of `d_STS_FIFO_EMPTY` replaced by the flag, where bank b holds that field (R73). -/
def State.withEmptyFlag (s : State) (b : Nat) (d : Dir) (w : Word) : Word :=
  if holdsField s.cfg b (.stsFifoEmpty d) then
    mergeField (s.cfg.field (.stsFifoEmpty d)) w (boolWord (s.fifoEmpty d))
  else w

/-- The value of the next draw (R14). -/
def State.nextDraw (s : State) : Word := Config.freeWord s.draws

/-- The state after a draw was taken. -/
def State.drawn (s : State) : State := { s with draws := s.draws + 1 }

/-- The value a read of bank b returns from the reference device (R72-R75). -/
def State.refReadValue (s : State) (b : Nat) : Word :=
  match fifoAt s.cfg b with
  | some d =>
    match s.fifo.get d with
    | e :: _ => e
    | [] => s.nextDraw
  | none =>
    if holdsField s.cfg b .irqStatus then s.nextDraw
    else s.withEmptyFlag b .s2mm (s.withEmptyFlag b .mm2s (s.stored b))

/-- What a read of bank b does in the reference device: it removes the first entry of a status FIFO (R65, R74), and nothing
else. -/
def State.refReadEffect (s : State) (b : Nat) : State :=
  match fifoAt s.cfg b with
  | some d =>
    match s.fifo.get d with
    | _ :: es => { s with fifo := s.fifo.set d es }
    | [] => s.drawn
  | none => if holdsField s.cfg b .irqStatus then s.drawn else s

/-- The value a read of bank b returns: the device chooses it (R64, R70). -/
def State.readValue (s : State) (b : Nat) : Word :=
  match s.cfg.dev with
  | .reference => s.refReadValue b
  | .other id => Config.devRead id s.extDev s.draws b

/-- What a read of bank b does in the device (R65, R70). -/
def State.readEffect (s : State) (b : Nat) : State :=
  match s.cfg.dev with
  | .reference => s.refReadEffect b
  | .other id => { s with extDev := Config.devAfterRead id s.extDev s.draws b, draws := s.draws + 1 }

/-- The machine after a read of bank b. -/
def State.afterRead (s : State) (b : Nat) : State :=
  { s.readEffect b with portLog := .read b (s.readValue b) :: s.portLog }

/-- `RegRead(b)` (R14, R60): the value, and the state after it, handed to what comes next. -/
def regRead (b : Nat) (s : State) (got : Word → State → Out) : Out :=
  if b < s.cfg.numBanks then got (s.readValue b) (s.afterRead b) else .fault (.noSuchBank b)

/-- The word with the bit of `d_STS_FIFO_EMPTY` kept as stored, where bank b holds that field (R73). -/
def State.keepEmptyBit (s : State) (b : Nat) (d : Dir) (w : Word) : Word :=
  if holdsField s.cfg b (.stsFifoEmpty d) then
    mergeField (s.cfg.field (.stsFifoEmpty d)) w (fieldValue (s.cfg.field (.stsFifoEmpty d)) (s.stored b))
  else w

/-- Storing v in bank b starts a transfer of d: `d_XFER_EN` as stored changes from 0 to 1 (R77). -/
def State.startsTransfer (s : State) (b : Nat) (v : Word) (d : Dir) : Bool :=
  holdsField s.cfg b (.xferEn d) && !fieldBit (s.cfg.field (.xferEn d)) (s.stored b) &&
    fieldBit (s.cfg.field (.xferEn d)) v

/-- Storing v in bank b resets the device: `GLOBAL_RESET` as stored changes from 0 to 1 (R66; a write of the value it already
holds does nothing, R68). [log 26] -/
def State.pulsesReset (s : State) (b : Nat) (v : Word) : Bool :=
  holdsField s.cfg b .globalReset && !fieldBit (s.cfg.field .globalReset) (s.stored b) &&
    fieldBit (s.cfg.field .globalReset) v

/-- The register space after the banks of a reset effect took their values, in order. -/
def resetBanks (o : ByteOrder) (m : Memory) (banks : List BankReset) : Memory :=
  banks.foldl (fun m e => m.setBank o e.bank ((m.bank o e.bank &&& e.keep) ||| e.value)) m

/-- `DEV_RESET_EFFECT` (R66, R76). [log 26] -/
def State.resetDevice (s : State) : State :=
  let e := s.cfg.devResetEffect
  { s with
    dregs := resetBanks s.cfg.byteOrder s.dregs e.banks
    fifo := ⟨if e.emptiesFifo.mm2s then [] else s.fifo.mm2s, if e.emptiesFifo.s2mm then [] else s.fifo.s2mm⟩
    busy := ⟨s.busy.mm2s && !e.clearsBusy.mm2s, s.busy.s2mm && !e.clearsBusy.s2mm⟩ }

/-- The reference device after v was stored in bank b: `dregs[b]`, and a transfer started (R72, R73, R77). -/
def State.store (s : State) (b : Nat) (v : Word) : State :=
  let w := s.keepEmptyBit b .s2mm (s.keepEmptyBit b .mm2s v)
  { s with
    dregs := s.dregs.setBank s.cfg.byteOrder b w
    busy := ⟨s.busy.mm2s || s.startsTransfer b w .mm2s, s.busy.s2mm || s.startsTransfer b w .s2mm⟩ }

/-- What a write of v to bank b does in the reference device (R72-R77). -/
def State.refWriteEffect (s : State) (b : Nat) (v : Word) : State :=
  if (fifoAt s.cfg b).isSome || holdsField s.cfg b .irqStatus then s
  else if s.pulsesReset b v then (s.store b v).resetDevice
  else s.store b v

/-- What a write of v to bank b does in the device (R66, R70). -/
def State.writeEffect (s : State) (b : Nat) (v : Word) : State :=
  match s.cfg.dev with
  | .reference => s.refWriteEffect b v
  | .other id => { s with extDev := Config.devAfterWrite id s.extDev s.draws b v, draws := s.draws + 1 }

/-- The machine after a write of v to bank b. -/
def State.afterWrite (s : State) (b : Nat) (v : Word) : State :=
  { s.writeEffect b v with portLog := .write b v :: s.portLog }

/-- `RegWrite(b, v)` (R14, R60). -/
def regWrite (b : Nat) (v : Word) (s : State) (done : State → Out) : Out :=
  if b < s.cfg.numBanks then done (s.afterWrite b v) else .fault (.noSuchBank b)

/-- COMPLETE(d) of the reference device (R78): an entry is added to the status FIFO, then an interrupt event is raised if
`d_IRQ_EN` is 1. -/
def State.completed (s : State) (d : Dir) : State :=
  let t := { s with
    busy := s.busy.set d false
    fifo := s.fifo.set d (s.fifo.get d ++ [s.nextDraw])
    draws := s.draws + 1 }
  if s.irqMode d then t.raiseIrq else t

/-- The reference device may take a step of its own: it is the device (R70), and no model fault has stopped it (R276). -/
def State.refDeviceMoves (s : State) : Bool := decide (s.cfg.dev = .reference) && !s.devStopped

/-- COMPLETE(d) (R78): only while `busy[d]` is 1. -/
def stepComplete (d : Dir) (s : State) : Out :=
  if s.refDeviceMoves && s.busy.get d then .next (s.completed d) else .next s

/-- SPURIOUS (R79). -/
def stepSpurious (s : State) : Out := if s.refDeviceMoves then .next s.raiseIrq else .next s

/-- A step of its own of a device other than the reference one: it may do anything to its state and add events to the IRQ
input (R70). [log 10] -/
def stepDevice (choice : Nat) (s : State) : Out :=
  match s.cfg.dev with
  | .reference => .next s
  | .other id =>
    if s.devStopped then .next s
    else .next { s with
      extDev := Config.devStep id s.extDev choice
      irqPending := s.irqPending + Config.devEvents id s.extDev choice }

end Sys2Proof.Machine
end

