-- ==== Sys2Proof/Machine/Accessor.lean ====
section
/-! DEFINITION. The bitfield register accessor (R120-R130): every register access of the block. A write to a field narrower
than the word is two steps of its agent, W_R and W_W, with `tmp` between them. -/

namespace Sys2Proof.Machine

open Sys2Proof

/-- READ f (R122). -/
def readField (f : FieldId) (s : State) (got : Word → State → Out) : Out :=
  let d := s.cfg.field f
  regRead d.bank s fun w t => got (fieldValue d w) t

/-- GET_BIT f (R125). -/
def getBitField (f : FieldId) (s : State) (got : Bool → State → Out) : Out :=
  let d := s.cfg.field f
  regRead d.bank s fun w t => got (fieldBit d w) t

/-- The full path of WRITE f, v: one write, no read (R123). -/
def writeFull (f : FieldId) (v : Word) (s : State) (done : State → Out) : Out :=
  regWrite (s.cfg.field f).bank v s done

/-- Step W_R of a partial write: the bank's word, for `tmp` (R123, R126, R127). -/
def latchBank (f : FieldId) (s : State) (got : Word → State → Out) : Out :=
  regRead (s.cfg.field f).bank s got

/-- Step W_W of WRITE f, v (R123). -/
def writeMerged (f : FieldId) (v tmp : Word) (s : State) (done : State → Out) : Out :=
  let d := s.cfg.field f
  regWrite d.bank (mergeField d tmp v) s done

/-- Step W_W of SET_BIT f (R126). -/
def writeBitSet (f : FieldId) (tmp : Word) (s : State) (done : State → Out) : Out :=
  let d := s.cfg.field f
  regWrite d.bank (withBitSet d tmp) s done

/-- Step W_W of CLEAR_BIT f (R127). -/
def writeBitClear (f : FieldId) (tmp : Word) (s : State) (done : State → Out) : Out :=
  let d := s.cfg.field f
  regWrite d.bank (withBitClear d tmp) s done

/-- A `*_R` micro-state of requester r: the bank's word goes to `tmp`, and `pc <- p`. -/
def latchStep (f : FieldId) (p : MicroState) (r : Nat) (c : Ctx) (s : State) : Out :=
  latchBank f s fun w t => .next (t.setCtx r { c with tmp := w, pc := p })

end Sys2Proof.Machine
end

