-- ==== Sys2Proof/Machine/Dispatcher.lean ====
section
/-! DEFINITION. The interrupt dispatcher (R170-R183): the IRQ event, the start of an invocation, and the steps `D_*`. -/

namespace Sys2Proof.Machine

open Sys2Proof

/-- IRQ (R170), "one atomic step of the device": one event at the interrupt input. It is the device's step for whichever
agent the word is presented: the word names none. DESIGN CHOICE. [log 27] -/
def execIrq (s : State) : Out := if s.devStopped then .next s else .next s.raiseIrq

/-- DISPATCH (R171): enabled when the dispatcher is at `D_IDLE` and an event is pending. Entry saves no state (R282).
It is the dispatcher's step for whichever agent the word is presented: the word names none. DESIGN CHOICE. [log 27] -/
def execDispatch (s : State) : Out :=
  if s.dispStopped = false ∧ s.dispPc = .dIdle ∧ 0 < s.irqPending then
    .next { s with irqPending := s.irqPending - 1, dispPc := .dRdM }
  else .next s

/-- `D_RD_M` (R172). -/
def stepDRdM (s : State) : Out :=
  .next { s with dispHeldM := s.held .mm2s, dispPc := .dRdS }

/-- `D_RD_S` (R173). -/
def stepDRdS (s : State) : Out :=
  .next { s with
    dispHeldS := s.held .s2mm
    dispPc := if s.held .s2mm then .dChkS else if s.dispHeldM then .dChkM else .dLog }

/-- `D_CHK_S` (R174). -/
def stepDChkS (s : State) : Out :=
  getBitField (.stsFifoEmpty .s2mm) s fun e t =>
    .next { t with dispPc := if e = false then .dNotifyS else if t.dispHeldM then .dChkM else .dLog }

/-- `D_CHK_M` (R175). -/
def stepDChkM (s : State) : Out :=
  getBitField (.stsFifoEmpty .mm2s) s fun e t =>
    .next { t with dispPc := if e = false then .dNotifyM else .dLog }

/-- `D_NOTIFY_S` (R176). -/
def stepDNotifyS (s : State) : Out :=
  notify .dispatcher .s2mm s fun t => .next { t with dispPc := .dIdle }

/-- `D_NOTIFY_M` (R177). -/
def stepDNotifyM (s : State) : Out :=
  notify .dispatcher .mm2s s fun t => .next { t with dispPc := .dIdle }

/-- `D_LOG` (R178). -/
def stepDLog (s : State) : Out :=
  .next { s with errlog := s.errlog ++ [.errant], dispPc := .dIdle }

/-- The dispatcher's next step; none is enabled at `D_IDLE` with no event pending, nor once it has stopped (R276). -/
def dispStep (s : State) : Out :=
  if s.dispStopped then .next s
  else match s.dispPc with
    | .dIdle => execDispatch s
    | .dRdM => stepDRdM s
    | .dRdS => stepDRdS s
    | .dChkS => stepDChkS s
    | .dChkM => stepDChkM s
    | .dNotifyS => stepDNotifyS s
    | .dNotifyM => stepDNotifyM s
    | .dLog => stepDLog s

end Sys2Proof.Machine
end

