-- ==== Sys2Proof/Machine/Transfer.lean ====
section
/-! DEFINITION. The direction transfer controller (R190-R216): the issue steps of DMA_WRITE and DMA_READ, and the steps
`T_*`, each one atomic step of requester r whose context is c. -/

namespace Sys2Proof.Machine

open Sys2Proof

/-- ISSUE (R96) to the requester HOST addresses: `arg` is stored, `res` and `out` become none, then the operation's own part.
A context that is not at `IDLE` "takes no new command": the command is turned away with no effect. [log 25] -/
def issue (arg : Word) (s : State) (start : Nat → Ctx → State → Out) : Out :=
  match s.cur with
  | .requester r =>
    match s.ctx? r with
    | some c => if c.ready then start r { c with arg := arg, res := none, out := none } s else .next s
    | none => .next s
  | .dispatcher | .device => .next s

/-- DMA_WRITE (R190, R96). -/
def execDmaWrite (arg : Word) (s : State) : Out :=
  issue arg s fun r c t => .next (t.setCtx r { c with op := .dmaWrite, dir := .mm2s, pc := .tAcq })

/-- DMA_READ (R191, R96). -/
def execDmaRead (arg : Word) (s : State) : Out :=
  issue arg s fun r c t => .next (t.setCtx r { c with op := .dmaRead, dir := .s2mm, pc := .tAcq })

/-- `T_ACQ` (R193). -/
def stepTAcq (r : Nat) (c : Ctx) (s : State) : Out :=
  acquire r c.dir s (goto r c .tWaddr) (.next s)

/-- `T_WADDR` (R194). -/
def stepTWaddr (r : Nat) (c : Ctx) (s : State) : Out :=
  writeFull (.cmdAddr c.dir) c.buf s (goto r c .tWdata)

/-- `T_WDATA` (R195): the command word verbatim (R37). -/
def stepTWdata (r : Nat) (c : Ctx) (s : State) : Out :=
  writeFull (.cmdData c.dir) c.arg s (goto r c .tEnR)

/-- `T_EN_R` (R196). -/
def stepTEnR (r : Nat) (c : Ctx) (s : State) : Out :=
  latchStep (.xferEn c.dir) .tEnW r c s

/-- `T_EN_W` (R196). -/
def stepTEnW (r : Nat) (c : Ctx) (s : State) : Out :=
  writeBitSet (.xferEn c.dir) c.tmp s (goto r c .tMode)

/-- `T_MODE` (R197): interrupt mode waits; polling mode starts at iteration 0. -/
def stepTMode (r : Nat) (c : Ctx) (s : State) : Out :=
  getBitField (.irqEn c.dir) s fun m t =>
    if m then goto r c .tWait t else goto r { c with iter := 0 } .tPoll t

/-- `T_WAIT`, outcome SIGNALLED (R198); TIMEDOUT and INTERRUPTED are the environment's steps. -/
def stepTWait (r : Nat) (c : Ctx) (s : State) : Out :=
  awaitSignal c.dir s (goto r c .tConsume) (.next s)

/-- `T_CONSUME` (R199). -/
def stepTConsume (r : Nat) (c : Ctx) (s : State) : Out :=
  consume r c.dir s (goto r c .tDrain)

/-- `T_POLL` (R200): one read; completion, ceiling, or the next iteration. -/
def stepTPoll (r : Nat) (c : Ctx) (s : State) : Out :=
  getBitField (.stsFifoEmpty c.dir) s fun e t =>
    let c := { c with iter := c.iter + 1 }
    if e = false then goto r c .tDrain t
    else if c.iter = t.cfg.pollLimit then goto r { c with err := some .timeout } .tAbtR t
    else goto r c .tPoll t

/-- `T_DRAIN` (R201): exactly one read of the status FIFO word, its value discarded. -/
def stepTDrain (r : Nat) (c : Ctx) (s : State) : Out :=
  readField (.stsFifo c.dir) s fun _ t => goto r c .tDisR t

/-- `T_DIS_R` (R202). -/
def stepTDisR (r : Nat) (c : Ctx) (s : State) : Out :=
  latchStep (.xferEn c.dir) .tDisW r c s

/-- `T_DIS_W` (R202). -/
def stepTDisW (r : Nat) (c : Ctx) (s : State) : Out :=
  writeBitClear (.xferEn c.dir) c.tmp s (goto r c .tRel)

/-- `T_REL` (R203). -/
def stepTRel (r : Nat) (c : Ctx) (s : State) : Out :=
  release r c.dir s (finish r c .success)

/-- `T_ABT_R` (R204). -/
def stepTAbtR (r : Nat) (c : Ctx) (s : State) : Out :=
  latchStep (.xferEn c.dir) .tAbtW r c s

/-- `T_ABT_W` (R204). -/
def stepTAbtW (r : Nat) (c : Ctx) (s : State) : Out :=
  writeBitClear (.xferEn c.dir) c.tmp s (goto r c .tAbtRel)

/-- `T_ABT_REL` (R205): `return ctx[r].err`. -/
def stepTAbtRel (r : Nat) (c : Ctx) (s : State) : Out :=
  release r c.dir s fun t => .next (t.setCtx r { c with op := .none, pc := .idle, res := c.err })

end Sys2Proof.Machine
end

