-- ==== Sys2Proof/Machine/Global.lean ====
section
/-! DEFINITION. The global control operations and the rest of the control surface (R240-R260): the issue steps, and the
steps `G_*`, `M_*` and `S_RD` of requester r whose context is c. -/

namespace Sys2Proof.Machine

open Sys2Proof

/-! ### Issue steps -/

/-- RESET (R240, R96). -/
def execReset (arg : Word) (s : State) : Out :=
  issue arg s fun r c t => .next (t.setCtx r { c with op := .reset, pc := .gAcq1 })

/-- SET_IRQ_MASK (R250, R96). -/
def execSetIrqMask (arg : Word) (s : State) : Out :=
  issue arg s fun r c t => .next (t.setCtx r { c with op := .setIrqMask, pc := .mAcq1 })

/-- GET_IRQ_STATUS (R255, R96). -/
def execGetIrqStatus (arg : Word) (s : State) : Out :=
  issue arg s fun r c t => .next (t.setCtx r { c with op := .getIrqStatus, pc := .sRd })

/-- GET_BUF_PHYS (R257): complete within the issue step. -/
def execGetBufPhys (arg : Word) (s : State) : Out :=
  issue arg s fun r c t => finish r { c with out := some c.buf } .success t

/-- MAP (R259): complete within the issue step. -/
def execMap (arg : Word) (s : State) : Out :=
  issue arg s fun r c t =>
    match mapRegion t.cfg arg with
    | some id => finish r { c with out := some id } .success t
    | none => finish r c .invalidRequest t

/-- A command whose selector decodes to INVALID (R258): complete within the issue step, no other effect. -/
def issueInvalid (arg : Word) (s : State) : Out :=
  issue arg s fun r c t => finish r c .invalidRequest t

/-! ### RESET -/

/-- `G_ACQ1` (R241). -/
def stepGAcq1 (r : Nat) (c : Ctx) (s : State) : Out :=
  acquire r .mm2s s (goto r c .gAcq2) (.next s)

/-- `G_ACQ2` (R242). -/
def stepGAcq2 (r : Nat) (c : Ctx) (s : State) : Out :=
  acquire r .s2mm s (goto r c .gRsR) (.next s)

/-- `G_CREL1` (R243). -/
def stepGCrel1 (r : Nat) (c : Ctx) (s : State) : Out :=
  release r .mm2s s (finish r c .interrupted)

/-- `G_RS_R` (R244). -/
def stepGRsR (r : Nat) (c : Ctx) (s : State) : Out :=
  latchStep .globalReset .gRsW r c s

/-- `G_RS_W` (R244). -/
def stepGRsW (r : Nat) (c : Ctx) (s : State) : Out :=
  writeBitSet .globalReset c.tmp s (goto r c .gRcR)

/-- `G_RC_R` (R245). -/
def stepGRcR (r : Nat) (c : Ctx) (s : State) : Out :=
  latchStep .globalReset .gRcW r c s

/-- `G_RC_W` (R245). -/
def stepGRcW (r : Nat) (c : Ctx) (s : State) : Out :=
  writeBitClear .globalReset c.tmp s (goto r c (.gBaR .k0))

/-- `G_BAk_R` (R246): no read where the field is full width. -/
def stepGBaR (k : BusIx) (r : Nat) (c : Ctx) (s : State) : Out :=
  if fullWidth (s.cfg.field (.busAttr k)) then goto r c (.gBaW k) s
  else latchStep (.busAttr k) (.gBaW k) r c s

/-- The micro-state after `G_BAk_W`: `G_BA(k+1)_R`, or `G_REL2` after k = 3 (R246). -/
def afterBusAttr (k : BusIx) : MicroState :=
  match k.succ? with
  | some j => .gBaR j
  | none => .gRel2

/-- `G_BAk_W` (R246): the constant into its field, or whole where the field is full width. -/
def stepGBaW (k : BusIx) (r : Nat) (c : Ctx) (s : State) : Out :=
  if fullWidth (s.cfg.field (.busAttr k)) then
    writeFull (.busAttr k) (s.cfg.busAttrVal.get k) s (goto r c (afterBusAttr k))
  else writeMerged (.busAttr k) (s.cfg.busAttrVal.get k) c.tmp s (goto r c (afterBusAttr k))

/-- `G_REL2` (R247). -/
def stepGRel2 (r : Nat) (c : Ctx) (s : State) : Out :=
  release r .s2mm s (goto r c .gRel1)

/-- `G_REL1` (R247). -/
def stepGRel1 (r : Nat) (c : Ctx) (s : State) : Out :=
  release r .mm2s s (finish r c .success)

/-! ### SET_IRQ_MASK -/

/-- `M_ACQ1` (R251). -/
def stepMAcq1 (r : Nat) (c : Ctx) (s : State) : Out :=
  acquire r .mm2s s (goto r c .mAcq2) (.next s)

/-- `M_ACQ2` (R251). -/
def stepMAcq2 (r : Nat) (c : Ctx) (s : State) : Out :=
  acquire r .s2mm s (goto r c .mWr) (.next s)

/-- `M_CREL1` (R251). -/
def stepMCrel1 (r : Nat) (c : Ctx) (s : State) : Out :=
  release r .mm2s s (finish r c .interrupted)

/-- `M_WR` (R252): all 32 bits of the mask. -/
def stepMWr (r : Nat) (c : Ctx) (s : State) : Out :=
  writeFull .irqEnable c.arg s (goto r c .mRel2)

/-- `M_REL2` (R253). -/
def stepMRel2 (r : Nat) (c : Ctx) (s : State) : Out :=
  release r .s2mm s (goto r c .mRel1)

/-- `M_REL1` (R253). -/
def stepMRel1 (r : Nat) (c : Ctx) (s : State) : Out :=
  release r .mm2s s (finish r c .success)

/-! ### GET_IRQ_STATUS -/

/-- `S_RD` (R256). -/
def stepSRd (r : Nat) (c : Ctx) (s : State) : Out :=
  readField .irqStatus s fun v t => finish r { c with out := some v } .success t

end Sys2Proof.Machine
end

