-- ==== Sys2Proof/Machine/Requester.lean ====
section
/-! DEFINITION. A requester's own step at its micro-state (R24, R25), the environment's CANCEL and TIMEOUT (R143, R154, R155),
and which micro-operation each micro-state issues (R130). -/

namespace Sys2Proof.Machine

open Sys2Proof

/-- The second step, or the retry, of a hand-built micro-operation of requester r (R123, R126, R127, R142, R153). [log 12] -/
def resumeUop (r : Nat) (c : Ctx) (i : Instr) (s : State) : Out :=
  let completed : State → Out := fun t => .next (t.setCtx r { c with uop := none })
  match i with
  | .write f v => writeMerged f v c.tmp s completed
  | .setBit f => writeBitSet f c.tmp s completed
  | .clearBit f => writeBitClear f c.tmp s completed
  | .acquire d => acquire r d s completed (.next s)
  | .wait d => awaitSignal d s (fun t => .next (t.setCtx r { c with uop := none, waited := some .signalled })) (.next s)
  | .read _ | .getBit _ | .release _ | .notify _ | .consume _ | .dispatch | .irq
  | .reset _ | .setIrqMask _ | .getIrqStatus _ | .getBufPhys _ | .dmaWrite _ | .dmaRead _ | .map _ => completed s

/-- At `IDLE` only an unfinished hand-built micro-operation has a step; otherwise "A context in `IDLE` moves only when HOST
issues a new command to it" (R25). -/
def stepIdle (r : Nat) (c : Ctx) (s : State) : Out :=
  match c.uop with
  | some i => resumeUop r c i s
  | none => .next s

/-- The step of requester r, whose context is c, at its micro-state (R24). -/
def stepAt (r : Nat) (c : Ctx) (s : State) : Out :=
  match c.pc with
  | .idle => stepIdle r c s
  | .tAcq => stepTAcq r c s
  | .tWaddr => stepTWaddr r c s
  | .tWdata => stepTWdata r c s
  | .tEnR => stepTEnR r c s
  | .tEnW => stepTEnW r c s
  | .tMode => stepTMode r c s
  | .tWait => stepTWait r c s
  | .tConsume => stepTConsume r c s
  | .tPoll => stepTPoll r c s
  | .tDrain => stepTDrain r c s
  | .tDisR => stepTDisR r c s
  | .tDisW => stepTDisW r c s
  | .tRel => stepTRel r c s
  | .tAbtR => stepTAbtR r c s
  | .tAbtW => stepTAbtW r c s
  | .tAbtRel => stepTAbtRel r c s
  | .gAcq1 => stepGAcq1 r c s
  | .gAcq2 => stepGAcq2 r c s
  | .gCrel1 => stepGCrel1 r c s
  | .gRsR => stepGRsR r c s
  | .gRsW => stepGRsW r c s
  | .gRcR => stepGRcR r c s
  | .gRcW => stepGRcW r c s
  | .gBaR k => stepGBaR k r c s
  | .gBaW k => stepGBaW k r c s
  | .gRel2 => stepGRel2 r c s
  | .gRel1 => stepGRel1 r c s
  | .mAcq1 => stepMAcq1 r c s
  | .mAcq2 => stepMAcq2 r c s
  | .mCrel1 => stepMCrel1 r c s
  | .mWr => stepMWr r c s
  | .mRel2 => stepMRel2 r c s
  | .mRel1 => stepMRel1 r c s
  | .sRd => stepSRd r c s

/-- Requester r takes its next step. Where none is enabled (no such requester, stopped by a model fault, blocked, idle) the
machine stays as it is. [log 1, 16] -/
def ownStep (r : Nat) (s : State) : Out :=
  match s.ctx? r with
  | some c => if c.stopped then .next s else stepAt r c s
  | none => .next s

/-- CANCEL at a micro-state of the block's operations: at an acquire micro-state (R143, R193, R241, R242, R251) and at
`T_WAIT` (R155, R198); nowhere else, `T_POLL` among them (R200, D11). -/
def cancelAt (r : Nat) (c : Ctx) (s : State) : Out :=
  match c.pc with
  | .tAcq | .gAcq1 | .mAcq1 => finish r c .interrupted s
  | .gAcq2 => goto r c .gCrel1 s
  | .mAcq2 => goto r c .mCrel1 s
  | .tWait => goto r { c with err := some .interrupted } .tAbtR s
  | .idle =>
    match c.uop with
    | some (.acquire _) | some (.wait _) => .next (s.setCtx r { c with uop := none, waited := some .interrupted })
    | _ => .next s
  | _ => .next s

/-- CANCEL(r) (R143, R155). -/
def stepCancel (r : Nat) (s : State) : Out :=
  match s.ctx? r with
  | some c => if c.stopped then .next s else cancelAt r c s
  | none => .next s

/-- TIMEOUT at `T_WAIT` while the count is 0 (R153, R154, R198), and at a hand-built WAIT likewise. -/
def timeoutAt (r : Nat) (c : Ctx) (s : State) : Out :=
  match c.pc with
  | .tWait =>
    if s.count.get c.dir = 0 then goto r { c with err := some .timeout } .tAbtR s else .next s
  | .idle =>
    match c.uop with
    | some (.wait d) =>
      if s.count.get d = 0 then .next (s.setCtx r { c with uop := none, waited := some .timedOut }) else .next s
    | _ => .next s
  | _ => .next s

/-- TIMEOUT(r) (R154). -/
def stepTimeout (r : Nat) (s : State) : Out :=
  match s.ctx? r with
  | some c => if c.stopped then .next s else timeoutAt r c s
  | none => .next s

/-- The micro-operation the micro-state of a context issues (R130, and the UOP column of the spec's program P1); none at
`IDLE`. Both halves of a partial write are the one micro-operation; so are `G_BAk_R` and `G_BAk_W` where `BUS_ATTR_k` is
full width and the first makes no access (R246), which the spec leaves open: DESIGN CHOICE. [log 31] -/
def microOpAt (cfg : Config) (c : Ctx) : Option Instr :=
  match c.pc with
  | .idle => none
  | .tAcq => some (.acquire c.dir)
  | .tWaddr => some (.write (.cmdAddr c.dir) c.buf)
  | .tWdata => some (.write (.cmdData c.dir) c.arg)
  | .tEnR | .tEnW => some (.setBit (.xferEn c.dir))
  | .tMode => some (.getBit (.irqEn c.dir))
  | .tWait => some (.wait c.dir)
  | .tConsume => some (.consume c.dir)
  | .tPoll => some (.getBit (.stsFifoEmpty c.dir))
  | .tDrain => some (.read (.stsFifo c.dir))
  | .tDisR | .tDisW | .tAbtR | .tAbtW => some (.clearBit (.xferEn c.dir))
  | .tRel | .tAbtRel => some (.release c.dir)
  | .gAcq1 | .mAcq1 => some (.acquire .mm2s)
  | .gAcq2 | .mAcq2 => some (.acquire .s2mm)
  | .gRsR | .gRsW => some (.setBit .globalReset)
  | .gRcR | .gRcW => some (.clearBit .globalReset)
  | .gBaR k | .gBaW k => some (.write (.busAttr k) (cfg.busAttrVal.get k))
  | .gRel2 | .mRel2 => some (.release .s2mm)
  | .gCrel1 | .gRel1 | .mCrel1 | .mRel1 => some (.release .mm2s)
  | .mWr => some (.write .irqEnable c.arg)
  | .sRd => some (.read .irqStatus)

/-- The micro-operation the dispatcher's micro-state issues (R171, R174-R177); none for its flag reads and its log step. -/
def dispMicroOp : DispPc → Option Instr
  | .dIdle => some .dispatch
  | .dChkS => some (.getBit (.stsFifoEmpty .s2mm))
  | .dChkM => some (.getBit (.stsFifoEmpty .mm2s))
  | .dNotifyS => some (.notify .s2mm)
  | .dNotifyM => some (.notify .mm2s)
  | .dRdM | .dRdS | .dLog => none

end Sys2Proof.Machine
end

