-- ==== Sys2Proof/Machine/MicroOp.lean ====
section
/-! DEFINITION. The micro-operations as instructions (R122-R128, R142-R157): for the agent in `State.cur`, either the step its
micro-state issues, which takes "the calling rule's next micro-state", or, for a requester at `IDLE`, one operation of a
hand-built sequence. [log 12, 13] -/

namespace Sys2Proof.Machine

open Sys2Proof

/-- The spelling of a micro-operation as a write: "`SET_BIT f` means `WRITE f, 1` and `CLEAR_BIT f` means `WRITE f, 0`"
(R105). -/
def asWrite : Instr → Instr
  | .setBit f => .write f 1
  | .clearBit f => .write f 0
  | .reset a => .reset a
  | .setIrqMask a => .setIrqMask a
  | .getIrqStatus a => .getIrqStatus a
  | .getBufPhys a => .getBufPhys a
  | .dmaWrite a => .dmaWrite a
  | .dmaRead a => .dmaRead a
  | .map a => .map a
  | .read f => .read f
  | .write f v => .write f v
  | .getBit f => .getBit f
  | .acquire d => .acquire d
  | .release d => .release d
  | .notify d => .notify d
  | .wait d => .wait d
  | .consume d => .consume d
  | .dispatch => .dispatch
  | .irq => .irq

/-- The micro-operation an agent issues or has unfinished, if any, is i, in either spelling (R105). -/
def issues (o : Option Instr) (i : Instr) : Bool := decide (o.map asWrite = some (asWrite i))

/-- Running micro-operation i. A requester whose micro-state issues i takes that step (a recorded trace replayed); one at
`IDLE` goes on with i if it has i unfinished, or runs it by hand; the dispatcher takes the step its micro-state issues.
Otherwise no step is enabled and nothing changes. -/
def runMicroOp (i : Instr) (byHand : Nat → Ctx → State → Out) (s : State) : Out :=
  match s.cur with
  | .requester r =>
    match s.ctx? r with
    | some c =>
      if c.ready then byHand r c s
      else if c.stopped then .next s
      else if issues c.uop i || issues (microOpAt s.cfg c) i then ownStep r s
      else .next s
    | none => .next s
  | .dispatcher => if issues (dispMicroOp s.dispPc) i then dispStep s else .next s
  | .device => .next s

/-- The first step of a hand-built partial write i: the bank's word goes to `tmp`, and the second step is due (R123). -/
def beginPartial (i : Instr) (f : FieldId) (r : Nat) (c : Ctx) (s : State) : Out :=
  latchBank f s fun w t => .next (t.setCtx r { c with tmp := w, uop := some i })

/-- READ f (R122). -/
def execRead (f : FieldId) (s : State) : Out :=
  runMicroOp (.read f) (fun r c t =>
    readField f t fun v u => .next (u.setCtx r { c with dest := v })) s

/-- WRITE f, v (R123): one write for a full-width field, else step W_R. -/
def execWrite (f : FieldId) (v : Word) (s : State) : Out :=
  runMicroOp (.write f v) (fun r c t =>
    if fullWidth (t.cfg.field f) then writeFull f v t .next else beginPartial (.write f v) f r c t) s

/-- GET_BIT f (R125); refused on a field of width other than 1 (R128). -/
def execGetBit (f : FieldId) (s : State) : Out :=
  if (s.cfg.field f).width = 1 then
    runMicroOp (.getBit f) (fun r c t =>
      getBitField f t fun b u => .next (u.setCtx r { c with dest := boolWord b })) s
  else .refused (.wideBitField f)

/-- SET_BIT f (R126), which is WRITE f, 1 (R105): step W_R; refused on a field of width other than 1 (R128). -/
def execSetBit (f : FieldId) (s : State) : Out :=
  if (s.cfg.field f).width = 1 then runMicroOp (.setBit f) (beginPartial (.write f 1) f) s
  else .refused (.wideBitField f)

/-- CLEAR_BIT f (R127), which is WRITE f, 0 (R105): step W_R; refused on a field of width other than 1 (R128). -/
def execClearBit (f : FieldId) (s : State) : Out :=
  if (s.cfg.field f).width = 1 then runMicroOp (.clearBit f) (beginPartial (.write f 0) f) s
  else .refused (.wideBitField f)

/-- ACQUIRE d (R142): granted, or the requester is blocked at it. -/
def execAcquire (d : Dir) (s : State) : Out :=
  runMicroOp (.acquire d) (fun r c t =>
    acquire r d t .next (.next (t.setCtx r { c with uop := some (.acquire d) }))) s

/-- RELEASE d (R144). -/
def execRelease (d : Dir) (s : State) : Out :=
  runMicroOp (.release d) (fun r _ t => release r d t .next) s

/-- NOTIFY d (R151), "always enabled": the dispatcher's step where that is what it issues, else the count alone, for any
agent that has not stopped, the device among them; a device that overflows a count is stopped. [log 16, 24] -/
def execNotify (d : Dir) (s : State) : Out :=
  match s.cur with
  | .dispatcher =>
    if s.dispStopped then .next s
    else if dispMicroOp s.dispPc = some (.notify d) then dispStep s
    else notify .dispatcher d s .next
  | .requester r =>
    match s.ctx? r with
    | some c => if c.stopped then .next s else notify (.requester r) d s .next
    | none => .next s
  | .device => if s.devStopped then .next s else notify .device d s .next

/-- WAIT d (R153): SIGNALLED at once when the count is above 0, else the requester is blocked at it. -/
def execWait (d : Dir) (s : State) : Out :=
  runMicroOp (.wait d) (fun r c t =>
    awaitSignal d t (fun u => .next (u.setCtx r { c with waited := some .signalled }))
      (.next (t.setCtx r { c with uop := some (.wait d) }))) s

/-- CONSUME d (R156). -/
def execConsume (d : Dir) (s : State) : Out :=
  runMicroOp (.consume d) (fun r _ t => consume r d t .next) s

end Sys2Proof.Machine
end

