-- ==== Sys2Proof/Machine/Dispatch.lean ====
section
/-! DEFINITION. One arm per instruction, each one direct call of its meaning. -/

namespace Sys2Proof.Machine

def exec (i : Instr) (s : State) : Host.Outcome State Fault Refusal :=
  match i with
  | .reset arg => Sys2Proof.Machine.execReset arg s
  | .setIrqMask arg => Sys2Proof.Machine.execSetIrqMask arg s
  | .getIrqStatus arg => Sys2Proof.Machine.execGetIrqStatus arg s
  | .getBufPhys arg => Sys2Proof.Machine.execGetBufPhys arg s
  | .dmaWrite arg => Sys2Proof.Machine.execDmaWrite arg s
  | .dmaRead arg => Sys2Proof.Machine.execDmaRead arg s
  | .map arg => Sys2Proof.Machine.execMap arg s
  | .read f => Sys2Proof.Machine.execRead f s
  | .write f v => Sys2Proof.Machine.execWrite f v s
  | .getBit f => Sys2Proof.Machine.execGetBit f s
  | .setBit f => Sys2Proof.Machine.execSetBit f s
  | .clearBit f => Sys2Proof.Machine.execClearBit f s
  | .acquire d => Sys2Proof.Machine.execAcquire d s
  | .release d => Sys2Proof.Machine.execRelease d s
  | .notify d => Sys2Proof.Machine.execNotify d s
  | .wait d => Sys2Proof.Machine.execWait d s
  | .consume d => Sys2Proof.Machine.execConsume d s
  | .dispatch => Sys2Proof.Machine.execDispatch s
  | .irq => Sys2Proof.Machine.execIrq s

end Sys2Proof.Machine
end

