-- ==== Sys2Proof/Machine/Schedule.lean ====
section
/-! DEFINITION. One move of one agent (R9, R15): HOST's command is decoded and run, a presented micro-operation word is
decoded and run, or an agent takes a step. -/

namespace Sys2Proof.Machine

open Sys2Proof

/-- HOST presents the two words to requester r (R91, R94, R96). -/
def hostCommand (r : Nat) (sel arg : Word) (s : State) : Out :=
  match decode s.cfg .hcmd [sel, arg] with
  | .ok i _ => exec i (s.present (.requester r))
  | .error _ => issueInvalid arg (s.present (.requester r))

/-- A recorded micro-operation is presented for an agent (R99); one that spells none is refused (R101). -/
def presentMicroOp (a : Agent) (word val : Word) (s : State) : Out :=
  match decode s.cfg .uop [word, val] with
  | .ok i _ => exec i (s.present a)
  | .error _ => .refused .badMicroOp

/-- One move (R9, R104). -/
def runEvent (e : Event) (s : State) : Out :=
  match e with
  | .host r sel arg => hostCommand r sel arg s
  | .own r => ownStep r s
  | .disp => dispStep s
  | .complete d => stepComplete d s
  | .spurious => stepSpurious s
  | .device choice => stepDevice choice s
  | .cancel r => stepCancel r s
  | .timeout r => stepTimeout r s

/-- One item of the schedule. -/
def runInput (i : Input) (s : State) : Out :=
  match i with
  | .event e => runEvent e s
  | .uop a word val => presentMicroOp a word val s

/-- The next item: the first of the placed ones, or the next free move. [log 1] -/
def State.nextInput (s : State) : Input :=
  match s.sched with
  | i :: _ => i
  | [] => .event (Config.freeEvent s.tick)

/-- The state once its next item has been taken from the schedule. -/
def State.taken (s : State) : State :=
  match s.sched with
  | _ :: is => { s with sched := is }
  | [] => { s with tick := s.tick + 1 }

/-- One move of the machine; a configuration that breaks R12 or R35 is refused before any. -/
def runNext (s : State) : Out :=
  if s.cfg.valid then runInput s.nextInput s.taken else .refused .badConfiguration

/-- Two words placed as the next move: at HOST where they spell a host command, else as a micro-operation for the agent
`cur`. [log 14, 15] -/
def placeWords (s : State) (w0 w1 : Word) : State :=
  match decode s.cfg .hcmd [w0, w1], s.cur with
  | .ok _ _, .requester r => { s with sched := .event (.host r w0 w1) :: s.sched }
  | .ok _ _, .dispatcher | .ok _ _, .device => { s with sched := .event (.host 0 w0 w1) :: s.sched }
  | .error _, a => { s with sched := .uop a w0 w1 :: s.sched }

end Sys2Proof.Machine
end

