-- ==== Sys2Proof/Machine/Step.lean ====
section
/-! DEFINITION. The step of the machine: one move of one agent. -/

namespace Sys2Proof.Machine

open Sys2Proof

/-- One atomic step (R15). -/
def step (s : State) : Host.Outcome State Fault Refusal := runNext s

/-- The state with an instruction given as a number placed as the very next move. The block fetches no instructions (R84):
a command is presented at HOST, a micro-operation to its agent. [log 15] -/
def State.withFetchWord (s : State) (nbits w : Nat) : State :=
  placeWords s (tableWords nbits w).1 (tableWords nbits w).2

end Sys2Proof.Machine
end

