-- ==== Sys2Proof/Safety.lean ====
section
/-! DEFINITION. The terms claims are made in: a machine about to take a named move, the discipline of locks and
micro-states that the block's own sequences keep, a clean entry (R305), a good final state (R276), the enable bit (R209),
the measure of a transfer (R216), and the fairness of infinite runs (R154, R159, R179). -/

namespace Sys2Proof.Machine

open Sys2Proof

/-! ### The next move -/

/-- The state with move e placed first: the machine in which e is the very next move. -/
def State.willMove (s : State) (e : Event) : State := { s with sched := .event e :: s.sched }

/-- The state with a micro-operation word placed first for agent a. -/
def State.willPresent (s : State) (a : Agent) (word val : Word) : State := { s with sched := .uop a word val :: s.sched }

/-- The state with a list of moves placed first. -/
def State.willMoves (s : State) (es : List Event) : State := { s with sched := es.map .event ++ s.sched }

/-- Requester r exists, has context c, and has not been stopped by a model fault. -/
def State.live (s : State) (r : Nat) (c : Ctx) : Prop := s.ctx? r = some c ∧ c.stopped = false

/-- What is presented now is presented for requester r, whose context c takes it: it is at `IDLE` with nothing unfinished. -/
def State.takes (s : State) (r : Nat) (c : Ctx) : Prop :=
  s.cur = .requester r ∧ s.ctx? r = some c ∧ c.ready = true

/-- The next item of the schedule is a move of the spec's agents, not a presented micro-operation word. -/
def State.nextIsMove (s : State) : Prop := ∃ e, s.nextInput = .event e

/-! ### Locks and micro-states -/

/-- The context's micro-state lies between its ACQUIRE and its RELEASE of lock d (R193, R203, R205, R241-R247, R251-R253). -/
def Ctx.holds (c : Ctx) (d : Dir) : Bool :=
  match c.pc with
  | .idle | .tAcq | .gAcq1 | .mAcq1 | .sRd => false
  | .tWaddr | .tWdata | .tEnR | .tEnW | .tMode | .tWait | .tConsume | .tPoll | .tDrain | .tDisR | .tDisW | .tRel
  | .tAbtR | .tAbtW | .tAbtRel => decide (c.dir = d)
  | .gAcq2 | .gCrel1 | .gRel1 | .mAcq2 | .mCrel1 | .mRel1 => decide (d = .mm2s)
  | .gRsR | .gRsW | .gRcR | .gRcW | .gBaR _ | .gBaW _ | .gRel2 | .mWr | .mRel2 => true

/-- The micro-state waits for a lock (R40, R143). -/
def MicroState.acquiring : MicroState → Bool
  | .tAcq | .gAcq1 | .gAcq2 | .mAcq1 | .mAcq2 => true
  | _ => false

/-- The micro-state belongs to the operation, in its direction (the "operation" column of R24, R96). -/
def Ctx.opFits (c : Ctx) : Bool :=
  match c.pc with
  | .idle => decide (c.op = .none)
  | .tAcq | .tWaddr | .tWdata | .tEnR | .tEnW | .tMode | .tWait | .tConsume | .tPoll | .tDrain | .tDisR | .tDisW | .tRel
  | .tAbtR | .tAbtW | .tAbtRel =>
    decide ((c.op = .dmaWrite ∧ c.dir = .mm2s) ∨ (c.op = .dmaRead ∧ c.dir = .s2mm))
  | .gAcq1 | .gAcq2 | .gCrel1 | .gRsR | .gRsW | .gRcR | .gRcW | .gBaR _ | .gBaW _ | .gRel2 | .gRel1 =>
    decide (c.op = .reset)
  | .mAcq1 | .mAcq2 | .mCrel1 | .mWr | .mRel2 | .mRel1 => decide (c.op = .setIrqMask)
  | .sRd => decide (c.op = .getIrqStatus)

/-- What holds of one context of a disciplined state. -/
def Ctx.disciplined (pollLimit : Nat) (c : Ctx) : Prop :=
  c.uop = none ∧ c.stopped = false ∧ c.opFits = true ∧ (c.pc = .tPoll → c.iter < pollLimit) ∧
    ((c.pc = .tAbtR ∨ c.pc = .tAbtW ∨ c.pc = .tAbtRel) → c.err = some .timeout ∨ c.err = some .interrupted)

/-- The state of a block that runs its own sequences: a valid configuration, no hand-built micro-operation placed or
unfinished, each lock held by exactly the requester whose micro-state lies between its ACQUIRE and RELEASE, a count above 0
at `T_CONSUME`, and counts within `COUNT_MAX`. -/
structure State.Disciplined (s : State) : Prop where
  cfgValid : s.cfg.valid = true
  onlyMoves : ∀ i ∈ s.sched, ∃ e, i = .event e
  contexts : ∀ r c, s.ctx? r = some c → c.disciplined s.cfg.pollLimit
  lockHolder : ∀ r d, s.lock.get d = some r ↔ ∃ c, s.ctx? r = some c ∧ c.holds d = true
  consumeReady : ∀ r c, s.ctx? r = some c → c.pc = .tConsume → 0 < s.count.get c.dir
  countBound : ∀ d, s.count.get d ≤ s.cfg.countMax

/-! ### Registers -/

/-- The memory lists only bytes of the banks 0 .. NUM_BANKS-1 (R39, R60). -/
def State.inRange (s : State) : Prop := ∀ c ∈ s.dregs, c.1 < 4 * s.cfg.numBanks

/-- The reference device is the device (R70). -/
def refDev (cfg : Config) : Bool := decide (cfg.dev = .reference)

/-- A bank of the reference device that holds no device-owned field: plain storage (R72). -/
def storageBank (cfg : Config) (b : Nat) : Bool :=
  refDev cfg && (fifoAt cfg b).isNone && !holdsField cfg b .irqStatus && !holdsField cfg b (.stsFifoEmpty .mm2s) &&
    !holdsField cfg b (.stsFifoEmpty .s2mm)

/-- A write to bank b meets no reset effect: it is none, or another bank holds `GLOBAL_RESET` (R66, R76). -/
def resetSpares (cfg : Config) (b : Nat) : Bool :=
  decide (cfg.devResetEffect = .none) || !holdsField cfg b .globalReset

/-- A storage bank to which a write does nothing but store, and start a transfer (R72, R77). -/
def plainBank (cfg : Config) (b : Nat) : Bool := storageBank cfg b && resetSpares cfg b

/-- Address a is no byte of bank b; nor, where b holds `GLOBAL_RESET`, of a bank that the reset effect names (R66). -/
def outsideWrite (cfg : Config) (b a : Nat) : Prop :=
  (a < 4 * b ∨ 4 * b + 4 ≤ a) ∧ ((cfg.field .globalReset).bank = b →
    ∀ e ∈ cfg.devResetEffect.banks, a < 4 * e.bank ∨ 4 * e.bank + 4 ≤ a)

/-- A bank of the reference device that a read answers without a draw and without a side effect (R65). -/
def quietBank (cfg : Config) (b : Nat) : Bool := refDev cfg && (fifoAt cfg b).isNone && !holdsField cfg b .irqStatus

/-- Between setting and clearing the enable bit of d (R196, R202, R204, R209). -/
def Ctx.enables (c : Ctx) (d : Dir) : Bool :=
  match c.pc with
  | .tMode | .tWait | .tConsume | .tPoll | .tDrain | .tDisR | .tDisW | .tAbtR | .tAbtW => decide (c.dir = d)
  | _ => false

/-- The enable bit of d reads 1 only while some requester is between setting and clearing it (R209). -/
def State.enableOwned (s : State) : Prop :=
  ∀ d, s.xferEnabled d = true → ∃ r c, s.ctx? r = some c ∧ c.enables d = true

/-- CLEAN_ENTRY (R305): the named launch premise of a quiet start. -/
def State.clean (s : State) : Prop :=
  s.lock = ⟨none, none⟩ ∧ s.count = ⟨0, 0⟩ ∧ s.irqPending = 0 ∧ s.dispPc = .dIdle ∧ s.fault = none ∧
    (∀ r c, s.ctx? r = some c → c.pc = .idle) ∧ s.fifo = ⟨[], []⟩ ∧ s.busy = ⟨false, false⟩ ∧
    s.xferEnabled .mm2s = false ∧ s.xferEnabled .s2mm = false

/-- A good final state: no model fault was raised (R276). -/
def State.good (s : State) : Bool := s.fault.isNone

/-- The writes among REG-port accesses, in the order of the list. -/
def writesOf (l : List Access) : List Access :=
  l.filter fun a => match a with
    | .write _ _ => true
    | .read _ _ => false

/-! ### The measure of a transfer (R216) -/

/-- How many of its own steps a transfer at most takes before it returns, once it holds its lock: the micro-states on the
longest way out, and the poll reads left. -/
def Ctx.measure (pollLimit : Nat) (c : Ctx) : Nat :=
  match c.pc with
  | .tWaddr => pollLimit + 12
  | .tWdata => pollLimit + 11
  | .tEnR => pollLimit + 10
  | .tEnW => pollLimit + 9
  | .tMode => pollLimit + 8
  | .tWait => 7
  | .tConsume => 6
  | .tPoll => 5 + (pollLimit - c.iter)
  | .tDrain => 4
  | .tDisR | .tAbtR => 3
  | .tDisW | .tAbtW => 2
  | .tRel | .tAbtRel => 1
  | _ => 0

/-- The micro-states of a transfer that holds its lock. -/
def MicroState.transferring : MicroState → Bool
  | .tWaddr | .tWdata | .tEnR | .tEnW | .tMode | .tWait | .tConsume | .tPoll | .tDrain | .tDisR | .tDisW | .tRel
  | .tAbtR | .tAbtW | .tAbtRel => true
  | _ => false

/-- How many steps an invocation of the dispatcher at most has left (R179). -/
def DispPc.measure : DispPc → Nat
  | .dIdle => 0
  | .dRdM => 5
  | .dRdS => 4
  | .dChkS => 3
  | .dChkM => 2
  | .dNotifyS | .dNotifyM | .dLog => 1

/-! ### Infinite runs and their fairness -/

/-- An infinite run in which the agents take the moves of a sequence one after the other. -/
def IsRun (run : Nat → State) (moves : Nat → Event) : Prop :=
  ∀ n, step ((run n).willMove (moves n)) = .next (run (n + 1))

/-- A move is enabled: taking it now changes the machine. -/
def enabled (e : Event) (s : State) : Prop := ∃ t, step (s.willMove e) = .next t ∧ t ≠ s

/-- Weak fairness to a move: enabled at every step from some point on, it is eventually taken. -/
def fairTo (e : Event) (run : Nat → State) (moves : Nat → Event) : Prop :=
  ∀ n, (∀ m, n ≤ m → enabled e (run m)) → ∃ m, n ≤ m ∧ moves m = e

/-- The fairness the spec assumes: to every requester (R159, D39), to the dispatcher (R179), and to TIMEOUT (R154). None is
assumed of the device, of cancellation or of lock grants among waiters (R78, R146, R155). [log 20] -/
def Fair (run : Nat → State) (moves : Nat → Event) : Prop :=
  fairTo .disp run moves ∧ (∀ r, fairTo (.own r) run moves) ∧ ∀ r, fairTo (.timeout r) run moves

end Sys2Proof.Machine
end

