-- ==== Sys2Proof/Certificates/Slice0/Obligations.lean ====
section
/-! DEFINITION. The statements for the provers. Equations between whole states are frames too: what the right side
does not name is unchanged. Where an instruction or a step writes the register space, the bytes outside the bank
written are named (`outsideWrite`, which leaves out also what a reset effect writes where the bank holds
`GLOBAL_RESET` [log 26]). The model's own choices stand in `[log n]`. Throughout, `step (s.willMove e) = .next s` says
that move e is not enabled: that such a move leaves the machine as it is is the model's choice [log 1]. -/

open Sys2Proof Sys2Proof.Machine

/-! ### Attach -/

/-- R300, R21, R22, R29-R32: what attach leaves, for every configuration: as many requester contexts as it gives
buffers, each with its own. (Registers the spec leaves unspecified are not named.) -/
def Obligations.AttachLeavesListedValues : Prop :=
  ∀ (cfg : Config) (s : State), s = State.attach cfg →
    s.lock = ⟨none, none⟩ ∧ s.held .mm2s = false ∧ s.held .s2mm = false ∧ s.count = ⟨0, 0⟩ ∧ s.irqPending = 0 ∧
      s.dispPc = .dIdle ∧ s.errlog = [] ∧ s.fault = none ∧
      s.ctxs.length = cfg.numReq ∧ ∀ r, s.ctx? r = none ∧ cfg.numReq ≤ r ∨
        ∃ c, s.ctx? r = some c ∧ cfg.bufs[r]? = some c.buf ∧ c.op = .none ∧ c.pc = .idle ∧ c.res = none ∧ c.out = none

/-! ### Encodings -/

/-- R91, R92, R99-R103: decoding the words of a well-formed instruction gives it back, whatever words follow. -/
def Obligations.DecodeUndoesEncode : Prop :=
  ∀ (cfg : Config) (i : Instr) (rest : List Word), cfg.valid = true → i.wellFormed cfg = true →
    decode cfg i.format (encode cfg i ++ rest) = .ok i rest

/-- R94, R101, R103: whatever the decoder accepts is exactly the words of a well-formed instruction of that format, so
every word has one meaning and no reserved word falls through to a neighbour. -/
def Obligations.EncodeUndoesDecode : Prop :=
  ∀ (cfg : Config) (fmt : Format) (ws rest : List Word) (i : Instr), decode cfg fmt ws = .ok i rest →
    i.format = fmt ∧ i.wellFormed cfg = true ∧ ws = encode cfg i ++ rest

/-- R101: a presented UOP word with an unknown code, a field id of 19 or more, `z` set, `fid` set on a lock, signal or
dispatcher code, `d` set on an accessor or dispatcher code, or a bit operation on a field of another width than 1, is
refused. -/
def Obligations.ReservedMicroOpsRefused : Prop :=
  ∀ (s : State) (a : Agent) (w v : Word), s.cfg.valid = true →
    ((w.extractLsb' 0 8).toNat ∉
        [0x01, 0x02, 0x03, 0x04, 0x05, 0x10, 0x11, 0x20, 0x21, 0x22, 0x30, 0x31] ∨
      19 ≤ (w.extractLsb' 8 8).toNat ∨
      (w.extractLsb' 17 15).toNat ≠ 0 ∨
      ((w.extractLsb' 0 8).toNat ∈ [0x10, 0x11, 0x20, 0x21, 0x22, 0x30, 0x31] ∧ (w.extractLsb' 8 8).toNat ≠ 0) ∨
      ((w.extractLsb' 0 8).toNat ∈ [0x01, 0x02, 0x03, 0x04, 0x05, 0x30, 0x31] ∧ w.getLsbD 16 = true) ∨
      ((w.extractLsb' 0 8).toNat ∈ [0x03, 0x04, 0x05] ∧
        ∃ f : FieldId, f.fid = (w.extractLsb' 8 8).toNat ∧ (s.cfg.field f).width ≠ 1)) →
    step (s.willPresent a w v) = .refused .badMicroOp

/-- R102, D32 (the format is the spec's own): a descriptor word is read field by field, and a descriptor that fits is read
back from its word. -/
def Obligations.FieldDescriptorWords : Prop :=
  (∀ (n : Nat) (w : Word) (d : FDesc), FDesc.decode n w = some d ↔
    d.offset = (w.extractLsb' 0 5).toNat ∧ d.width = (w.extractLsb' 5 6).toNat ∧ (w.extractLsb' 11 5).toNat = 0 ∧
      d.bank = (w.extractLsb' 16 16).toNat ∧ 1 ≤ d.width ∧ d.width ≤ 32 ∧ d.offset + d.width ≤ 32 ∧ d.bank < n ∧
      (d.width = 32 → d.offset = 0)) ∧
  (∀ (n : Nat) (d : FDesc), d.fits n = true → d.bank < 65536 → FDesc.decode n d.encode = some d) ∧
  FDesc.encode ⟨3, 0, 1⟩ = 0x00030020 ∧ FDesc.encode ⟨14, 1, 1⟩ = 0x000E0021

/-- The spec's encoding tables (95_test_vectors 2.7): a few words of each family. -/
def Obligations.SpecWordsDecode : Prop :=
  decode .reference .hcmd [0x00000004, 0x00800000] = .ok (.dmaWrite 0x00800000) [] ∧
  decode .reference .hcmd [0x00000001, 0x00000003] = .ok (.setIrqMask 3) [] ∧
  decode .reference .uop [0x00000201] = .ok (.read (.stsFifo .mm2s)) [] ∧
  decode .reference .uop [0x00001102, 0x0000000F] = .ok (.write (.busAttr .k2) 0xF) [] ∧
  decode .reference .uop [0x00000903] = .ok (.getBit (.stsFifoEmpty .s2mm)) [] ∧
  decode .reference .uop [0x00010011] = .ok (.release .s2mm) [] ∧
  decode .reference .uop [0x00000020] = .ok (.notify .mm2s) [] ∧
  decode .reference .uop [0x00000030] = .ok .dispatch [] ∧
  decode .reference .uop [0x00000F03] = .error .wideField

/-! ### The step and the decoder -/

/-- R96, R99: when the words at HOST, or the presented micro-operation words, decode to i, the step is `exec` of i for the
requester or agent they were presented to, and nothing else. -/
def Obligations.StepRunsDecodedInstruction : Prop :=
  ∀ (s : State), s.cfg.valid = true →
    (∀ (r : Nat) (sel arg : Word) (i : Instr) (rest : List Word), decode s.cfg .hcmd [sel, arg] = .ok i rest →
      step (s.willMove (.host r sel arg)) = exec i { s with cur := .requester r }) ∧
    (∀ (a : Agent) (w v : Word) (i : Instr) (rest : List Word), decode s.cfg .uop [w, v] = .ok i rest →
      step (s.willPresent a w v) = exec i { s with cur := a })

/-- A word placed by `withFetchWord` is the very next instruction the step runs, for the requester in `cur`. (The
placement is the model's own [log 14, 15].) -/
def Obligations.PlacedWordRunsNext : Prop :=
  ∀ (s : State) (r nbits w : Nat) (i : Instr), s.cfg = .reference → s.cur = .requester r →
    decodeTableWord nbits w = some i → step (s.withFetchWord nbits w) = exec i s

/-- R35: a `FIELD_MAP` with a field of width 0 or above 32, one that spans a word, one outside the register space, one of
full width at another offset than 0, or two narrow fields that share a bit, is refused before any step. -/
def Obligations.BrokenLayoutRefused : Prop :=
  ∀ (s : State),
    ((∃ f : FieldId, (s.cfg.field f).width < 1 ∨ 32 < (s.cfg.field f).width ∨
        32 < (s.cfg.field f).offset + (s.cfg.field f).width ∨ s.cfg.numBanks ≤ (s.cfg.field f).bank ∨
        ((s.cfg.field f).width = 32 ∧ (s.cfg.field f).offset ≠ 0)) ∨
      (∃ f g : FieldId, f ≠ g ∧ (s.cfg.field f).width < 32 ∧ (s.cfg.field g).width < 32 ∧
        (s.cfg.field f).bank = (s.cfg.field g).bank ∧ ∃ bit : Nat,
          (s.cfg.field f).offset ≤ bit ∧ bit < (s.cfg.field f).offset + (s.cfg.field f).width ∧
          (s.cfg.field g).offset ≤ bit ∧ bit < (s.cfg.field g).offset + (s.cfg.field g).width)) →
    step s = .refused .badConfiguration

/-! ### Host commands: the issue step -/

/-- R96: the issue step of RESET, SET_IRQ_MASK, GET_IRQ_STATUS, DMA_WRITE and DMA_READ at a requester that takes it.
Nothing but the requester's context changes. -/
def Obligations.HostOperationsStart : Prop :=
  ∀ (s : State) (r : Nat) (c : Ctx) (arg : Word), s.takes r c →
    exec (.reset arg) s =
      .next (s.setCtx r { c with arg := arg, res := none, out := none, op := .reset, pc := .gAcq1 }) ∧
    exec (.setIrqMask arg) s =
      .next (s.setCtx r { c with arg := arg, res := none, out := none, op := .setIrqMask, pc := .mAcq1 }) ∧
    exec (.getIrqStatus arg) s =
      .next (s.setCtx r { c with arg := arg, res := none, out := none, op := .getIrqStatus, pc := .sRd }) ∧
    exec (.dmaWrite arg) s =
      .next (s.setCtx r { c with arg := arg, res := none, out := none, op := .dmaWrite, dir := .mm2s, pc := .tAcq }) ∧
    exec (.dmaRead arg) s =
      .next (s.setCtx r { c with arg := arg, res := none, out := none, op := .dmaRead, dir := .s2mm, pc := .tAcq })

/-- R257, R259, R98: GET_BUF_PHYS and MAP complete within the issue step: the buffer's address, or the region of the
offset, or INVALID_REQUEST; nothing but the requester's context changes. -/
def Obligations.BufferAndMapAnswerAtOnce : Prop :=
  ∀ (s : State) (r : Nat) (c : Ctx) (arg : Word), s.takes r c → s.cfg.valid = true →
    exec (.getBufPhys arg) s = .next (s.setCtx r { c with
      arg := arg, op := .none, pc := .idle, res := some .success, out := some c.buf }) ∧
    exec (.map s.cfg.regMapOffset) s = .next (s.setCtx r { c with
      arg := s.cfg.regMapOffset, op := .none, pc := .idle, res := some .success, out := some 0 }) ∧
    exec (.map s.cfg.bufMapOffset) s = .next (s.setCtx r { c with
      arg := s.cfg.bufMapOffset, op := .none, pc := .idle, res := some .success, out := some 1 }) ∧
    (arg ≠ s.cfg.regMapOffset → arg ≠ s.cfg.bufMapOffset →
      exec (.map arg) s = .next (s.setCtx r { c with
        arg := arg, op := .none, pc := .idle, res := some .invalidRequest, out := none }))

/-- R258, R95: a selector outside `OP_SEL` completes with INVALID_REQUEST in the issue step: no register access, no lock,
no count; only the requester's context changes (and which agent was addressed last). -/
def Obligations.InvalidSelectorAnswers : Prop :=
  ∀ (s : State) (r : Nat) (c : Ctx) (sel arg : Word), s.cfg.valid = true → s.ctx? r = some c → c.ready = true →
    sel ≠ s.cfg.opSel.reset → sel ≠ s.cfg.opSel.setIrqMask → sel ≠ s.cfg.opSel.getIrqStatus →
    sel ≠ s.cfg.opSel.getBufPhys → sel ≠ s.cfg.opSel.dmaWrite → sel ≠ s.cfg.opSel.dmaRead → sel ≠ s.cfg.opSel.map →
    step (s.willMove (.host r sel arg)) = .next { s with
      cur := .requester r
      ctxs := s.ctxs.set r { c with
        arg := arg, op := .none, pc := .idle, res := some .invalidRequest, out := none } }

/-- R96: "a context with an operation in progress takes no new command": whatever the words, the machine stays as it is
but for the agent addressed last. (That the command is turned away and does not stop the machine is the model's [log 25].)
-/
def Obligations.BusyRequesterTakesNoCommand : Prop :=
  ∀ (s : State) (r : Nat) (c : Ctx) (sel arg : Word), s.cfg.valid = true → s.ctx? r = some c → c.pc ≠ .idle →
    step (s.willMove (.host r sel arg)) = .next { s with cur := .requester r }

/-! ### The transfer controller -/

/-- R193: at `T_ACQ` the free lock is taken; a held lock blocks the requester; CANCEL returns INTERRUPTED with no register
access and no lock change, whether or not the lock is free. -/
def Obligations.TransferTakesItsLock : Prop :=
  ∀ (s : State) (r : Nat) (c : Ctx), s.cfg.valid = true → s.live r c → c.pc = .tAcq →
    (s.lock.get c.dir = none → step (s.willMove (.own r)) = .next
      ({ s with lock := s.lock.set c.dir (some r) }.setCtx r { c with pc := .tWaddr })) ∧
    (s.lock.get c.dir ≠ none → step (s.willMove (.own r)) = .next s) ∧
    step (s.willMove (.cancel r)) = .next
      (s.setCtx r { c with op := .none, pc := .idle, res := some .interrupted })

/-- R194, R195, R37: the buffer address, then the command word verbatim, each one write of one bank, which, where the
bank is storage, then holds the word written; every other byte of the register space stays, where the write meets no
reset effect of the device. -/
def Obligations.TransferWritesAddressAndCommand : Prop :=
  ∀ (s : State) (r : Nat) (c : Ctx) (p q : MicroState) (f : FieldId) (v : Word), s.cfg.valid = true → s.live r c →
    c.pc = p →
    (p = .tWaddr ∧ f = .cmdAddr c.dir ∧ v = c.buf ∧ q = .tWdata) ∨
      (p = .tWdata ∧ f = .cmdData c.dir ∧ v = c.arg ∧ q = .tEnR) →
    ∃ t, step (s.willMove (.own r)) = .next t ∧
      t = (s.afterWrite (s.cfg.field f).bank v).setCtx r { c with pc := q } ∧
      t.portLog = .write (s.cfg.field f).bank v :: s.portLog ∧
      (plainBank s.cfg (s.cfg.field f).bank = true → t.stored (s.cfg.field f).bank = v) ∧
      (resetSpares s.cfg (s.cfg.field f).bank = true →
        ∀ a, a < 4 * (s.cfg.field f).bank ∨ 4 * (s.cfg.field f).bank + 4 ≤ a → t.dregs.get a = s.dregs.get a)

/-- R196, and the reference device's R77: `T_EN_R` latches the bank of the enable bit, `T_EN_W` writes it back with
the bit set; where the bank is storage and stored 0 in that bit, the device's transfer starts; every other byte of the
register space stays, where the write meets no reset effect. -/
def Obligations.TransferSetsTheEnableBit : Prop :=
  ∀ (s : State) (r : Nat) (c : Ctx) (b o : Nat), s.cfg.valid = true → s.live r c →
    b = (s.cfg.field (.xferEn c.dir)).bank → o = (s.cfg.field (.xferEn c.dir)).offset →
    (c.pc = .tEnR → step (s.willMove (.own r)) = .next
      ((s.afterRead b).setCtx r { c with tmp := s.readValue b, pc := .tEnW })) ∧
    (c.pc = .tEnW → ∃ t, step (s.willMove (.own r)) = .next t ∧
      t = (s.afterWrite b (c.tmp ||| (1#32 <<< o))).setCtx r { c with pc := .tMode } ∧
      (resetSpares s.cfg b = true → ∀ a, a < 4 * b ∨ 4 * b + 4 ≤ a → t.dregs.get a = s.dregs.get a) ∧
      (plainBank s.cfg b = true → t.stored b = c.tmp ||| (1#32 <<< o) ∧ t.xferEnabled c.dir = true ∧
        (s.xferEnabled c.dir = false → t.busy.get c.dir = true)))

/-- R197, R27: the interrupt-enable bit of the direction selects the wait, or polling from iteration 0. -/
def Obligations.TransferReadsTheMode : Prop :=
  ∀ (s : State) (r : Nat) (c : Ctx) (b o : Nat), s.cfg.valid = true → s.live r c → c.pc = .tMode →
    b = (s.cfg.field (.irqEn c.dir)).bank → o = (s.cfg.field (.irqEn c.dir)).offset →
    ((s.readValue b).getLsbD o = true → step (s.willMove (.own r)) = .next
      ((s.afterRead b).setCtx r { c with pc := .tWait })) ∧
    ((s.readValue b).getLsbD o = false → step (s.willMove (.own r)) = .next
      ((s.afterRead b).setCtx r { c with iter := 0, pc := .tPoll })) ∧
    (storageBank s.cfg b = true → (s.readValue b).getLsbD o = s.irqMode c.dir)

/-- R198, R153-R155: at `T_WAIT`, SIGNALLED while the count is above 0, TIMEDOUT only while it is 0, INTERRUPTED at any
time; none of them changes the count. -/
def Obligations.TransferWaitHasThreeOutcomes : Prop :=
  ∀ (s : State) (r : Nat) (c : Ctx), s.cfg.valid = true → s.live r c → c.pc = .tWait →
    step (s.willMove (.own r)) =
      (if 0 < s.count.get c.dir then .next (s.setCtx r { c with pc := .tConsume }) else .next s) ∧
    step (s.willMove (.timeout r)) =
      (if s.count.get c.dir = 0 then .next (s.setCtx r { c with err := some .timeout, pc := .tAbtR }) else .next s) ∧
    step (s.willMove (.cancel r)) = .next (s.setCtx r { c with err := some .interrupted, pc := .tAbtR })

/-- R199, R156: `T_CONSUME` takes exactly one event, or raises CONSUME_AT_ZERO and stops the requester (a next state: the
other agents go on [log 16]). -/
def Obligations.TransferConsumesOneEvent : Prop :=
  ∀ (s : State) (r : Nat) (c : Ctx), s.cfg.valid = true → s.live r c → c.pc = .tConsume →
    (∀ n, s.count.get c.dir = n + 1 → step (s.willMove (.own r)) = .next
      ({ s with count := s.count.set c.dir n }.setCtx r { c with pc := .tDrain })) ∧
    (s.count.get c.dir = 0 → step (s.willMove (.own r)) = .next
      { s with ctxs := s.ctxs.set r { c with stopped := true }, fault := some .consumeAtZero })

/-- R200: one poll reads the empty bit once: 0 goes on to the drain, 1 at the ceiling gives TIMEOUT, 1 below it polls
again; CANCEL and TIMEOUT are not enabled. -/
def Obligations.TransferPollsOnce : Prop :=
  ∀ (s : State) (r : Nat) (c : Ctx) (b o : Nat), s.cfg.valid = true → s.live r c → c.pc = .tPoll →
    b = (s.cfg.field (.stsFifoEmpty c.dir)).bank → o = (s.cfg.field (.stsFifoEmpty c.dir)).offset →
    step (s.willMove (.own r)) = .next ((s.afterRead b).setCtx r
      (if (s.readValue b).getLsbD o = false then { c with iter := c.iter + 1, pc := .tDrain }
       else if c.iter + 1 = s.cfg.pollLimit then
         { c with iter := c.iter + 1, err := some .timeout, pc := .tAbtR }
       else { c with iter := c.iter + 1 })) ∧
    step (s.willMove (.cancel r)) = .next s ∧ step (s.willMove (.timeout r)) = .next s

/-- R201, R65, R74: the drain is exactly one read of the status FIFO word, whose value goes nowhere; in the reference
device it removes one entry of a non-empty FIFO (bank not shared with the other direction's status FIFO). -/
def Obligations.TransferDrainsOnce : Prop :=
  ∀ (s : State) (r : Nat) (c : Ctx) (b : Nat), s.cfg.valid = true → s.live r c → c.pc = .tDrain →
    b = (s.cfg.field (.stsFifo c.dir)).bank →
    ∃ t, step (s.willMove (.own r)) = .next t ∧ t = (s.afterRead b).setCtx r { c with pc := .tDisR } ∧
      t.portLog = .read b (s.readValue b) :: s.portLog ∧
      (s.cfg.dev = .reference → (s.cfg.field (.stsFifo c.dir.other)).bank ≠ b →
        t.fifo = s.fifo.set c.dir (s.fifo.get c.dir).tail) ∧
      ∀ a, t.dregs.get a = s.dregs.get a

/-- R202, R204, R127, R77: `T_DIS_R`/`T_ABT_R` latch the bank of the enable bit, `T_DIS_W`/`T_ABT_W` write it back
with the bit clear; that clears no `busy` bit (and starts no transfer, in a bank that does not hold the other
direction's enable bit); every other byte of the register space stays, where the write meets no reset effect. -/
def Obligations.TransferClearsTheEnableBit : Prop :=
  ∀ (s : State) (r : Nat) (c : Ctx) (b o : Nat) (pr pw after : MicroState), s.cfg.valid = true → s.live r c →
    b = (s.cfg.field (.xferEn c.dir)).bank → o = (s.cfg.field (.xferEn c.dir)).offset →
    (pr = .tDisR ∧ pw = .tDisW ∧ after = .tRel) ∨ (pr = .tAbtR ∧ pw = .tAbtW ∧ after = .tAbtRel) →
    (c.pc = pr → step (s.willMove (.own r)) = .next
      ((s.afterRead b).setCtx r { c with tmp := s.readValue b, pc := pw })) ∧
    (c.pc = pw → ∃ t, step (s.willMove (.own r)) = .next t ∧
      t = (s.afterWrite b (c.tmp &&& ~~~(1#32 <<< o))).setCtx r { c with pc := after } ∧
      (resetSpares s.cfg b = true → ∀ a, a < 4 * b ∨ 4 * b + 4 ≤ a → t.dregs.get a = s.dregs.get a) ∧
      (plainBank s.cfg b = true → t.stored b = c.tmp &&& ~~~(1#32 <<< o) ∧ t.xferEnabled c.dir = false ∧
        t.busy.get c.dir = s.busy.get c.dir ∧
        ((s.cfg.field (.xferEn c.dir.other)).bank ≠ b → t.busy = s.busy)))

/-- R203, R205, R144: the holder releases its lock and returns SUCCESS, or the recorded error; a release by a requester
that does not hold the lock raises RELEASE_NOT_OWNER and stops the requester [log 16]. -/
def Obligations.TransferReleasesAndReturns : Prop :=
  ∀ (s : State) (r : Nat) (c : Ctx) (res : Option Result), s.cfg.valid = true → s.live r c →
    (c.pc = .tRel ∧ res = some .success) ∨ (c.pc = .tAbtRel ∧ res = c.err) →
    (s.lock.get c.dir = some r → step (s.willMove (.own r)) = .next
      ({ s with lock := s.lock.set c.dir none }.setCtx r { c with op := .none, pc := .idle, res := res })) ∧
    (s.lock.get c.dir ≠ some r → step (s.willMove (.own r)) = .next
      { s with ctxs := s.ctxs.set r { c with stopped := true }, fault := some .releaseNotOwner })

/-! ### The global control operations -/

/-- R241-R243, R251: RESET and SET_IRQ_MASK take MM2S first and S2MM second; CANCEL at the first returns INTERRUPTED
with no lock, at the second goes to release MM2S and returns INTERRUPTED; a release by a requester that does not hold
MM2S raises RELEASE_NOT_OWNER and stops the requester (R144) [log 16]. -/
def Obligations.GlobalTakesBothLocksInOrder : Prop :=
  ∀ (s : State) (r : Nat) (c : Ctx) (p1 p2 pc1 p3 : MicroState), s.cfg.valid = true → s.live r c →
    (p1 = .gAcq1 ∧ p2 = .gAcq2 ∧ pc1 = .gCrel1 ∧ p3 = .gRsR) ∨
      (p1 = .mAcq1 ∧ p2 = .mAcq2 ∧ pc1 = .mCrel1 ∧ p3 = .mWr) →
    (c.pc = p1 →
      step (s.willMove (.own r)) =
        (if s.lock.mm2s = none then
          .next ({ s with lock := ⟨some r, s.lock.s2mm⟩ }.setCtx r { c with pc := p2 }) else .next s) ∧
      step (s.willMove (.cancel r)) =
        .next (s.setCtx r { c with op := .none, pc := .idle, res := some .interrupted })) ∧
    (c.pc = p2 →
      step (s.willMove (.own r)) =
        (if s.lock.s2mm = none then
          .next ({ s with lock := ⟨s.lock.mm2s, some r⟩ }.setCtx r { c with pc := p3 }) else .next s) ∧
      step (s.willMove (.cancel r)) = .next (s.setCtx r { c with pc := pc1 })) ∧
    (c.pc = pc1 → step (s.willMove (.own r)) =
      (if s.lock.mm2s = some r then
        .next ({ s with lock := ⟨none, s.lock.s2mm⟩ }.setCtx r
          { c with op := .none, pc := .idle, res := some .interrupted })
      else .next { s with ctxs := s.ctxs.set r { c with stopped := true }, fault := some .releaseNotOwner }))

/-- R244, R245: the reset bit is set and then cleared, each a read and a write back of its bank, with no step of this
requester between. -/
def Obligations.ResetPulsesTheResetBit : Prop :=
  ∀ (s : State) (r : Nat) (c : Ctx) (b o : Nat), s.cfg.valid = true → s.live r c →
    b = (s.cfg.field .globalReset).bank → o = (s.cfg.field .globalReset).offset →
    (c.pc = .gRsR → step (s.willMove (.own r)) = .next
      ((s.afterRead b).setCtx r { c with tmp := s.readValue b, pc := .gRsW })) ∧
    (c.pc = .gRsW → step (s.willMove (.own r)) = .next
      ((s.afterWrite b (c.tmp ||| (1#32 <<< o))).setCtx r { c with pc := .gRcR })) ∧
    (c.pc = .gRcR → step (s.willMove (.own r)) = .next
      ((s.afterRead b).setCtx r { c with tmp := s.readValue b, pc := .gRcW })) ∧
    (c.pc = .gRcW → step (s.willMove (.own r)) = .next
      ((s.afterWrite b (c.tmp &&& ~~~(1#32 <<< o))).setCtx r { c with pc := .gBaR .k0 }))

/-- R246: bus-attribute field k takes its constant: a read and a merged write for a narrow field, no read and one whole
write for a full-width field; k = 0, 1, 2, 3 in order, then the releases. -/
def Obligations.ResetWritesBusAttributes : Prop :=
  ∀ (s : State) (r : Nat) (c : Ctx) (k : BusIx) (d : FDesc) (val : Word) (after : MicroState), s.cfg.valid = true →
    s.live r c → d = s.cfg.field (.busAttr k) → val = s.cfg.busAttrVal.get k →
    (k = .k0 ∧ after = .gBaR .k1) ∨ (k = .k1 ∧ after = .gBaR .k2) ∨ (k = .k2 ∧ after = .gBaR .k3) ∨
      (k = .k3 ∧ after = .gRel2) →
    (c.pc = .gBaR k → d.width ≠ 32 → step (s.willMove (.own r)) = .next
      ((s.afterRead d.bank).setCtx r { c with tmp := s.readValue d.bank, pc := .gBaW k })) ∧
    (c.pc = .gBaR k → d.width = 32 → step (s.willMove (.own r)) = .next (s.setCtx r { c with pc := .gBaW k })) ∧
    (c.pc = .gBaW k → ∃ w t, step (s.willMove (.own r)) = .next t ∧
      t = (s.afterWrite d.bank w).setCtx r { c with pc := after } ∧
      (∀ j, j < 32 → w.getLsbD j =
        if d.offset ≤ j ∧ j < d.offset + d.width then val.getLsbD (j - d.offset) else c.tmp.getLsbD j) ∧
      ∀ a, outsideWrite s.cfg d.bank a → t.dregs.get a = s.dregs.get a)

/-- R252, R247, R253: `M_WR` writes all 32 bits of the mask; RESET and SET_IRQ_MASK then release S2MM, then MM2S, and
return SUCCESS; a release by a requester that does not hold the lock raises RELEASE_NOT_OWNER and stops the requester
(R144) [log 16]. -/
def Obligations.MaskWrittenThenLocksReleased : Prop :=
  ∀ (s : State) (r : Nat) (c : Ctx) (b : Nat), s.cfg.valid = true → s.live r c → b = (s.cfg.field .irqEnable).bank →
    (c.pc = .mWr → ∃ t, step (s.willMove (.own r)) = .next t ∧
      t = (s.afterWrite b c.arg).setCtx r { c with pc := .mRel2 } ∧
      (plainBank s.cfg b = true → t.stored b = c.arg) ∧
      ∀ a, outsideWrite s.cfg b a → t.dregs.get a = s.dregs.get a) ∧
    (∀ p, (c.pc = .gRel2 ∧ p = .gRel1) ∨ (c.pc = .mRel2 ∧ p = .mRel1) → step (s.willMove (.own r)) =
      (if s.lock.s2mm = some r then .next ({ s with lock := ⟨s.lock.mm2s, none⟩ }.setCtx r { c with pc := p })
      else .next { s with ctxs := s.ctxs.set r { c with stopped := true }, fault := some .releaseNotOwner })) ∧
    (c.pc = .gRel1 ∨ c.pc = .mRel1 → step (s.willMove (.own r)) =
      (if s.lock.mm2s = some r then
        .next ({ s with lock := ⟨none, s.lock.s2mm⟩ }.setCtx r { c with op := .none, pc := .idle, res := some .success })
      else .next { s with ctxs := s.ctxs.set r { c with stopped := true }, fault := some .releaseNotOwner }))

/-- R256, R255: one read of the interrupt-status bank, whoever holds the locks; OUT is the value read; never INTERRUPTED.
-/
def Obligations.StatusReadReturnsTheBank : Prop :=
  ∀ (s : State) (r : Nat) (c : Ctx) (b : Nat), s.cfg.valid = true → s.live r c → c.pc = .sRd →
    b = (s.cfg.field .irqStatus).bank →
    step (s.willMove (.own r)) = .next ((s.afterRead b).setCtx r
      { c with op := .none, pc := .idle, res := some .success, out := some (s.readValue b) }) ∧
    step (s.willMove (.cancel r)) = .next s

/-! ### The accessor's micro-operations -/

/-- R122, taken by hand by a requester at `IDLE` whose destination is `dest` [log 12]: READ f answers the bank's word for
a full-width field, else the field's bits shifted down and masked; the bytes of the register space stay, and a bank
without a read side effect leaves the device alone. -/
def Obligations.ReadAnswersTheField : Prop :=
  ∀ (s : State) (r : Nat) (c : Ctx) (f : FieldId) (d : FDesc), s.cfg.valid = true → s.takes r c → d = s.cfg.field f →
    ∃ v t, exec (.read f) s = .next t ∧ t = (s.afterRead d.bank).setCtx r { c with dest := v } ∧
      (d.width = 32 → v = s.readValue d.bank) ∧
      (∀ j, d.width < 32 → v.getLsbD j = (decide (j < d.width) && (s.readValue d.bank).getLsbD (d.offset + j))) ∧
      (∀ a, t.dregs.get a = s.dregs.get a) ∧
      (quietBank s.cfg d.bank = true → t = { s with
        ctxs := s.ctxs.set r { c with dest := v }, portLog := .read d.bank (s.readValue d.bank) :: s.portLog })

/-- R123, full path, taken by hand [log 12]: WRITE f, v on a full-width field is one write and no read; no context
changes. -/
def Obligations.WriteFullFieldStoresTheWord : Prop :=
  ∀ (s : State) (r : Nat) (c : Ctx) (f : FieldId) (v : Word) (b : Nat), s.cfg.valid = true → s.takes r c →
    (s.cfg.field f).width = 32 → b = (s.cfg.field f).bank →
    ∃ t, exec (.write f v) s = .next t ∧ t = s.afterWrite b v ∧ t.portLog = .write b v :: s.portLog ∧
      t.ctxs = s.ctxs ∧ (resetSpares s.cfg b = true → t.fifo = s.fifo) ∧ (plainBank s.cfg b = true → t.stored b = v) ∧
      ∀ a, outsideWrite s.cfg b a → t.dregs.get a = s.dregs.get a

/-- R123, partial path, taken by hand [log 12]: WRITE f, v on a narrow field first latches the bank's word (no byte
changes), and the requester's next own step writes the latched word back with the field's bits replaced by the low bits of
v. -/
def Obligations.WritePartialFieldIsTwoSteps : Prop :=
  ∀ (s : State) (r : Nat) (c : Ctx) (f : FieldId) (v : Word) (d : FDesc), s.cfg.valid = true → s.takes r c →
    d = s.cfg.field f → d.width < 32 →
    ∃ t w, exec (.write f v) s = .next t ∧
      t = (s.afterRead d.bank).setCtx r { c with tmp := s.readValue d.bank, uop := some (.write f v) } ∧
      (∀ a, t.dregs.get a = s.dregs.get a) ∧
      step (t.willMove (.own r)) = .next ((t.afterWrite d.bank w).setCtx r { c with tmp := s.readValue d.bank }) ∧
      (∀ j, j < 32 → w.getLsbD j = if d.offset ≤ j ∧ j < d.offset + d.width then v.getLsbD (j - d.offset)
        else (s.readValue d.bank).getLsbD j) ∧
      ∀ a, outsideWrite s.cfg d.bank a → (t.afterWrite d.bank w).dregs.get a = s.dregs.get a

/-- R125, R126, R127, R105, taken by hand [log 12]: GET_BIT f answers the bit; SET_BIT f and CLEAR_BIT f latch the
bank's word and stand unfinished as WRITE f, 1 and WRITE f, 0; the next own step writes the word back with the bit set
or clear. -/
def Obligations.BitOperationsOnOneBitFields : Prop :=
  ∀ (s : State) (r : Nat) (c : Ctx) (f : FieldId) (b o : Nat), s.cfg.valid = true → s.takes r c →
    (s.cfg.field f).width = 1 → b = (s.cfg.field f).bank → o = (s.cfg.field f).offset →
    (∃ t, exec (.getBit f) s = .next t ∧ (∀ a, t.dregs.get a = s.dregs.get a) ∧
      t = (s.afterRead b).setCtx r { c with dest := if (s.readValue b).getLsbD o then 1 else 0 }) ∧
    ∀ i v w, (i = .setBit f ∧ v = 1 ∧ w = s.readValue b ||| (1#32 <<< o)) ∨
        (i = .clearBit f ∧ v = 0 ∧ w = s.readValue b &&& ~~~(1#32 <<< o)) →
      ∃ t, exec i s = .next t ∧
        t = (s.afterRead b).setCtx r { c with tmp := s.readValue b, uop := some (.write f v) } ∧
        (∀ a, t.dregs.get a = s.dregs.get a) ∧
        step (t.willMove (.own r)) = .next ((t.afterWrite b w).setCtx r { c with tmp := s.readValue b }) ∧
        ∀ a, outsideWrite s.cfg b a → (t.afterWrite b w).dregs.get a = s.dregs.get a

/-- R128: on a field whose width is not 1 the bit operations are refused, in every state. -/
def Obligations.BitOperationsOnWideFieldsRefused : Prop :=
  ∀ (s : State) (f : FieldId) (i : Instr), (s.cfg.field f).width ≠ 1 →
    i = .getBit f ∨ i = .setBit f ∨ i = .clearBit f → exec i s = .refused (.wideBitField f)

/-- R124, taken by hand [log 12]: in a storage bank, once WRITE f, v is over, READ f answers v masked to the width of the
field, and every bit of the bank outside the field is as before the write. -/
def Obligations.WriteThenReadRoundTrip : Prop :=
  ∀ (s : State) (r : Nat) (c : Ctx) (f : FieldId) (v : Word) (d : FDesc), s.cfg.valid = true → s.takes r c →
    d = s.cfg.field f → plainBank s.cfg d.bank = true →
    ∃ t u c', exec (.write f v) s = .next t ∧
      (d.width = 32 ∧ u = t ∨ d.width < 32 ∧ step (t.willMove (.own r)) = .next u) ∧ u.takes r c' ∧
      (∀ j, j < 32 → ¬(d.offset ≤ j ∧ j < d.offset + d.width) →
        (u.stored d.bank).getLsbD j = (s.stored d.bank).getLsbD j) ∧
      ∃ t', exec (.read f) u = .next t' ∧ ∀ c'', t'.ctx? r = some c'' →
        ∀ j, c''.dest.getLsbD j = (decide (j < d.width) && v.getLsbD j)

/-! ### Lock and signal micro-operations -/

/-- R142, R144, taken by hand [log 12, 16]: ACQUIRE d takes a free lock, and blocks the requester at a held one (until a
retry takes the lock once it is free); RELEASE d frees a lock its requester holds, and otherwise raises RELEASE_NOT_OWNER:
the lock stays, the requester stops. -/
def Obligations.LockMicroOperations : Prop :=
  ∀ (s : State) (r : Nat) (c : Ctx) (d : Dir), s.takes r c →
    (s.lock.get d = none → exec (.acquire d) s = .next { s with lock := s.lock.set d (some r) }) ∧
    (s.lock.get d ≠ none → exec (.acquire d) s = .next (s.setCtx r { c with uop := some (.acquire d) })) ∧
    (∀ u, s.cfg.valid = true → u = s.setCtx r { c with uop := some (.acquire d) } →
      step (u.willMove (.own r)) = if s.lock.get d = none then
        .next ({ s with lock := s.lock.set d (some r) }.setCtx r { c with uop := none }) else .next u) ∧
    (s.lock.get d = some r → exec (.release d) s = .next { s with lock := s.lock.set d none }) ∧
    (s.lock.get d ≠ some r → exec (.release d) s = .next
      { s with ctxs := s.ctxs.set r { c with stopped := true }, fault := some .releaseNotOwner })

/-- R151, R152, R156, taken by hand [log 12, 16, 24]: NOTIFY d adds one and CONSUME d takes one; NOTIFY at `COUNT_MAX`
raises COUNT_OVERFLOW and CONSUME at 0 raises CONSUME_AT_ZERO: the count stays, the agent stops. -/
def Obligations.CountMicroOperations : Prop :=
  ∀ (s : State) (r : Nat) (c : Ctx) (d : Dir) (n : Nat), s.takes r c → s.count.get d = n →
    (n ≠ s.cfg.countMax → exec (.notify d) s = .next { s with count := s.count.set d (n + 1) }) ∧
    (n = s.cfg.countMax → exec (.notify d) s = .next
      { s with ctxs := s.ctxs.set r { c with stopped := true }, fault := some .countOverflow }) ∧
    (0 < n → exec (.consume d) s = .next { s with count := s.count.set d (n - 1) }) ∧
    (n = 0 → exec (.consume d) s = .next
      { s with ctxs := s.ctxs.set r { c with stopped := true }, fault := some .consumeAtZero })

/-- R153-R155, taken by hand [log 12]: WAIT d is SIGNALLED at once while the count is above 0, which it leaves; at 0 the
requester is blocked; a blocked wait ends by SIGNALLED once the count is above 0, by TIMEOUT only at 0, and by CANCEL at
any time. -/
def Obligations.WaitMicroOperation : Prop :=
  ∀ (s u : State) (r : Nat) (c : Ctx) (d : Dir), s.takes r c → s.cfg.valid = true →
    u = s.setCtx r { c with uop := some (.wait d) } →
    (0 < s.count.get d → exec (.wait d) s = .next (s.setCtx r { c with waited := some .signalled })) ∧
    (s.count.get d = 0 → exec (.wait d) s = .next u) ∧
    step (u.willMove (.own r)) =
      (if 0 < s.count.get d then .next (s.setCtx r { c with uop := none, waited := some .signalled }) else .next u) ∧
    step (u.willMove (.timeout r)) =
      (if s.count.get d = 0 then .next (s.setCtx r { c with uop := none, waited := some .timedOut }) else .next u) ∧
    step (u.willMove (.cancel r)) = .next (s.setCtx r { c with uop := none, waited := some .interrupted })

/-! ### The dispatcher -/

/-- R170, R171, R282: IRQ adds one pending event and nothing else (none, once a model fault has stopped the device,
R276 [log 16]); DISPATCH takes one pending event and goes to `D_RD_M`, and is not enabled at any other micro-state or
with no event pending. Both are so whatever agent the word is presented for [log 27]. -/
def Obligations.IrqAndDispatch : Prop :=
  ∀ (s : State),
    (s.devStopped = false → exec .irq s = .next { s with irqPending := s.irqPending + 1 }) ∧
    (s.devStopped = true → exec .irq s = .next s) ∧
    (∀ n, s.dispStopped = false → s.dispPc = .dIdle → s.irqPending = n + 1 →
      exec .dispatch s = .next { s with irqPending := n, dispPc := .dRdM }) ∧
    (s.dispPc ≠ .dIdle ∨ s.irqPending = 0 → exec .dispatch s = .next s)

/-- R172-R178: each step of an invocation; S2MM is tested before MM2S, a FIFO-empty bit is read only for a direction whose
flag read true, and the errant event is logged. -/
def Obligations.DispatcherStepsAsStated : Prop :=
  ∀ (s : State) (e : Dir → Bool) (b : Dir → Nat), s.cfg.valid = true → s.dispStopped = false →
    (∀ d, b d = (s.cfg.field (.stsFifoEmpty d)).bank ∧
      e d = (s.readValue (b d)).getLsbD (s.cfg.field (.stsFifoEmpty d)).offset) →
    (s.dispPc = .dRdM → step (s.willMove .disp) = .next
      { s with dispHeldM := (s.lock.mm2s).isSome, dispPc := .dRdS }) ∧
    (s.dispPc = .dRdS → step (s.willMove .disp) = .next
      { s with
        dispHeldS := s.lock.s2mm.isSome
        dispPc := if s.lock.s2mm.isSome then .dChkS else if s.dispHeldM then .dChkM else .dLog }) ∧
    (s.dispPc = .dChkS → step (s.willMove .disp) = .next { s.afterRead (b .s2mm) with
        dispPc := if e .s2mm = false then .dNotifyS else if s.dispHeldM then .dChkM else .dLog }) ∧
    (s.dispPc = .dChkM → step (s.willMove .disp) = .next { s.afterRead (b .mm2s) with
        dispPc := if e .mm2s = false then .dNotifyM else .dLog }) ∧
    (s.dispPc = .dNotifyS → s.count.s2mm ≠ s.cfg.countMax → step (s.willMove .disp) = .next
      { s with count := ⟨s.count.mm2s, s.count.s2mm + 1⟩, dispPc := .dIdle }) ∧
    (s.dispPc = .dNotifyM → s.count.mm2s ≠ s.cfg.countMax → step (s.willMove .disp) = .next
      { s with count := ⟨s.count.mm2s + 1, s.count.s2mm⟩, dispPc := .dIdle }) ∧
    (s.dispPc = .dLog → step (s.willMove .disp) = .next
      { s with errlog := s.errlog ++ [.errant], dispPc := .dIdle })

/-- R180, R181, R182: an invocation during which no other agent moves, in the reference layout: the outcome by the
lock-held flags and the status FIFOs, in at most six moves, with exactly the reads the table lists; nothing else changes.
-/
def Obligations.AttributionTable : Prop :=
  ∀ (s : State) (rs rm : Access), s.cfg = .reference → s.dispStopped = false → s.dispPc = .dIdle → 0 < s.irqPending →
    s.count.mm2s < s.cfg.countMax → s.count.s2mm < s.cfg.countMax →
    rs = .read 12 (s.readValue 12) → rm = .read 4 (s.readValue 4) →
    ∃ n t, n ≤ 6 ∧ core.run n (s.willMoves (List.replicate n .disp)) = .next t ∧
      t = { s with
        irqPending := s.irqPending - 1, dispPc := .dIdle, dispHeldM := s.held .mm2s, dispHeldS := s.held .s2mm
        count := t.count, errlog := t.errlog, portLog := t.portLog } ∧
      (t.count, t.errlog, t.portLog) =
        (if s.held .s2mm = true ∧ s.fifo.s2mm ≠ [] then
          (⟨s.count.mm2s, s.count.s2mm + 1⟩, s.errlog, rs :: s.portLog)
        else if s.held .s2mm = true ∧ s.held .mm2s = true ∧ s.fifo.mm2s ≠ [] then
          (⟨s.count.mm2s + 1, s.count.s2mm⟩, s.errlog, rm :: rs :: s.portLog)
        else if s.held .s2mm = true ∧ s.held .mm2s = true then
          (s.count, s.errlog ++ [.errant], rm :: rs :: s.portLog)
        else if s.held .s2mm = true then (s.count, s.errlog ++ [.errant], rs :: s.portLog)
        else if s.held .mm2s = true ∧ s.fifo.mm2s ≠ [] then
          (⟨s.count.mm2s + 1, s.count.s2mm⟩, s.errlog, rm :: s.portLog)
        else if s.held .mm2s = true then (s.count, s.errlog ++ [.errant], rm :: s.portLog)
        else (s.count, s.errlog ++ [.errant], s.portLog))

/-- R183, R148: a move of the dispatcher never fails, and changes no context, no lock, no byte of the register space,
no status FIFO and no `busy` bit, in a layout whose empty flags share no bank with a status FIFO or the interrupt
status. (In a device other than the reference one, its reads may change the device's own state [log 10].) -/
def Obligations.DispatcherLeavesTheRestAlone : Prop :=
  ∀ (s : State), s.cfg.valid = true →
    (s.cfg.dev = .reference → ∀ d, quietBank s.cfg (s.cfg.field (.stsFifoEmpty d)).bank = true) →
    ∃ t, step (s.willMove .disp) = .next t ∧
      t = { s with
        irqPending := t.irqPending, dispPc := t.dispPc, dispHeldM := t.dispHeldM, dispHeldS := t.dispHeldS
        dispStopped := t.dispStopped, errlog := t.errlog, count := t.count, fault := t.fault, portLog := t.portLog
        extDev := t.extDev, draws := t.draws } ∧
      (s.cfg.dev = .reference → t.extDev = s.extDev ∧ t.draws = s.draws)

/-! ### The device -/

/-- R72-R75, R65, R70: what a read returns and does, by the device-owned fields of its bank: storage as stored; the
empty flag 1 exactly when the FIFO is empty, the other bits as stored; a status FIFO's first entry, which it removes;
and where the FIFO is empty, or the bank is the interrupt status, a draw [log 8]. (A status FIFO's word in the
interrupt status's bank comes first [log 9].) A device other than the reference one answers a free value and may
change its own state [log 10]. -/
def Obligations.DeviceAnswersReads : Prop :=
  ∀ (s : State), s.cfg.valid = true →
    (∀ b, storageBank s.cfg b = true → s.readValue b = s.stored b ∧ s.readEffect b = s) ∧
    (∀ d b, b = (s.cfg.field (.stsFifoEmpty d)).bank → quietBank s.cfg b = true →
      (s.cfg.field (.stsFifoEmpty d.other)).bank ≠ b → s.readEffect b = s ∧
      ∀ j, j < 32 → (s.readValue b).getLsbD j = if j = (s.cfg.field (.stsFifoEmpty d)).offset then
        (s.fifo.get d).isEmpty else (s.stored b).getLsbD j) ∧
    (s.cfg.dev = .reference → ∀ d b, b = (s.cfg.field (.stsFifo d)).bank → (s.cfg.field (.stsFifo d.other)).bank ≠ b →
      (∀ e es, s.fifo.get d = e :: es → s.readValue b = e ∧ s.readEffect b = { s with fifo := s.fifo.set d es }) ∧
      (s.fifo.get d = [] → s.readValue b = Config.freeWord s.draws ∧
        s.readEffect b = { s with draws := s.draws + 1 })) ∧
    (s.cfg.dev = .reference → ∀ b, b = (s.cfg.field .irqStatus).bank → fifoAt s.cfg b = none →
      s.readValue b = Config.freeWord s.draws ∧ s.readEffect b = { s with draws := s.draws + 1 }) ∧
    (∀ id b, s.cfg.dev = .other id → s.readValue b = Config.devRead id s.extDev s.draws b ∧
      s.readEffect b = { s with extDev := Config.devAfterRead id s.extDev s.draws b, draws := s.draws + 1 })

/-- R66, R70, R72-R77, R68: what a write does. In the reference device a storage bank holds the word; the empty flag's
stored bit stays and the rest is stored; a status FIFO's bank and the interrupt status's change nothing; a transfer of
d starts exactly when the enable bit of d, as stored, changes from 0 to 1; every other byte stays. Where the write
changes `GLOBAL_RESET` from 0 to 1, the reset effect (none in the reference configuration; its form is the model's
[log 26]) follows: it empties the status FIFOs, clears the `busy` bits and changes the banks it names. In another
device only its own state changes [log 10]. -/
def Obligations.DeviceTakesWrites : Prop :=
  ∀ (s : State) (b : Nat) (v : Word) (t : State), s.cfg.valid = true → t = s.afterWrite b v →
    (s.pulsesReset b v = false → storageBank s.cfg b = true → t.stored b = v) ∧
    (∀ d, s.pulsesReset b v = false → b = (s.cfg.field (.stsFifoEmpty d)).bank → quietBank s.cfg b = true →
      (s.cfg.field (.stsFifoEmpty d.other)).bank ≠ b →
      ∀ j, j < 32 → (t.stored b).getLsbD j = if j = (s.cfg.field (.stsFifoEmpty d)).offset then
        (s.stored b).getLsbD j else v.getLsbD j) ∧
    (s.cfg.dev = .reference → quietBank s.cfg b = false → t = { s with portLog := .write b v :: s.portLog }) ∧
    (∀ d, s.cfg.dev = .reference → s.pulsesReset b v = false →
      t.busy.get d = (s.busy.get d || (decide ((s.cfg.field (.xferEn d)).bank = b) && !s.xferEnabled d &&
        t.xferEnabled d))) ∧
    (s.pulsesReset b v = false → t.fifo = s.fifo ∧ ∀ a, a < 4 * b ∨ 4 * b + 4 ≤ a → t.dregs.get a = s.dregs.get a) ∧
    (s.pulsesReset b v = true → storageBank s.cfg b = true →
      (∀ e ∈ s.cfg.devResetEffect.banks, e.bank ≠ b → t.stored e.bank = (s.stored e.bank &&& e.keep) ||| e.value) ∧
      (∀ e ∈ s.cfg.devResetEffect.banks, e.bank = b → t.stored b = (v &&& e.keep) ||| e.value) ∧
      ((∀ e ∈ s.cfg.devResetEffect.banks, e.bank ≠ b) → t.stored b = v) ∧
      (∀ d, t.fifo.get d = if s.cfg.devResetEffect.emptiesFifo.get d then [] else s.fifo.get d) ∧
      ∀ d, t.busy.get d = ((s.busy.get d || (decide ((s.cfg.field (.xferEn d)).bank = b) && !s.xferEnabled d &&
        fieldBit (s.cfg.field (.xferEn d)) v)) && !s.cfg.devResetEffect.clearsBusy.get d)) ∧
    (∀ a, outsideWrite s.cfg b a → t.dregs.get a = s.dregs.get a) ∧
    ∀ id, s.cfg.dev = .other id → t = { s with
      extDev := Config.devAfterWrite id s.extDev s.draws b v, draws := s.draws + 1, portLog := .write b v :: s.portLog }

/-- R78, R79, R70, R276: of the reference device, COMPLETE(d) while `busy[d]` ends the transfer, adds one entry (a
draw) to the status FIFO, and raises an event exactly when `d_IRQ_EN` is stored 1, and does nothing otherwise;
SPURIOUS raises an event and nothing else. A step of another device changes only its own state and may add events [log
10]. A device that a model fault has stopped takes no step [log 16]. -/
def Obligations.DeviceStepsByItself : Prop :=
  ∀ (s : State) (d : Dir) (b o n : Nat), s.cfg.valid = true →
    b = (s.cfg.field .irqEnable).bank → o = (s.cfg.field (.irqEn d)).offset →
    (s.cfg.dev = .reference → s.devStopped = false →
      (s.busy.get d = true → step (s.willMove (.complete d)) = .next { s with
        busy := s.busy.set d false
        fifo := s.fifo.set d (s.fifo.get d ++ [Config.freeWord s.draws])
        draws := s.draws + 1
        irqPending := if (s.stored b).getLsbD o then s.irqPending + 1 else s.irqPending }) ∧
      (s.busy.get d = false → step (s.willMove (.complete d)) = .next s) ∧
      step (s.willMove .spurious) = .next { s with irqPending := s.irqPending + 1 } ∧
      step (s.willMove (.device n)) = .next s) ∧
    (∀ id, s.cfg.dev = .other id → s.devStopped = false →
      step (s.willMove (.device n)) = .next { s with
        extDev := Config.devStep id s.extDev n, irqPending := s.irqPending + Config.devEvents id s.extDev n } ∧
      step (s.willMove (.complete d)) = .next s ∧ step (s.willMove .spurious) = .next s) ∧
    (s.devStopped = true → ∀ e, e = .complete d ∨ e = .spurious ∨ e = .device n → step (s.willMove e) = .next s)

/-! ### Recorded traces -/

/-- R99, R105, R130: presenting to a requester the micro-operation its micro-state issues takes exactly that
requester's own step, in whichever spelling (`SET_BIT f` means `WRITE f, 1` and `CLEAR_BIT f` means `WRITE f, 0`);
presenting to the dispatcher the one its micro-state issues takes exactly the dispatcher's; and the two spellings do
the same in every state. (How a trace is replayed is the model's [log 13].) -/
def Obligations.ReplayedMicroOpIsTheAgentsStep : Prop :=
  ∀ (s : State) (i j : Instr), s.cfg.valid = true →
    j = i ∨ (∃ f, i = .setBit f ∧ j = .write f 1) ∨ (∃ f, i = .clearBit f ∧ j = .write f 0) →
    (∀ r c, s.cur = .requester r → s.live r c → c.uop = none → microOpAt s.cfg c = some i → exec j s = ownStep r s) ∧
    (s.cur = .dispatcher → s.dispStopped = false → dispMicroOp s.dispPc = some i → exec j s = dispStep s) ∧
    (i.wellFormed s.cfg = true → exec j s = exec i s)

/-! ### Whole-machine rules -/

/-- R140-R145, R150, R157, R210: every step of the block's own sequences, of the device and of the environment keeps the
discipline of locks, micro-states and counts. -/
def Obligations.EveryStepKeepsTheDiscipline : Prop :=
  ∀ (s t : State), s.Disciplined → step s = .next t → t.Disciplined

/-- The invariants of EveryStepKeepsTheDiscipline, EveryStepKeepsTheRegisterSpace and EveryStepKeepsTheEnableBitOwned hold
at attach, whatever the valid configuration. (Register space and enable bits read 0 there by the model's
choice [log 3].) -/
def Obligations.AttachIsDisciplined : Prop :=
  ∀ (cfg : Config), cfg.valid = true →
    (State.attach cfg).Disciplined ∧ (State.attach cfg).dregs.wf = true ∧ (State.attach cfg).inRange ∧
      (State.attach cfg).enableOwned

/-- R145, R157, R129: from a disciplined state a step always answers a next state, and the only model fault it can raise
is COUNT_OVERFLOW, by the dispatcher at a full count. -/
def Obligations.OnlyOverflowCanFault : Prop :=
  ∀ (s : State), s.Disciplined → ∃ t, step s = .next t ∧
    (t.fault = s.fault ∨ (t.fault = some .countOverflow ∧ t.count = s.count ∧ t.dispStopped = true ∧
      ((s.dispPc = .dNotifyS ∧ s.count.s2mm = s.cfg.countMax) ∨
        (s.dispPc = .dNotifyM ∧ s.count.mm2s = s.cfg.countMax))))

/-- R212, R81, R248: between a transfer's `T_ACQ` and its release, no other requester is between those of a transfer
of that direction, and no RESET or SET_IRQ_MASK is at a micro-state that accesses a register. -/
def Obligations.TransfersExcludeEachOther : Prop :=
  ∀ (s : State) (r q : Nat) (c e : Ctx), s.Disciplined → s.ctx? r = some c → s.ctx? q = some e → q ≠ r →
    c.pc.transferring = true →
    (e.pc.transferring = true → e.dir ≠ c.dir) ∧ e.pc ≠ .mWr ∧
      e.pc ∉ [.gRsR, .gRsW, .gRcR, .gRcW, .gRel2] ∧ ∀ k, e.pc ≠ .gBaR k ∧ e.pc ≠ .gBaW k

/-- R260, R141: a requester that holds the S2MM lock is at no acquire micro-state, and one that waits for its second lock
holds MM2S alone, so no cycle of waiting requesters can form. -/
def Obligations.HolderOfS2mmNeverWaits : Prop :=
  ∀ (s : State) (r : Nat) (c : Ctx), s.Disciplined → s.ctx? r = some c →
    (s.lock.s2mm = some r → c.pc.acquiring = false) ∧
    (s.lock.mm2s = some r → c.pc.acquiring = true → (c.pc = .gAcq2 ∨ c.pc = .mAcq2) ∧ s.lock.s2mm ≠ some r)

/-- R39, R60, R67, D9: every step, hand-built micro-operations among them, keeps the register space in canonical form
and within its banks, makes at most one access at the REG port, keeps the configuration and the number of requesters
(R12), never clears a recorded fault (R32), and only adds to the errant log. -/
def Obligations.EveryStepKeepsTheRegisterSpace : Prop :=
  ∀ (s t : State), s.dregs.wf = true → s.inRange → step s = .next t →
    t.dregs.wf = true ∧ t.inRange ∧ t.cfg = s.cfg ∧ t.ctxs.length = s.ctxs.length ∧ (s.fault ≠ none → t.fault ≠ none) ∧
      (t.portLog = s.portLog ∨ ∃ a, t.portLog = a :: s.portLog) ∧ ∃ es, t.errlog = s.errlog ++ es

/-- R209 in the reference layout: every step keeps it true that an enable bit reads 1 only while a requester is between
setting and clearing it; so no return leaves it set. -/
def Obligations.EveryStepKeepsTheEnableBitOwned : Prop :=
  ∀ (s t : State), s.Disciplined → s.cfg = .reference → s.enableOwned → step s = .next t → t.enableOwned

/-- R158, R150: a count changes only by one: up, at the dispatcher's `D_NOTIFY_S` or `D_NOTIFY_M` of that direction, or
down, at `T_CONSUME` of a requester of that direction. -/
def Obligations.CountsChangeOnlyThere : Prop :=
  ∀ (s t : State) (d : Dir), s.Disciplined → step s = .next t → t.count.get d ≠ s.count.get d →
    (s.nextInput = .event .disp ∧ s.dispPc = (if d = .s2mm then .dNotifyS else .dNotifyM) ∧
      t.count.get d = s.count.get d + 1) ∨
    (∃ r c, s.nextInput = .event (.own r) ∧ s.ctx? r = some c ∧ c.pc = .tConsume ∧ c.dir = d ∧
      s.lock.get d = some r ∧ t.count.get d + 1 = s.count.get d)

/-- R22, R25, R276: a step changes the context of a requester only by a command to it, its own step, its cancellation or
its timeout; never its buffer address; and never once a model fault has stopped it. -/
def Obligations.ContextsChangeOnlyByTheirOwnMoves : Prop :=
  ∀ (s t : State) (q : Nat) (c : Ctx), s.nextIsMove → step s = .next t → s.ctx? q = some c →
    ∃ c', t.ctx? q = some c' ∧ c'.buf = c.buf ∧ (c.stopped = true → c' = c) ∧
      (c' ≠ c → ∃ e, s.nextInput = .event e ∧
        ((∃ sel arg, e = .host q sel arg) ∨ e = .own q ∨ e = .cancel q ∨ e = .timeout q))

/-- R213 in the reference layout: while a transfer holds the lock of d, no step changes `d_IRQ_EN`; only SET_IRQ_MASK's
write changes it at all. -/
def Obligations.ModeIsStableDuringTransfer : Prop :=
  ∀ (s t : State) (d : Dir), s.Disciplined → s.cfg = .reference → step s = .next t →
    (t.irqMode d ≠ s.irqMode d → ∃ r c, s.nextInput = .event (.own r) ∧ s.ctx? r = some c ∧ c.pc = .mWr) ∧
    (∀ r c, s.ctx? r = some c → c.pc.transferring = true → c.dir = d → t.irqMode d = s.irqMode d)

/-- R216: from a disciplined state, each own step of a transfer that holds its lock changes the machine and brings it
nearer its return, except at `T_WAIT` with the count at 0, where TIMEOUT does. -/
def Obligations.TransferMeasureDecreases : Prop :=
  ∀ (s : State) (r : Nat) (c : Ctx), s.Disciplined → s.ctx? r = some c → c.pc.transferring = true →
    ∃ e t c', (e = .own r ∨ (e = .timeout r ∧ c.pc = .tWait ∧ s.count.get c.dir = 0)) ∧
      step (s.willMove e) = .next t ∧ t.ctx? r = some c' ∧
      c'.measure s.cfg.pollLimit < c.measure s.cfg.pollLimit ∧
      (c'.measure s.cfg.pollLimit = 0 → c'.pc = .idle ∧ t.lock.get c.dir = none ∧ c'.res ≠ none)

/-! ### Runs -/

/-- R208, R200: polling from iteration 0 while the status FIFO stays empty: after n reads below the ceiling the requester
still polls with n reads made; the read at the ceiling gives TIMEOUT. (A layout whose empty flag shares no bank with a
status FIFO, the interrupt status or the other flag.) -/
def Obligations.PollingReadsUpToTheCeiling : Prop :=
  ∀ (s : State) (r n : Nat) (c : Ctx) (d : Dir) (b : Nat), s.cfg.valid = true → s.live r c → c.pc = .tPoll → c.iter = 0 →
    d = c.dir → b = (s.cfg.field (.stsFifoEmpty d)).bank → quietBank s.cfg b = true →
    (s.cfg.field (.stsFifoEmpty d.other)).bank ≠ b → s.fifo.get d = [] → n ≤ s.cfg.pollLimit →
    core.run n (s.willMoves (List.replicate n (.own r))) = .next { s with
      ctxs := s.ctxs.set r (if n = s.cfg.pollLimit then { c with iter := n, err := some .timeout, pc := .tAbtR }
        else { c with iter := n })
      portLog := List.replicate n (.read b (s.readValue b)) ++ s.portLog }

/-- R240, R249: RESET alone from a quiet start, in the reference layout: both locks are taken and freed, the 12 accesses
of the table are made in its order, the reset bit ends clear, the bus attributes hold their constants, every other bit of
the two banks is kept, and nothing else changes. -/
def Obligations.ResetRunsToSuccess : Prop :=
  ∀ (s : State) (r : Nat) (c : Ctx) (arg w48 w49 : Word), s.cfg = .reference → s.ctx? r = some c → c.ready = true →
    s.lock = ⟨none, none⟩ → s.stored 48 = w48 → s.stored 49 = w49 →
    ∃ t, core.run 17 (s.willMoves (.host r 0 arg :: List.replicate 16 (.own r))) = .next t ∧
      t.stored 48 = w48 &&& 0xFFFFFFFE ∧ t.stored 49 = (w49 &&& 0xFFFF0000) ||| 0x000011FF ∧
      (∀ b, b ≠ 48 → b ≠ 49 → t.stored b = s.stored b) ∧
      t.portLog.reverse = s.portLog.reverse ++
        [.read 48 w48, .write 48 (w48 ||| 1), .read 48 (w48 ||| 1), .write 48 (w48 &&& 0xFFFFFFFE),
         .read 49 w49, .write 49 ((w49 &&& 0xFFFFFFF0) ||| 0x0000000F),
         .read 49 ((w49 &&& 0xFFFFFFF0) ||| 0x0000000F), .write 49 ((w49 &&& 0xFFFFFF00) ||| 0x000000FF),
         .read 49 ((w49 &&& 0xFFFFFF00) ||| 0x000000FF), .write 49 ((w49 &&& 0xFFFFF000) ||| 0x000001FF),
         .read 49 ((w49 &&& 0xFFFFF000) ||| 0x000001FF), .write 49 ((w49 &&& 0xFFFF0000) ||| 0x000011FF)] ∧
      (∃ c', t.ctx? r = some c' ∧ c'.pc = .idle ∧ c'.op = .none ∧ c'.res = some .success ∧ c'.out = none) ∧
      (∀ q, q ≠ r → t.ctx? q = s.ctx? q) ∧
      t = { s with cur := .requester r, ctxs := t.ctxs, dregs := t.dregs, portLog := t.portLog }

/-- R206, R207: a polling transfer and an interrupt-mode transfer of either direction, alone, in the reference layout,
from a quiet start of its direction, with one COMPLETE right after the enable: both return SUCCESS, write the same words
in the same order, and leave the status FIFO empty, the enable bit 0, the lock free and the count 0. -/
def Obligations.BothDetectorsSucceedAlike : Prop :=
  ∀ (s : State) (r : Nat) (c : Ctx) (d : Dir) (arg en : Word) (base : Nat) (moves : List Event), s.cfg = .reference →
    s.ctx? r = some c → c.ready = true → s.lock = ⟨none, none⟩ → s.count = ⟨0, 0⟩ → s.irqPending = 0 →
    s.dispPc = .dIdle → s.dispStopped = false → s.devStopped = false → s.fifo.get d = [] →
    base = (if d = .mm2s then 0 else 8) →
    s.stored (base + 3) = en → en.getLsbD 0 = false →
    moves = [.host r (if d = .mm2s then 4 else 5) arg] ++ List.replicate 5 (.own r) ++ [.complete d, .own r] ++
      (if s.irqMode d = true then List.replicate 5 .disp ++ List.replicate 6 (.own r) else List.replicate 5 (.own r)) →
    ∃ t, core.run moves.length (s.willMoves moves) = .next t ∧
      (∃ c', t.ctx? r = some c' ∧ c'.pc = .idle ∧ c'.res = some .success ∧ c'.out = none) ∧
      (∃ l, t.portLog = l ++ s.portLog ∧ (writesOf l).reverse =
        [.write base c.buf, .write (base + 1) arg, .write (base + 3) (en ||| 1), .write (base + 3) en]) ∧
      t.fifo = s.fifo ∧ t.xferEnabled d = false ∧ t.busy.get d = false ∧ t.lock = ⟨none, none⟩ ∧ t.count = ⟨0, 0⟩ ∧
      t.irqPending = 0 ∧ t.errlog = s.errlog ∧ t.fault = s.fault

/-- R179: in every fair infinite run of the spec's agents, an invocation of the dispatcher that has begun ends: it is back
at `D_IDLE`, or a full count has stopped it. (Fairness is the spec's assumption, D39.) -/
def Obligations.FairDispatcherFinishes : Prop :=
  ∀ (run : Nat → State) (moves : Nat → Event) (n : Nat), IsRun run moves → Fair run moves → (run 0).Disciplined →
    ∃ m, n ≤ m ∧ ((run m).dispPc = .dIdle ∨ (run m).dispStopped = true)
end

