-- ==== Sys2Proof/Laws/Bits.lean ====
section
/-! SUPPORT. The field operations bit by bit. -/

namespace Sys2Proof.Machine

open Sys2Proof

theorem getLsbD_mask (w : Nat) {j : Nat} (hj : j < 32) : (mask w).getLsbD j = decide (j < w) := by
  rw [mask, BitVec.getLsbD_ofNat, Nat.testBit_two_pow_sub_one]
  simp only [hj, decide_true, Bool.true_and]

/-- GET_BIT reads the bit at the field's offset. -/
theorem fieldBit_eq (d : FDesc) (v : Word) : fieldBit d v = v.getLsbD d.offset := by
  have : ((v >>> d.offset) &&& 1 = 1) ↔ v.getLsbD d.offset = true := by
    constructor
    · intro h
      have := congrArg (fun x => BitVec.getLsbD x 0) h
      simpa using this
    · intro h
      apply BitVec.eq_of_getLsbD_eq
      intro i hi
      by_cases h0 : i = 0
      · subst h0
        simpa using h
      · simp [BitVec.getLsbD_one, h0]
  simp only [fieldBit, this, Bool.decide_eq_true]

/-- READ of a narrow field: the field's bits shifted down, zero above its width. -/
theorem getLsbD_fieldValue {d : FDesc} (v : Word) (hw : d.width < 32) (j : Nat) :
    (fieldValue d v).getLsbD j = (decide (j < d.width) && v.getLsbD (d.offset + j)) := by
  have hf : fullWidth d = false := by simp [fullWidth]; omega
  by_cases hj : j < 32
  · simp [fieldValue, hf, getLsbD_mask _ hj, Bool.and_comm]
  · have h1 : ¬ j < d.width := by omega
    simp [BitVec.getLsbD_of_ge _ _ (Nat.le_of_not_lt hj), h1]

/-- READ of a full-width field is the whole word. -/
theorem fieldValue_full {d : FDesc} (v : Word) (hw : d.width = 32) : fieldValue d v = v := by
  simp [fieldValue, fullWidth, hw]

/-- A merged write: the field's bits are those of the value, the others those of the latched word. -/
theorem getLsbD_mergeField (d : FDesc) (tmp v : Word) {j : Nat} (hj : j < 32) :
    (mergeField d tmp v).getLsbD j =
      if d.offset ≤ j ∧ j < d.offset + d.width then v.getLsbD (j - d.offset) else tmp.getLsbD j := by
  have h2 : j - d.offset < 32 := by omega
  simp only [mergeField, BitVec.getLsbD_or, BitVec.getLsbD_and, BitVec.getLsbD_not, BitVec.getLsbD_shiftLeft,
    getLsbD_mask _ h2, hj, decide_true, Bool.true_and]
  by_cases h1 : j < d.offset
  · have h3 : ¬ d.offset ≤ j := by omega
    simp only [h1, h3, decide_true, Bool.not_true, Bool.false_and, Bool.not_false, Bool.and_true, Bool.or_false,
      false_and, if_false]
  · have h3 : d.offset ≤ j := by omega
    by_cases h4 : j - d.offset < d.width
    · have h5 : j < d.offset + d.width := by omega
      simp [h1, h3, h4, h5]
    · have h5 : ¬ j < d.offset + d.width := by omega
      simp [h1, h3, h4, h5]

theorem getLsbD_bitAt (o : Nat) {j : Nat} (hj : j < 32) : ((1#32 <<< o).getLsbD j) = decide (j = o) := by
  by_cases h : j < o
  · have : j ≠ o := by omega
    simp [h, this]
  · by_cases e : j = o
    · subst e
      simp [hj]
    · have : j - o ≠ 0 := by omega
      simp [hj, h, e, this]

theorem getLsbD_withBitSet (d : FDesc) (v : Word) {j : Nat} (hj : j < 32) :
    (withBitSet d v).getLsbD j = (v.getLsbD j || decide (j = d.offset)) := by
  have := getLsbD_bitAt d.offset hj
  simp only [withBitSet, BitVec.getLsbD_or]
  rw [show ((1 : Word) <<< d.offset) = 1#32 <<< d.offset from rfl, this]

theorem getLsbD_withBitClear (d : FDesc) (v : Word) {j : Nat} (hj : j < 32) :
    (withBitClear d v).getLsbD j = (v.getLsbD j && !decide (j = d.offset)) := by
  have := getLsbD_bitAt d.offset hj
  simp only [withBitClear, BitVec.getLsbD_and, BitVec.getLsbD_not]
  rw [show ((1 : Word) <<< d.offset) = 1#32 <<< d.offset from rfl, this]
  simp [hj]

/-- SET_BIT of a one-bit field writes what WRITE of 1 does (R105). -/
theorem mergeField_one {d : FDesc} (hw : d.width = 1) (tmp : Word) : mergeField d tmp 1 = withBitSet d tmp := by
  apply BitVec.eq_of_getLsbD_eq
  intro j hj
  rw [getLsbD_mergeField _ _ _ hj, getLsbD_withBitSet _ _ hj, hw]
  by_cases e : j = d.offset
  · subst e
    simp
  · have : ¬(d.offset ≤ j ∧ j < d.offset + 1) := by omega
    rw [if_neg this]
    simp [e]

/-- CLEAR_BIT of a one-bit field writes what WRITE of 0 does (R105). -/
theorem mergeField_zero {d : FDesc} (hw : d.width = 1) (tmp : Word) : mergeField d tmp 0 = withBitClear d tmp := by
  apply BitVec.eq_of_getLsbD_eq
  intro j hj
  rw [getLsbD_mergeField _ _ _ hj, getLsbD_withBitClear _ _ hj, hw]
  by_cases e : j = d.offset
  · subst e
    simp
  · have : ¬(d.offset ≤ j ∧ j < d.offset + 1) := by omega
    rw [if_neg this]
    simp [e]

end Sys2Proof.Machine
end

