-- ==== Sys2Proof/Laws/Config.lean ====
section
/-! SUPPORT. What a valid configuration gives: every field in range, the widths R33 states, narrow fields apart. -/

namespace Sys2Proof

theorem FieldId.mem_all (f : FieldId) : f ∈ FieldId.all := by
  cases f with
  | cmdAddr d => cases d <;> decide
  | cmdData d => cases d <;> decide
  | stsFifo d => cases d <;> decide
  | xferEn d => cases d <;> decide
  | stsFifoEmpty d => cases d <;> decide
  | irqEnable => decide
  | irqEn d => cases d <;> decide
  | irqStatus => decide
  | globalReset => decide
  | busAttr k => cases k <;> decide

namespace Config

variable {cfg : Config}

theorem valid_parts (h : cfg.valid = true) :
    cfg.scalarsOk = true ∧ cfg.basesAligned = true ∧ cfg.offsetsDistinct = true ∧ cfg.selectorsDistinct = true ∧
      cfg.fieldsFit = true ∧ cfg.fieldsApart = true ∧ cfg.widthsAsStated = true ∧ cfg.irqEnInBank = true ∧
      cfg.busAttrsFit = true ∧ cfg.resetEffectFits = true := by
  simpa [Config.valid, and_assoc] using h

theorem valid_scalars (h : cfg.valid = true) :
    1 ≤ cfg.numBanks ∧ 1 ≤ cfg.blockStride ∧ 0 < cfg.interruptTimeout ∧ 1 ≤ cfg.pollLimit ∧ 1 ≤ cfg.countMax ∧
      1 ≤ cfg.numReq := by
  simpa [Config.scalarsOk] using (valid_parts h).1

theorem pollLimit_pos (h : cfg.valid = true) : 1 ≤ cfg.pollLimit := (valid_scalars h).2.2.2.1

theorem countMax_pos (h : cfg.valid = true) : 1 ≤ cfg.countMax := (valid_scalars h).2.2.2.2.1

theorem valid_offsets (h : cfg.valid = true) : cfg.regMapOffset ≠ cfg.bufMapOffset := by
  simpa [Config.offsetsDistinct] using (valid_parts h).2.2.1

theorem valid_selectors (h : cfg.valid = true) : cfg.opSel.toList.Nodup := by
  simpa [Config.selectorsDistinct] using (valid_parts h).2.2.2.1

/-- R35 for every field. -/
theorem valid_fits (h : cfg.valid = true) (f : FieldId) :
    1 ≤ (cfg.field f).width ∧ (cfg.field f).width ≤ 32 ∧ (cfg.field f).offset + (cfg.field f).width ≤ 32 ∧
      (cfg.field f).bank < cfg.numBanks ∧ ((cfg.field f).width = 32 → (cfg.field f).offset = 0) := by
  exact of_decide_eq_true (List.all_eq_true.1 (valid_parts h).2.2.2.2.1 f (FieldId.mem_all f))

/-- Every field lies in a bank of the register space. -/
theorem bank_lt (h : cfg.valid = true) (f : FieldId) : (cfg.field f).bank < cfg.numBanks := (valid_fits h f).2.2.2.1

theorem valid_apart (h : cfg.valid = true) {f g : FieldId} (hne : f ≠ g) : (cfg.field f).apart (cfg.field g) = true := by
  have := List.all_eq_true.1 (List.all_eq_true.1 (valid_parts h).2.2.2.2.2.1 f (FieldId.mem_all f)) g (FieldId.mem_all g)
  simpa [hne] using this

theorem width_of_stated (h : cfg.valid = true) {f : FieldId} {w : Nat} (hf : f.statedWidth = some w) :
    (cfg.field f).width = w := by
  have := List.all_eq_true.1 (valid_parts h).2.2.2.2.2.2.1 f (FieldId.mem_all f)
  simp only [hf, Option.isNone_some, Bool.false_or, beq_iff_eq, Option.some.injEq] at this
  exact this.symm

theorem width_xferEn (h : cfg.valid = true) (d : Dir) : (cfg.field (.xferEn d)).width = 1 := width_of_stated h rfl
theorem width_stsFifoEmpty (h : cfg.valid = true) (d : Dir) : (cfg.field (.stsFifoEmpty d)).width = 1 :=
  width_of_stated h rfl
theorem width_irqEn (h : cfg.valid = true) (d : Dir) : (cfg.field (.irqEn d)).width = 1 := width_of_stated h rfl
theorem width_globalReset (h : cfg.valid = true) : (cfg.field .globalReset).width = 1 := width_of_stated h rfl
theorem width_cmdAddr (h : cfg.valid = true) (d : Dir) : (cfg.field (.cmdAddr d)).width = 32 := width_of_stated h rfl
theorem width_cmdData (h : cfg.valid = true) (d : Dir) : (cfg.field (.cmdData d)).width = 32 := width_of_stated h rfl
theorem width_stsFifo (h : cfg.valid = true) (d : Dir) : (cfg.field (.stsFifo d)).width = 32 := width_of_stated h rfl
theorem width_irqEnable (h : cfg.valid = true) : (cfg.field .irqEnable).width = 32 := width_of_stated h rfl
theorem width_irqStatus (h : cfg.valid = true) : (cfg.field .irqStatus).width = 32 := width_of_stated h rfl

/-- `d_IRQ_EN` lies in the bank of `IRQ_ENABLE` (R33). -/
theorem irqEn_bank (h : cfg.valid = true) (d : Dir) : (cfg.field (.irqEn d)).bank = (cfg.field .irqEnable).bank := by
  have := (valid_parts h).2.2.2.2.2.2.2.1
  simp only [Config.irqEnInBank, decide_eq_true_eq] at this
  cases d
  · exact this.1
  · exact this.2

/-- The reset effect names only banks that exist, each once. -/
theorem valid_resetEffect (h : cfg.valid = true) :
    (∀ e ∈ cfg.devResetEffect.banks, e.bank < cfg.numBanks) ∧ (cfg.devResetEffect.banks.map BankReset.bank).Nodup :=
  of_decide_eq_true (valid_parts h).2.2.2.2.2.2.2.2.2

/-- The reference values of R12 and R34 are a valid configuration. -/
theorem reference_valid : Config.reference.valid = true := by decide

/-- The reference layout meets R38. -/
theorem reference_separated : Config.reference.separated = true := by decide

end Config

end Sys2Proof
end

