-- ==== Sys2Proof/Laws/Decode.lean ====
section
/-! SUPPORT. The fields of a micro-operation word, and field ids. -/

namespace Sys2Proof

/-- The four fields of the word `uopWord` builds. -/
theorem uopWord_fields {code fid d : Nat} (hc : code < 256) (hf : fid < 256) (hd : d < 2) :
    uopCode (uopWord code fid d) = code ∧ uopFid (uopWord code fid d) = fid ∧
      uopD (uopWord code fid d) = decide (d = 1) ∧ uopZ (uopWord code fid d) = 0 := by
  refine ⟨?_, ?_, ?_, ?_⟩
  · simp only [uopCode, uopWord, BitVec.extractLsb'_toNat, BitVec.toNat_ofNat, Nat.shiftRight_eq_div_pow]
    omega
  · simp only [uopFid, uopWord, BitVec.extractLsb'_toNat, BitVec.toNat_ofNat, Nat.shiftRight_eq_div_pow]
    omega
  · simp only [uopD, uopWord, BitVec.getLsbD_ofNat, Nat.testBit_eq_decide_div_mod_eq]
    have h : (code + fid * 2 ^ 8 + d * 2 ^ 16) / 2 ^ 16 % 2 = d := by omega
    rw [h]
    rfl
  · simp only [uopZ, uopWord, BitVec.extractLsb'_toNat, BitVec.toNat_ofNat, Nat.shiftRight_eq_div_pow]
    omega

/-- A word whose `z` is zero is built from its other three fields. -/
theorem eq_uopWord {w : Word} (hz : uopZ w = 0) : w = uopWord (uopCode w) (uopFid w) (if uopD w then 1 else 0) := by
  have hw := w.isLt
  have hd : (if uopD w then 1 else 0) = w.toNat / 2 ^ 16 % 2 := by
    simp only [uopD, BitVec.getLsbD, Nat.testBit_eq_decide_div_mod_eq]
    split <;> rename_i h <;> simp at h <;> omega
  apply BitVec.eq_of_toNat_eq
  rw [hd]
  simp only [uopZ, uopCode, uopFid, uopWord, BitVec.extractLsb'_toNat, BitVec.toNat_ofNat,
    Nat.shiftRight_eq_div_pow] at *
  omega

theorem FieldId.fid_lt (f : FieldId) : f.fid < 19 := by
  cases f with
  | cmdAddr d => cases d <;> decide
  | cmdData d => cases d <;> decide
  | stsFifo d => cases d <;> decide
  | xferEn d => cases d <;> decide
  | stsFifoEmpty d => cases d <;> decide
  | irqEnable => decide
  | irqEn d => cases d <;> decide
  | irqStatus => decide
  | globalReset => decide
  | busAttr k => cases k <;> decide

theorem FieldId.ofFid_fid (f : FieldId) : FieldId.ofFid f.fid = some f := by
  cases f with
  | cmdAddr d => cases d <;> rfl
  | cmdData d => cases d <;> rfl
  | stsFifo d => cases d <;> rfl
  | xferEn d => cases d <;> rfl
  | stsFifoEmpty d => cases d <;> rfl
  | irqEnable => rfl
  | irqEn d => cases d <;> rfl
  | irqStatus => rfl
  | globalReset => rfl
  | busAttr k => cases k <;> rfl

theorem FieldId.fid_of_ofFid {n : Nat} {f : FieldId} (h : FieldId.ofFid n = some f) : f.fid = n := by
  unfold FieldId.ofFid at h
  split at h <;> simp at h <;> subst h <;> rfl

theorem Dir.ofBit_code (d : Dir) : Dir.ofBit (decide (d.code = 1)) = d := by cases d <;> rfl

theorem Dir.code_ofBit (b : Bool) : (Dir.ofBit b).code = if b then 1 else 0 := by cases b <;> rfl

end Sys2Proof
end

