-- ==== Sys2Proof/Laws/Memory.lean ====
section
/-! SUPPORT. The byte memory behind the banks: read after write, bytes and banks left alone, the canonical form. -/

namespace Sys2Proof.Machine

open Sys2Proof

theorem Memory.get_insert_same (m : Memory) (a : Nat) (v : Byte) (h : ∀ c ∈ m, c.1 ≠ a) :
    (Memory.insert m a v).get a = v := by
  induction m with
  | nil => simp [Memory.insert, Memory.get]
  | cons c m ih =>
    have hc : c.1 ≠ a := h c (by simp)
    unfold Memory.insert
    split
    · simp [Memory.get]
    · simp [Memory.get, hc, ih fun d hd => h d (by simp [hd])]

theorem Memory.get_insert_other (m : Memory) {a x : Nat} (v : Byte) (h : x ≠ a) :
    (Memory.insert m a v).get x = m.get x := by
  induction m with
  | nil => simp [Memory.insert, Memory.get, h.symm]
  | cons c m ih =>
    unfold Memory.insert
    split
    · simp [Memory.get, h.symm]
    · simp [Memory.get, ih]

theorem Memory.get_filter_same (m : Memory) (a : Nat) :
    Memory.get (m.filter fun c => c.1 ≠ a) a = unlistedByte := by
  induction m with
  | nil => simp [Memory.get]
  | cons c m ih =>
    by_cases hc : c.1 = a
    · simpa [List.filter_cons, hc] using ih
    · simpa [List.filter_cons, hc, Memory.get] using ih

theorem Memory.get_filter_other (m : Memory) {a x : Nat} (h : x ≠ a) :
    Memory.get (m.filter fun c => c.1 ≠ a) x = m.get x := by
  induction m with
  | nil => simp
  | cons c m ih =>
    by_cases hc : c.1 = a
    · have : c.1 ≠ x := fun e => h (e.symm.trans hc)
      simpa [List.filter_cons, hc, Memory.get, h.symm] using ih
    · by_cases hx : c.1 = x
      · simp [Memory.get, hx, h]
      · simpa [List.filter_cons, hc, Memory.get, hx] using ih

/-- A byte reads as written. -/
theorem Memory.get_set_same (m : Memory) (a : Nat) (v : Byte) : (m.set a v).get a = v := by
  unfold Memory.set
  by_cases hv : v = unlistedByte
  · simpa [hv] using Memory.get_filter_same m a
  · simp only [hv, if_false]
    exact Memory.get_insert_same _ a v (by simp)

/-- Writing a byte leaves every other byte. -/
theorem Memory.get_set_other (m : Memory) {a x : Nat} (v : Byte) (h : x ≠ a) : (m.set a v).get x = m.get x := by
  unfold Memory.set
  by_cases hv : v = unlistedByte
  · simpa [hv] using Memory.get_filter_other m h
  · simp only [hv, if_false]
    exact (Memory.get_insert_other _ v h).trans (Memory.get_filter_other m h)

/-- The canonical form as a statement about all pairs of entries. -/
theorem Memory.wf_iff (m : Memory) :
    m.wf = true ↔ m.Pairwise (fun c d => c.1 < d.1) ∧ ∀ c ∈ m, c.2 ≠ unlistedByte := by
  induction m with
  | nil => simp [Memory.wf]
  | cons c m ih =>
    cases m with
    | nil => simp [Memory.wf]
    | cons d m =>
      simp only [Memory.wf, Bool.and_eq_true, ih, decide_eq_true_eq, bne_iff_ne, List.pairwise_cons,
        List.mem_cons, forall_eq_or_imp]
      constructor
      · rintro ⟨⟨hc, hcd⟩, ⟨hd, hp⟩, hd0, hm⟩
        exact ⟨⟨⟨hcd, fun x hx => Nat.lt_trans hcd (hd x hx)⟩, hd, hp⟩, hc, hd0, hm⟩
      · rintro ⟨⟨⟨hcd, -⟩, hd, hp⟩, hc, hd0, hm⟩
        exact ⟨⟨hc, hcd⟩, ⟨hd, hp⟩, hd0, hm⟩

theorem Memory.mem_insert {m : Memory} {a : Nat} {v : Byte} {c : Host.Cell} :
    c ∈ Memory.insert m a v ↔ c = (a, v) ∨ c ∈ m := by
  induction m with
  | nil => simp [Memory.insert]
  | cons d m ih =>
    unfold Memory.insert
    split
    · simp
    · simp only [List.mem_cons, ih]
      exact or_left_comm

theorem Memory.pairwise_insert {m : Memory} {a : Nat} {v : Byte} (hm : m.Pairwise fun c d => c.1 < d.1)
    (ha : ∀ c ∈ m, c.1 ≠ a) : (Memory.insert m a v).Pairwise fun c d => c.1 < d.1 := by
  induction m with
  | nil => simp [Memory.insert]
  | cons d m ih =>
    have hd := List.pairwise_cons.1 hm
    unfold Memory.insert
    split
    · rename_i hlt
      refine List.pairwise_cons.2 ⟨fun c hc => ?_, hm⟩
      rcases List.mem_cons.1 hc with rfl | hc
      · exact hlt
      · exact Nat.lt_trans hlt (hd.1 c hc)
    · rename_i hge
      refine List.pairwise_cons.2 ⟨fun c hc => ?_, ih hd.2 fun c hc => ha c (List.mem_cons_of_mem _ hc)⟩
      rcases Memory.mem_insert.1 hc with rfl | hc
      · have hne : d.1 ≠ a := ha d (by simp)
        show d.1 < a
        omega
      · exact hd.1 c hc

/-- The entries after a write: the byte written, or entries that were there. -/
theorem Memory.mem_set {m : Memory} {a : Nat} {v : Byte} {c : Host.Cell} (h : c ∈ m.set a v) :
    c = (a, v) ∨ c ∈ m := by
  unfold Memory.set at h
  by_cases hv : v = unlistedByte
  · simp only [hv, if_true] at h
    exact .inr (List.mem_of_mem_filter h)
  · simp only [hv, if_false] at h
    rcases Memory.mem_insert.1 h with h | h
    · exact .inl h
    · exact .inr (List.mem_of_mem_filter h)

/-- Writing a byte keeps the canonical form. -/
theorem Memory.wf_set {m : Memory} (h : m.wf = true) (a : Nat) (v : Byte) : (m.set a v).wf = true := by
  obtain ⟨hp, hz⟩ := (Memory.wf_iff m).1 h
  refine (Memory.wf_iff _).2 ?_
  unfold Memory.set
  by_cases hv : v = unlistedByte
  · simp only [hv, if_true]
    exact ⟨hp.filter _, fun c hc => hz c (List.mem_of_mem_filter hc)⟩
  · simp only [hv, if_false]
    refine ⟨Memory.pairwise_insert (hp.filter _) (by simp), fun c hc => ?_⟩
    rcases Memory.mem_insert.1 hc with rfl | hc
    · exact hv
    · exact hz c (List.mem_of_mem_filter hc)

/-- Writing a bank keeps the canonical form. -/
theorem Memory.wf_setBank {m : Memory} (h : m.wf = true) (o : ByteOrder) (b : Nat) (v : Word) :
    (m.setBank o b v).wf = true :=
  Memory.wf_set (Memory.wf_set (Memory.wf_set (Memory.wf_set h _ _) _ _) _ _) _ _

/-- A lane lies in its own bank. -/
theorem laneAddr_bounds (o : ByteOrder) (b : Nat) {i : Nat} (hi : i < 4) :
    4 * b ≤ laneAddr o b i ∧ laneAddr o b i < 4 * b + 4 := by
  cases o <;> simp only [laneAddr, laneByte] <;> omega

/-- Two lanes are the same byte only if they are the same lane of the same bank. -/
theorem laneAddr_inj (o : ByteOrder) {b e i j : Nat} (hi : i < 4) (hj : j < 4) (h : laneAddr o b i = laneAddr o e j) :
    b = e ∧ i = j := by
  cases o <;> simp only [laneAddr, laneByte] at h <;> omega

/-- Writing a bank leaves every byte outside it. -/
theorem Memory.get_setBank_outside (m : Memory) (o : ByteOrder) (b : Nat) (v : Word) {a : Nat}
    (h : a < 4 * b ∨ 4 * b + 4 ≤ a) : (m.setBank o b v).get a = m.get a := by
  have ne : ∀ i, i < 4 → a ≠ laneAddr o b i := fun i hi e => by
    have := laneAddr_bounds o b hi
    omega
  unfold Memory.setBank
  rw [Memory.get_set_other _ _ (ne 3 (by omega)), Memory.get_set_other _ _ (ne 2 (by omega)),
    Memory.get_set_other _ _ (ne 1 (by omega)), Memory.get_set_other _ _ (ne 0 (by omega))]

/-- The four bytes of a bank after it is written. -/
theorem Memory.get_setBank_lane (m : Memory) (o : ByteOrder) (b : Nat) (v : Word) {i : Nat} (hi : i < 4) :
    (m.setBank o b v).get (laneAddr o b i) = v.extractLsb' (8 * i) 8 := by
  have ne : ∀ {i j}, i < 4 → j < 4 → i ≠ j → laneAddr o b i ≠ laneAddr o b j := fun hi hj hne e =>
    hne (laneAddr_inj o hi hj e).2
  unfold Memory.setBank
  have h4 : i = 0 ∨ i = 1 ∨ i = 2 ∨ i = 3 := by omega
  rcases h4 with rfl | rfl | rfl | rfl
  · rw [Memory.get_set_other _ _ (ne (by omega) (by omega) (by omega)),
      Memory.get_set_other _ _ (ne (by omega) (by omega) (by omega)),
      Memory.get_set_other _ _ (ne (by omega) (by omega) (by omega)), Memory.get_set_same]
  · rw [Memory.get_set_other _ _ (ne (by omega) (by omega) (by omega)),
      Memory.get_set_other _ _ (ne (by omega) (by omega) (by omega)), Memory.get_set_same]
  · rw [Memory.get_set_other _ _ (ne (by omega) (by omega) (by omega)), Memory.get_set_same]
  · rw [Memory.get_set_same]

/-- A word is its four bytes. -/
theorem word_of_bytes (v : Word) :
    v.extractLsb' 24 8 ++ v.extractLsb' 16 8 ++ v.extractLsb' 8 8 ++ v.extractLsb' 0 8 = v := by
  apply BitVec.eq_of_getLsbD_eq
  intro i hi
  simp only [BitVec.getLsbD_append, BitVec.getLsbD_extractLsb']
  split
  · simp [*]
  · split
    · have : 8 + (i - 8) = i := by omega
      simp [*]
    · split
      · have : 16 + (i - 8 - 8) = i := by omega
        simp [*]
      · have : 24 + (i - 8 - 8 - 8) = i := by omega
        have : i - 8 - 8 - 8 < 8 := by omega
        simp [*]

/-- A bank reads as written. -/
theorem Memory.bank_setBank_same (m : Memory) (o : ByteOrder) (b : Nat) (v : Word) :
    (m.setBank o b v).bank o b = v := by
  unfold Memory.bank
  rw [Memory.get_setBank_lane m o b v (i := 3) (by omega), Memory.get_setBank_lane m o b v (i := 2) (by omega),
    Memory.get_setBank_lane m o b v (i := 1) (by omega), Memory.get_setBank_lane m o b v (i := 0) (by omega)]
  exact word_of_bytes v

/-- Writing a bank leaves every other bank. -/
theorem Memory.bank_setBank_other (m : Memory) (o : ByteOrder) {b e : Nat} (v : Word) (h : e ≠ b) :
    (m.setBank o b v).bank o e = m.bank o e := by
  have out : ∀ i, i < 4 → (m.setBank o b v).get (laneAddr o e i) = m.get (laneAddr o e i) := fun i hi => by
    refine Memory.get_setBank_outside m o b v ?_
    have := laneAddr_bounds o e hi
    omega
  unfold Memory.bank
  rw [out 3 (by omega), out 2 (by omega), out 1 (by omega), out 0 (by omega)]

/-- The entries after a bank is written lie in that bank or were there. -/
theorem Memory.addr_setBank {m : Memory} {o : ByteOrder} {b : Nat} {v : Word} {c : Host.Cell}
    (h : c ∈ m.setBank o b v) : (4 * b ≤ c.1 ∧ c.1 < 4 * b + 4) ∨ c ∈ m := by
  unfold Memory.setBank at h
  rcases Memory.mem_set h with rfl | h
  · exact .inl (laneAddr_bounds o b (by omega))
  rcases Memory.mem_set h with rfl | h
  · exact .inl (laneAddr_bounds o b (by omega))
  rcases Memory.mem_set h with rfl | h
  · exact .inl (laneAddr_bounds o b (by omega))
  rcases Memory.mem_set h with rfl | h
  · exact .inl (laneAddr_bounds o b (by omega))
  exact .inr h

end Sys2Proof.Machine
end

