-- ==== Sys2Proof/Laws/State.lean ====
section
/-! SUPPORT. What the named updates of a state do to each field, so that no proof unfolds a record update. -/

namespace Sys2Proof.Machine

open Sys2Proof

/-! ### Values per direction -/

@[simp] theorem PerDir.get_set_same {α : Type} (x : PerDir α) (d : Dir) (v : α) : (x.set d v).get d = v := by
  cases d <;> rfl

theorem PerDir.get_set_other {α : Type} (x : PerDir α) {d e : Dir} (v : α) (h : e ≠ d) : (x.set d v).get e = x.get e := by
  cases d <;> cases e <;> first | rfl | exact absurd rfl h

theorem PerDir.get_set {α : Type} (x : PerDir α) (d e : Dir) (v : α) :
    (x.set d v).get e = if e = d then v else x.get e := by
  cases d <;> cases e <;> rfl

theorem PerDir.ext_get {α : Type} {x y : PerDir α} (h : ∀ d, x.get d = y.get d) : x = y := by
  cases x
  cases y
  have hm := h .mm2s
  have hs := h .s2mm
  simp only [PerDir.get] at hm hs
  rw [hm, hs]


/-! ### `ctx[r] <- c` -/

@[simp] theorem State.setCtx_cfg (s : State) (r : Nat) (c : Ctx) : (s.setCtx r c).cfg = s.cfg := rfl
@[simp] theorem State.setCtx_lock (s : State) (r : Nat) (c : Ctx) : (s.setCtx r c).lock = s.lock := rfl
@[simp] theorem State.setCtx_count (s : State) (r : Nat) (c : Ctx) : (s.setCtx r c).count = s.count := rfl
@[simp] theorem State.setCtx_ctxs (s : State) (r : Nat) (c : Ctx) : (s.setCtx r c).ctxs = s.ctxs.set r c := rfl
@[simp] theorem State.setCtx_dispPc (s : State) (r : Nat) (c : Ctx) : (s.setCtx r c).dispPc = s.dispPc := rfl
@[simp] theorem State.setCtx_dispHeldM (s : State) (r : Nat) (c : Ctx) : (s.setCtx r c).dispHeldM = s.dispHeldM := rfl
@[simp] theorem State.setCtx_dispHeldS (s : State) (r : Nat) (c : Ctx) : (s.setCtx r c).dispHeldS = s.dispHeldS := rfl
@[simp] theorem State.setCtx_dispStopped (s : State) (r : Nat) (c : Ctx) : (s.setCtx r c).dispStopped = s.dispStopped := rfl
@[simp] theorem State.setCtx_irqPending (s : State) (r : Nat) (c : Ctx) : (s.setCtx r c).irqPending = s.irqPending := rfl
@[simp] theorem State.setCtx_errlog (s : State) (r : Nat) (c : Ctx) : (s.setCtx r c).errlog = s.errlog := rfl
@[simp] theorem State.setCtx_fault (s : State) (r : Nat) (c : Ctx) : (s.setCtx r c).fault = s.fault := rfl
@[simp] theorem State.setCtx_dregs (s : State) (r : Nat) (c : Ctx) : (s.setCtx r c).dregs = s.dregs := rfl
@[simp] theorem State.setCtx_fifo (s : State) (r : Nat) (c : Ctx) : (s.setCtx r c).fifo = s.fifo := rfl
@[simp] theorem State.setCtx_busy (s : State) (r : Nat) (c : Ctx) : (s.setCtx r c).busy = s.busy := rfl
@[simp] theorem State.setCtx_extDev (s : State) (r : Nat) (c : Ctx) : (s.setCtx r c).extDev = s.extDev := rfl
@[simp] theorem State.setCtx_devStopped (s : State) (r : Nat) (c : Ctx) : (s.setCtx r c).devStopped = s.devStopped := rfl
@[simp] theorem State.setCtx_portLog (s : State) (r : Nat) (c : Ctx) : (s.setCtx r c).portLog = s.portLog := rfl
@[simp] theorem State.setCtx_sched (s : State) (r : Nat) (c : Ctx) : (s.setCtx r c).sched = s.sched := rfl
@[simp] theorem State.setCtx_tick (s : State) (r : Nat) (c : Ctx) : (s.setCtx r c).tick = s.tick := rfl
@[simp] theorem State.setCtx_draws (s : State) (r : Nat) (c : Ctx) : (s.setCtx r c).draws = s.draws := rfl
@[simp] theorem State.setCtx_cur (s : State) (r : Nat) (c : Ctx) : (s.setCtx r c).cur = s.cur := rfl

/-! ### The agent a command belongs to -/

@[simp] theorem State.present_cfg (s : State) (a : Agent) : (s.present a).cfg = s.cfg := rfl
@[simp] theorem State.present_lock (s : State) (a : Agent) : (s.present a).lock = s.lock := rfl
@[simp] theorem State.present_count (s : State) (a : Agent) : (s.present a).count = s.count := rfl
@[simp] theorem State.present_ctxs (s : State) (a : Agent) : (s.present a).ctxs = s.ctxs := rfl
@[simp] theorem State.present_dispPc (s : State) (a : Agent) : (s.present a).dispPc = s.dispPc := rfl
@[simp] theorem State.present_dispHeldM (s : State) (a : Agent) : (s.present a).dispHeldM = s.dispHeldM := rfl
@[simp] theorem State.present_dispHeldS (s : State) (a : Agent) : (s.present a).dispHeldS = s.dispHeldS := rfl
@[simp] theorem State.present_dispStopped (s : State) (a : Agent) : (s.present a).dispStopped = s.dispStopped := rfl
@[simp] theorem State.present_irqPending (s : State) (a : Agent) : (s.present a).irqPending = s.irqPending := rfl
@[simp] theorem State.present_errlog (s : State) (a : Agent) : (s.present a).errlog = s.errlog := rfl
@[simp] theorem State.present_fault (s : State) (a : Agent) : (s.present a).fault = s.fault := rfl
@[simp] theorem State.present_dregs (s : State) (a : Agent) : (s.present a).dregs = s.dregs := rfl
@[simp] theorem State.present_fifo (s : State) (a : Agent) : (s.present a).fifo = s.fifo := rfl
@[simp] theorem State.present_busy (s : State) (a : Agent) : (s.present a).busy = s.busy := rfl
@[simp] theorem State.present_extDev (s : State) (a : Agent) : (s.present a).extDev = s.extDev := rfl
@[simp] theorem State.present_devStopped (s : State) (a : Agent) : (s.present a).devStopped = s.devStopped := rfl
@[simp] theorem State.present_portLog (s : State) (a : Agent) : (s.present a).portLog = s.portLog := rfl
@[simp] theorem State.present_sched (s : State) (a : Agent) : (s.present a).sched = s.sched := rfl
@[simp] theorem State.present_tick (s : State) (a : Agent) : (s.present a).tick = s.tick := rfl
@[simp] theorem State.present_draws (s : State) (a : Agent) : (s.present a).draws = s.draws := rfl
@[simp] theorem State.present_cur (s : State) (a : Agent) : (s.present a).cur = a := rfl

/-! ### One interrupt event -/

@[simp] theorem State.raiseIrq_cfg (s : State) : (s.raiseIrq).cfg = s.cfg := rfl
@[simp] theorem State.raiseIrq_lock (s : State) : (s.raiseIrq).lock = s.lock := rfl
@[simp] theorem State.raiseIrq_count (s : State) : (s.raiseIrq).count = s.count := rfl
@[simp] theorem State.raiseIrq_ctxs (s : State) : (s.raiseIrq).ctxs = s.ctxs := rfl
@[simp] theorem State.raiseIrq_dispPc (s : State) : (s.raiseIrq).dispPc = s.dispPc := rfl
@[simp] theorem State.raiseIrq_dispHeldM (s : State) : (s.raiseIrq).dispHeldM = s.dispHeldM := rfl
@[simp] theorem State.raiseIrq_dispHeldS (s : State) : (s.raiseIrq).dispHeldS = s.dispHeldS := rfl
@[simp] theorem State.raiseIrq_dispStopped (s : State) : (s.raiseIrq).dispStopped = s.dispStopped := rfl
@[simp] theorem State.raiseIrq_irqPending (s : State) : (s.raiseIrq).irqPending = s.irqPending + 1 := rfl
@[simp] theorem State.raiseIrq_errlog (s : State) : (s.raiseIrq).errlog = s.errlog := rfl
@[simp] theorem State.raiseIrq_fault (s : State) : (s.raiseIrq).fault = s.fault := rfl
@[simp] theorem State.raiseIrq_dregs (s : State) : (s.raiseIrq).dregs = s.dregs := rfl
@[simp] theorem State.raiseIrq_fifo (s : State) : (s.raiseIrq).fifo = s.fifo := rfl
@[simp] theorem State.raiseIrq_busy (s : State) : (s.raiseIrq).busy = s.busy := rfl
@[simp] theorem State.raiseIrq_extDev (s : State) : (s.raiseIrq).extDev = s.extDev := rfl
@[simp] theorem State.raiseIrq_devStopped (s : State) : (s.raiseIrq).devStopped = s.devStopped := rfl
@[simp] theorem State.raiseIrq_portLog (s : State) : (s.raiseIrq).portLog = s.portLog := rfl
@[simp] theorem State.raiseIrq_sched (s : State) : (s.raiseIrq).sched = s.sched := rfl
@[simp] theorem State.raiseIrq_tick (s : State) : (s.raiseIrq).tick = s.tick := rfl
@[simp] theorem State.raiseIrq_draws (s : State) : (s.raiseIrq).draws = s.draws := rfl
@[simp] theorem State.raiseIrq_cur (s : State) : (s.raiseIrq).cur = s.cur := rfl

/-! ### One draw -/

@[simp] theorem State.drawn_cfg (s : State) : (s.drawn).cfg = s.cfg := rfl
@[simp] theorem State.drawn_lock (s : State) : (s.drawn).lock = s.lock := rfl
@[simp] theorem State.drawn_count (s : State) : (s.drawn).count = s.count := rfl
@[simp] theorem State.drawn_ctxs (s : State) : (s.drawn).ctxs = s.ctxs := rfl
@[simp] theorem State.drawn_dispPc (s : State) : (s.drawn).dispPc = s.dispPc := rfl
@[simp] theorem State.drawn_dispHeldM (s : State) : (s.drawn).dispHeldM = s.dispHeldM := rfl
@[simp] theorem State.drawn_dispHeldS (s : State) : (s.drawn).dispHeldS = s.dispHeldS := rfl
@[simp] theorem State.drawn_dispStopped (s : State) : (s.drawn).dispStopped = s.dispStopped := rfl
@[simp] theorem State.drawn_irqPending (s : State) : (s.drawn).irqPending = s.irqPending := rfl
@[simp] theorem State.drawn_errlog (s : State) : (s.drawn).errlog = s.errlog := rfl
@[simp] theorem State.drawn_fault (s : State) : (s.drawn).fault = s.fault := rfl
@[simp] theorem State.drawn_dregs (s : State) : (s.drawn).dregs = s.dregs := rfl
@[simp] theorem State.drawn_fifo (s : State) : (s.drawn).fifo = s.fifo := rfl
@[simp] theorem State.drawn_busy (s : State) : (s.drawn).busy = s.busy := rfl
@[simp] theorem State.drawn_extDev (s : State) : (s.drawn).extDev = s.extDev := rfl
@[simp] theorem State.drawn_devStopped (s : State) : (s.drawn).devStopped = s.devStopped := rfl
@[simp] theorem State.drawn_portLog (s : State) : (s.drawn).portLog = s.portLog := rfl
@[simp] theorem State.drawn_sched (s : State) : (s.drawn).sched = s.sched := rfl
@[simp] theorem State.drawn_tick (s : State) : (s.drawn).tick = s.tick := rfl
@[simp] theorem State.drawn_draws (s : State) : (s.drawn).draws = s.draws + 1 := rfl
@[simp] theorem State.drawn_cur (s : State) : (s.drawn).cur = s.cur := rfl

/-! ### Contexts -/

/-- There is a requester r: its number is below NUM_REQ. -/
theorem State.ctx?_lt {s : State} {r : Nat} {c : Ctx} (h : s.ctx? r = some c) : r < s.ctxs.length :=
  (List.getElem?_eq_some_iff.1 h).1

theorem State.ctx?_setCtx_same {s : State} {r : Nat} {c₀ : Ctx} (c : Ctx) (h : s.ctx? r = some c₀) :
    (s.setCtx r c).ctx? r = some c := by
  have hlt := State.ctx?_lt h
  simp [State.ctx?, hlt]

theorem State.ctx?_setCtx_other (s : State) {r q : Nat} (c : Ctx) (h : q ≠ r) : (s.setCtx r c).ctx? q = s.ctx? q := by
  simp [State.ctx?, h.symm]

/-- Writing a context again replaces what was written. -/
theorem State.setCtx_setCtx (s : State) (r : Nat) (c e : Ctx) : (s.setCtx r c).setCtx r e = s.setCtx r e := by
  simp [State.setCtx]

/-! ### Stopping an agent (R276) -/

@[simp] theorem State.stop_cfg (s : State) (a : Agent) : (s.stop a).cfg = s.cfg := by
  cases a with
  | requester r => cases h : s.ctx? r <;> simp [State.stop, h]
  | dispatcher => rfl
  | device => rfl
@[simp] theorem State.stop_lock (s : State) (a : Agent) : (s.stop a).lock = s.lock := by
  cases a with
  | requester r => cases h : s.ctx? r <;> simp [State.stop, h]
  | dispatcher => rfl
  | device => rfl
@[simp] theorem State.stop_count (s : State) (a : Agent) : (s.stop a).count = s.count := by
  cases a with
  | requester r => cases h : s.ctx? r <;> simp [State.stop, h]
  | dispatcher => rfl
  | device => rfl
@[simp] theorem State.stop_dispPc (s : State) (a : Agent) : (s.stop a).dispPc = s.dispPc := by
  cases a with
  | requester r => cases h : s.ctx? r <;> simp [State.stop, h]
  | dispatcher => rfl
  | device => rfl
@[simp] theorem State.stop_dispHeldM (s : State) (a : Agent) : (s.stop a).dispHeldM = s.dispHeldM := by
  cases a with
  | requester r => cases h : s.ctx? r <;> simp [State.stop, h]
  | dispatcher => rfl
  | device => rfl
@[simp] theorem State.stop_dispHeldS (s : State) (a : Agent) : (s.stop a).dispHeldS = s.dispHeldS := by
  cases a with
  | requester r => cases h : s.ctx? r <;> simp [State.stop, h]
  | dispatcher => rfl
  | device => rfl
@[simp] theorem State.stop_irqPending (s : State) (a : Agent) : (s.stop a).irqPending = s.irqPending := by
  cases a with
  | requester r => cases h : s.ctx? r <;> simp [State.stop, h]
  | dispatcher => rfl
  | device => rfl
@[simp] theorem State.stop_errlog (s : State) (a : Agent) : (s.stop a).errlog = s.errlog := by
  cases a with
  | requester r => cases h : s.ctx? r <;> simp [State.stop, h]
  | dispatcher => rfl
  | device => rfl
@[simp] theorem State.stop_fault (s : State) (a : Agent) : (s.stop a).fault = s.fault := by
  cases a with
  | requester r => cases h : s.ctx? r <;> simp [State.stop, h]
  | dispatcher => rfl
  | device => rfl
@[simp] theorem State.stop_dregs (s : State) (a : Agent) : (s.stop a).dregs = s.dregs := by
  cases a with
  | requester r => cases h : s.ctx? r <;> simp [State.stop, h]
  | dispatcher => rfl
  | device => rfl
@[simp] theorem State.stop_fifo (s : State) (a : Agent) : (s.stop a).fifo = s.fifo := by
  cases a with
  | requester r => cases h : s.ctx? r <;> simp [State.stop, h]
  | dispatcher => rfl
  | device => rfl
@[simp] theorem State.stop_busy (s : State) (a : Agent) : (s.stop a).busy = s.busy := by
  cases a with
  | requester r => cases h : s.ctx? r <;> simp [State.stop, h]
  | dispatcher => rfl
  | device => rfl
@[simp] theorem State.stop_extDev (s : State) (a : Agent) : (s.stop a).extDev = s.extDev := by
  cases a with
  | requester r => cases h : s.ctx? r <;> simp [State.stop, h]
  | dispatcher => rfl
  | device => rfl
@[simp] theorem State.stop_portLog (s : State) (a : Agent) : (s.stop a).portLog = s.portLog := by
  cases a with
  | requester r => cases h : s.ctx? r <;> simp [State.stop, h]
  | dispatcher => rfl
  | device => rfl
@[simp] theorem State.stop_sched (s : State) (a : Agent) : (s.stop a).sched = s.sched := by
  cases a with
  | requester r => cases h : s.ctx? r <;> simp [State.stop, h]
  | dispatcher => rfl
  | device => rfl
@[simp] theorem State.stop_tick (s : State) (a : Agent) : (s.stop a).tick = s.tick := by
  cases a with
  | requester r => cases h : s.ctx? r <;> simp [State.stop, h]
  | dispatcher => rfl
  | device => rfl
@[simp] theorem State.stop_draws (s : State) (a : Agent) : (s.stop a).draws = s.draws := by
  cases a with
  | requester r => cases h : s.ctx? r <;> simp [State.stop, h]
  | dispatcher => rfl
  | device => rfl
@[simp] theorem State.stop_cur (s : State) (a : Agent) : (s.stop a).cur = s.cur := by
  cases a with
  | requester r => cases h : s.ctx? r <;> simp [State.stop, h]
  | dispatcher => rfl
  | device => rfl

/-! ### Taking an item from the schedule -/

@[simp] theorem State.taken_cfg (s : State) : s.taken.cfg = s.cfg := by
  unfold State.taken; split <;> rfl
@[simp] theorem State.taken_lock (s : State) : s.taken.lock = s.lock := by
  unfold State.taken; split <;> rfl
@[simp] theorem State.taken_count (s : State) : s.taken.count = s.count := by
  unfold State.taken; split <;> rfl
@[simp] theorem State.taken_ctxs (s : State) : s.taken.ctxs = s.ctxs := by
  unfold State.taken; split <;> rfl
@[simp] theorem State.taken_dispPc (s : State) : s.taken.dispPc = s.dispPc := by
  unfold State.taken; split <;> rfl
@[simp] theorem State.taken_dispHeldM (s : State) : s.taken.dispHeldM = s.dispHeldM := by
  unfold State.taken; split <;> rfl
@[simp] theorem State.taken_dispHeldS (s : State) : s.taken.dispHeldS = s.dispHeldS := by
  unfold State.taken; split <;> rfl
@[simp] theorem State.taken_dispStopped (s : State) : s.taken.dispStopped = s.dispStopped := by
  unfold State.taken; split <;> rfl
@[simp] theorem State.taken_irqPending (s : State) : s.taken.irqPending = s.irqPending := by
  unfold State.taken; split <;> rfl
@[simp] theorem State.taken_errlog (s : State) : s.taken.errlog = s.errlog := by
  unfold State.taken; split <;> rfl
@[simp] theorem State.taken_fault (s : State) : s.taken.fault = s.fault := by
  unfold State.taken; split <;> rfl
@[simp] theorem State.taken_dregs (s : State) : s.taken.dregs = s.dregs := by
  unfold State.taken; split <;> rfl
@[simp] theorem State.taken_fifo (s : State) : s.taken.fifo = s.fifo := by
  unfold State.taken; split <;> rfl
@[simp] theorem State.taken_busy (s : State) : s.taken.busy = s.busy := by
  unfold State.taken; split <;> rfl
@[simp] theorem State.taken_devStopped (s : State) : s.taken.devStopped = s.devStopped := by
  unfold State.taken; split <;> rfl
@[simp] theorem State.taken_extDev (s : State) : s.taken.extDev = s.extDev := by
  unfold State.taken; split <;> rfl
@[simp] theorem State.taken_portLog (s : State) : s.taken.portLog = s.portLog := by
  unfold State.taken; split <;> rfl
@[simp] theorem State.taken_draws (s : State) : s.taken.draws = s.draws := by
  unfold State.taken; split <;> rfl
@[simp] theorem State.taken_cur (s : State) : s.taken.cur = s.cur := by
  unfold State.taken; split <;> rfl

end Sys2Proof.Machine
end

