-- ==== Sys2Proof/Laws/Port.lean ====
section
/-! SUPPORT. The REG port and the device: what each access leaves alone, what storage banks read and hold, and the
accesses in a valid configuration. -/

namespace Sys2Proof.Machine

open Sys2Proof

/-! ### Fields a read leaves alone -/

/-- A read changes only what the device holds. -/
theorem State.readEffect_eq (s : State) (b : Nat) : s.readEffect b =
    { s with fifo := (s.readEffect b).fifo, draws := (s.readEffect b).draws, extDev := (s.readEffect b).extDev } := by
  unfold State.readEffect State.refReadEffect
  split
  · split <;> split <;> rfl
  · rfl

@[simp] theorem State.readEffect_cfg (s : State) (b : Nat) : (s.readEffect b).cfg = s.cfg := by
  rw [s.readEffect_eq b]
@[simp] theorem State.readEffect_lock (s : State) (b : Nat) : (s.readEffect b).lock = s.lock := by
  rw [s.readEffect_eq b]
@[simp] theorem State.readEffect_count (s : State) (b : Nat) : (s.readEffect b).count = s.count := by
  rw [s.readEffect_eq b]
@[simp] theorem State.readEffect_ctxs (s : State) (b : Nat) : (s.readEffect b).ctxs = s.ctxs := by
  rw [s.readEffect_eq b]
@[simp] theorem State.readEffect_dispPc (s : State) (b : Nat) : (s.readEffect b).dispPc = s.dispPc := by
  rw [s.readEffect_eq b]
@[simp] theorem State.readEffect_dispHeldM (s : State) (b : Nat) : (s.readEffect b).dispHeldM = s.dispHeldM := by
  rw [s.readEffect_eq b]
@[simp] theorem State.readEffect_dispHeldS (s : State) (b : Nat) : (s.readEffect b).dispHeldS = s.dispHeldS := by
  rw [s.readEffect_eq b]
@[simp] theorem State.readEffect_devStopped (s : State) (b : Nat) : (s.readEffect b).devStopped = s.devStopped := by
  rw [s.readEffect_eq b]
@[simp] theorem State.readEffect_dispStopped (s : State) (b : Nat) : (s.readEffect b).dispStopped = s.dispStopped := by
  rw [s.readEffect_eq b]
@[simp] theorem State.readEffect_irqPending (s : State) (b : Nat) : (s.readEffect b).irqPending = s.irqPending := by
  rw [s.readEffect_eq b]
@[simp] theorem State.readEffect_errlog (s : State) (b : Nat) : (s.readEffect b).errlog = s.errlog := by
  rw [s.readEffect_eq b]
@[simp] theorem State.readEffect_fault (s : State) (b : Nat) : (s.readEffect b).fault = s.fault := by
  rw [s.readEffect_eq b]
@[simp] theorem State.readEffect_dregs (s : State) (b : Nat) : (s.readEffect b).dregs = s.dregs := by
  rw [s.readEffect_eq b]
@[simp] theorem State.readEffect_busy (s : State) (b : Nat) : (s.readEffect b).busy = s.busy := by
  rw [s.readEffect_eq b]
@[simp] theorem State.readEffect_portLog (s : State) (b : Nat) : (s.readEffect b).portLog = s.portLog := by
  rw [s.readEffect_eq b]
@[simp] theorem State.readEffect_sched (s : State) (b : Nat) : (s.readEffect b).sched = s.sched := by
  rw [s.readEffect_eq b]
@[simp] theorem State.readEffect_tick (s : State) (b : Nat) : (s.readEffect b).tick = s.tick := by
  rw [s.readEffect_eq b]
@[simp] theorem State.readEffect_cur (s : State) (b : Nat) : (s.readEffect b).cur = s.cur := by
  rw [s.readEffect_eq b]
@[simp] theorem State.afterRead_cfg (s : State) (b : Nat) : (s.afterRead b).cfg = s.cfg := s.readEffect_cfg b
@[simp] theorem State.afterRead_lock (s : State) (b : Nat) : (s.afterRead b).lock = s.lock := s.readEffect_lock b
@[simp] theorem State.afterRead_count (s : State) (b : Nat) : (s.afterRead b).count = s.count := s.readEffect_count b
@[simp] theorem State.afterRead_ctxs (s : State) (b : Nat) : (s.afterRead b).ctxs = s.ctxs := s.readEffect_ctxs b
@[simp] theorem State.afterRead_dispPc (s : State) (b : Nat) : (s.afterRead b).dispPc = s.dispPc := s.readEffect_dispPc b
@[simp] theorem State.afterRead_dispHeldM (s : State) (b : Nat) : (s.afterRead b).dispHeldM = s.dispHeldM := s.readEffect_dispHeldM b
@[simp] theorem State.afterRead_dispHeldS (s : State) (b : Nat) : (s.afterRead b).dispHeldS = s.dispHeldS := s.readEffect_dispHeldS b
@[simp] theorem State.afterRead_devStopped (s : State) (b : Nat) : (s.afterRead b).devStopped = s.devStopped := s.readEffect_devStopped b
@[simp] theorem State.afterRead_extDev (s : State) (b : Nat) : (s.afterRead b).extDev = (s.readEffect b).extDev := rfl
@[simp] theorem State.afterRead_dispStopped (s : State) (b : Nat) : (s.afterRead b).dispStopped = s.dispStopped := s.readEffect_dispStopped b
@[simp] theorem State.afterRead_irqPending (s : State) (b : Nat) : (s.afterRead b).irqPending = s.irqPending := s.readEffect_irqPending b
@[simp] theorem State.afterRead_errlog (s : State) (b : Nat) : (s.afterRead b).errlog = s.errlog := s.readEffect_errlog b
@[simp] theorem State.afterRead_fault (s : State) (b : Nat) : (s.afterRead b).fault = s.fault := s.readEffect_fault b
@[simp] theorem State.afterRead_dregs (s : State) (b : Nat) : (s.afterRead b).dregs = s.dregs := s.readEffect_dregs b
@[simp] theorem State.afterRead_fifo (s : State) (b : Nat) : (s.afterRead b).fifo = (s.readEffect b).fifo := rfl
@[simp] theorem State.afterRead_busy (s : State) (b : Nat) : (s.afterRead b).busy = s.busy := s.readEffect_busy b
@[simp] theorem State.afterRead_portLog (s : State) (b : Nat) : (s.afterRead b).portLog = .read b (s.readValue b) :: s.portLog := rfl
@[simp] theorem State.afterRead_sched (s : State) (b : Nat) : (s.afterRead b).sched = s.sched := s.readEffect_sched b
@[simp] theorem State.afterRead_tick (s : State) (b : Nat) : (s.afterRead b).tick = s.tick := s.readEffect_tick b
@[simp] theorem State.afterRead_draws (s : State) (b : Nat) : (s.afterRead b).draws = (s.readEffect b).draws := rfl
@[simp] theorem State.afterRead_cur (s : State) (b : Nat) : (s.afterRead b).cur = s.cur := s.readEffect_cur b

/-! ### Fields a write leaves alone -/

/-- A write changes only what the device holds. -/
theorem State.writeEffect_eq (s : State) (b : Nat) (v : Word) : s.writeEffect b v =
    { s with
      dregs := (s.writeEffect b v).dregs, fifo := (s.writeEffect b v).fifo, busy := (s.writeEffect b v).busy
      draws := (s.writeEffect b v).draws, extDev := (s.writeEffect b v).extDev } := by
  unfold State.writeEffect State.refWriteEffect
  split
  · split
    · rfl
    · split <;> rfl
  · rfl

@[simp] theorem State.writeEffect_cfg (s : State) (b : Nat) (v : Word) : (s.writeEffect b v).cfg = s.cfg := by
  rw [s.writeEffect_eq b v]
@[simp] theorem State.writeEffect_lock (s : State) (b : Nat) (v : Word) : (s.writeEffect b v).lock = s.lock := by
  rw [s.writeEffect_eq b v]
@[simp] theorem State.writeEffect_count (s : State) (b : Nat) (v : Word) : (s.writeEffect b v).count = s.count := by
  rw [s.writeEffect_eq b v]
@[simp] theorem State.writeEffect_ctxs (s : State) (b : Nat) (v : Word) : (s.writeEffect b v).ctxs = s.ctxs := by
  rw [s.writeEffect_eq b v]
@[simp] theorem State.writeEffect_dispPc (s : State) (b : Nat) (v : Word) : (s.writeEffect b v).dispPc = s.dispPc := by
  rw [s.writeEffect_eq b v]
@[simp] theorem State.writeEffect_dispHeldM (s : State) (b : Nat) (v : Word) : (s.writeEffect b v).dispHeldM = s.dispHeldM := by
  rw [s.writeEffect_eq b v]
@[simp] theorem State.writeEffect_dispHeldS (s : State) (b : Nat) (v : Word) : (s.writeEffect b v).dispHeldS = s.dispHeldS := by
  rw [s.writeEffect_eq b v]
@[simp] theorem State.writeEffect_devStopped (s : State) (b : Nat) (v : Word) : (s.writeEffect b v).devStopped = s.devStopped := by
  rw [s.writeEffect_eq b v]
@[simp] theorem State.writeEffect_dispStopped (s : State) (b : Nat) (v : Word) : (s.writeEffect b v).dispStopped = s.dispStopped := by
  rw [s.writeEffect_eq b v]
@[simp] theorem State.writeEffect_irqPending (s : State) (b : Nat) (v : Word) : (s.writeEffect b v).irqPending = s.irqPending := by
  rw [s.writeEffect_eq b v]
@[simp] theorem State.writeEffect_errlog (s : State) (b : Nat) (v : Word) : (s.writeEffect b v).errlog = s.errlog := by
  rw [s.writeEffect_eq b v]
@[simp] theorem State.writeEffect_fault (s : State) (b : Nat) (v : Word) : (s.writeEffect b v).fault = s.fault := by
  rw [s.writeEffect_eq b v]
@[simp] theorem State.writeEffect_portLog (s : State) (b : Nat) (v : Word) : (s.writeEffect b v).portLog = s.portLog := by
  rw [s.writeEffect_eq b v]
@[simp] theorem State.writeEffect_sched (s : State) (b : Nat) (v : Word) : (s.writeEffect b v).sched = s.sched := by
  rw [s.writeEffect_eq b v]
@[simp] theorem State.writeEffect_tick (s : State) (b : Nat) (v : Word) : (s.writeEffect b v).tick = s.tick := by
  rw [s.writeEffect_eq b v]
@[simp] theorem State.writeEffect_cur (s : State) (b : Nat) (v : Word) : (s.writeEffect b v).cur = s.cur := by
  rw [s.writeEffect_eq b v]
@[simp] theorem State.afterWrite_cfg (s : State) (b : Nat) (v : Word) : (s.afterWrite b v).cfg = s.cfg := s.writeEffect_cfg b v
@[simp] theorem State.afterWrite_lock (s : State) (b : Nat) (v : Word) : (s.afterWrite b v).lock = s.lock := s.writeEffect_lock b v
@[simp] theorem State.afterWrite_count (s : State) (b : Nat) (v : Word) : (s.afterWrite b v).count = s.count := s.writeEffect_count b v
@[simp] theorem State.afterWrite_ctxs (s : State) (b : Nat) (v : Word) : (s.afterWrite b v).ctxs = s.ctxs := s.writeEffect_ctxs b v
@[simp] theorem State.afterWrite_dispPc (s : State) (b : Nat) (v : Word) : (s.afterWrite b v).dispPc = s.dispPc := s.writeEffect_dispPc b v
@[simp] theorem State.afterWrite_dispHeldM (s : State) (b : Nat) (v : Word) : (s.afterWrite b v).dispHeldM = s.dispHeldM := s.writeEffect_dispHeldM b v
@[simp] theorem State.afterWrite_dispHeldS (s : State) (b : Nat) (v : Word) : (s.afterWrite b v).dispHeldS = s.dispHeldS := s.writeEffect_dispHeldS b v
@[simp] theorem State.afterWrite_devStopped (s : State) (b : Nat) (v : Word) : (s.afterWrite b v).devStopped = s.devStopped := s.writeEffect_devStopped b v
@[simp] theorem State.afterWrite_extDev (s : State) (b : Nat) (v : Word) : (s.afterWrite b v).extDev = (s.writeEffect b v).extDev := rfl
@[simp] theorem State.afterWrite_dispStopped (s : State) (b : Nat) (v : Word) : (s.afterWrite b v).dispStopped = s.dispStopped := s.writeEffect_dispStopped b v
@[simp] theorem State.afterWrite_irqPending (s : State) (b : Nat) (v : Word) : (s.afterWrite b v).irqPending = s.irqPending := s.writeEffect_irqPending b v
@[simp] theorem State.afterWrite_errlog (s : State) (b : Nat) (v : Word) : (s.afterWrite b v).errlog = s.errlog := s.writeEffect_errlog b v
@[simp] theorem State.afterWrite_fault (s : State) (b : Nat) (v : Word) : (s.afterWrite b v).fault = s.fault := s.writeEffect_fault b v
@[simp] theorem State.afterWrite_dregs (s : State) (b : Nat) (v : Word) : (s.afterWrite b v).dregs = (s.writeEffect b v).dregs := rfl
@[simp] theorem State.afterWrite_fifo (s : State) (b : Nat) (v : Word) : (s.afterWrite b v).fifo = (s.writeEffect b v).fifo := rfl
@[simp] theorem State.afterWrite_busy (s : State) (b : Nat) (v : Word) : (s.afterWrite b v).busy = (s.writeEffect b v).busy := rfl
@[simp] theorem State.afterWrite_portLog (s : State) (b : Nat) (v : Word) : (s.afterWrite b v).portLog = .write b v :: s.portLog := rfl
@[simp] theorem State.afterWrite_sched (s : State) (b : Nat) (v : Word) : (s.afterWrite b v).sched = s.sched := s.writeEffect_sched b v
@[simp] theorem State.afterWrite_tick (s : State) (b : Nat) (v : Word) : (s.afterWrite b v).tick = s.tick := s.writeEffect_tick b v
@[simp] theorem State.afterWrite_draws (s : State) (b : Nat) (v : Word) : (s.afterWrite b v).draws = (s.writeEffect b v).draws := rfl
@[simp] theorem State.afterWrite_cur (s : State) (b : Nat) (v : Word) : (s.afterWrite b v).cur = s.cur := s.writeEffect_cur b v

/-! ### Accesses in range -/

theorem regRead_of_lt {b : Nat} {s : State} {k : Word → State → Out} (h : b < s.cfg.numBanks) :
    regRead b s k = k (s.readValue b) (s.afterRead b) := by
  simp [regRead, h]

theorem regWrite_of_lt {b : Nat} {v : Word} {s : State} {k : State → Out} (h : b < s.cfg.numBanks) :
    regWrite b v s k = k (s.afterWrite b v) := by
  simp [regWrite, h]

/-- A read of a field in a valid configuration. -/
theorem regRead_field {s : State} (h : s.cfg.valid = true) (f : FieldId) (k : Word → State → Out) :
    regRead (s.cfg.field f).bank s k = k (s.readValue (s.cfg.field f).bank) (s.afterRead (s.cfg.field f).bank) :=
  regRead_of_lt (Config.bank_lt h f)

/-- A write of a field in a valid configuration. -/
theorem regWrite_field {s : State} (h : s.cfg.valid = true) (f : FieldId) (v : Word) (k : State → Out) :
    regWrite (s.cfg.field f).bank v s k = k (s.afterWrite (s.cfg.field f).bank v) :=
  regWrite_of_lt (Config.bank_lt h f)

/-! ### Storage banks (R72) -/

theorem storageBank_iff {cfg : Config} {b : Nat} :
    storageBank cfg b = true ↔ cfg.dev = .reference ∧ fifoAt cfg b = none ∧ holdsField cfg b .irqStatus = false ∧
      holdsField cfg b (.stsFifoEmpty .mm2s) = false ∧ holdsField cfg b (.stsFifoEmpty .s2mm) = false := by
  simp [storageBank, refDev, and_assoc]

theorem quietBank_iff {cfg : Config} {b : Nat} :
    quietBank cfg b = true ↔ cfg.dev = .reference ∧ fifoAt cfg b = none ∧ holdsField cfg b .irqStatus = false := by
  simp [quietBank, refDev, and_assoc]

/-- A read of a storage bank returns what is stored. -/
theorem State.readValue_storage {s : State} {b : Nat} (h : storageBank s.cfg b = true) : s.readValue b = s.stored b := by
  obtain ⟨h0, h1, h2, h3, h4⟩ := storageBank_iff.1 h
  simp [State.readValue, State.refReadValue, h0, h1, h2, State.withEmptyFlag, h3, h4]

/-- A read of a bank without a status FIFO and without the interrupt status does nothing in the reference device. -/
theorem State.readEffect_quiet {s : State} {b : Nat} (h : quietBank s.cfg b = true) : s.readEffect b = s := by
  obtain ⟨h0, h1, h2⟩ := quietBank_iff.1 h
  simp [State.readEffect, State.refReadEffect, h0, h1, h2]

theorem quietBank_of_storage {cfg : Config} {b : Nat} (h : storageBank cfg b = true) : quietBank cfg b = true := by
  obtain ⟨h0, h1, h2, -, -⟩ := storageBank_iff.1 h
  exact quietBank_iff.2 ⟨h0, h1, h2⟩

/-- In a storage bank the word stored is the word written. -/
theorem State.store_storage {s : State} {b : Nat} (v : Word) (h : storageBank s.cfg b = true) :
    s.store b v = { s with
      dregs := s.dregs.setBank s.cfg.byteOrder b v
      busy := ⟨s.busy.mm2s || s.startsTransfer b v .mm2s, s.busy.s2mm || s.startsTransfer b v .s2mm⟩ } := by
  obtain ⟨-, -, -, h3, h4⟩ := storageBank_iff.1 h
  simp [State.store, State.keepEmptyBit, h3, h4]

/-! ### The reset effect (R66, R76) -/

theorem resetBanks_nil (o : ByteOrder) (m : Memory) : resetBanks o m [] = m := rfl

theorem resetBanks_cons (o : ByteOrder) (m : Memory) (e : BankReset) (es : List BankReset) :
    resetBanks o m (e :: es) = resetBanks o (m.setBank o e.bank ((m.bank o e.bank &&& e.keep) ||| e.value)) es := rfl

/-- A reset effect leaves every byte outside the banks it names. -/
theorem get_resetBanks_outside {o : ByteOrder} {a : Nat} : ∀ (es : List BankReset) (m : Memory),
    (∀ e ∈ es, a < 4 * e.bank ∨ 4 * e.bank + 4 ≤ a) → (resetBanks o m es).get a = m.get a
  | [], _, _ => rfl
  | e :: es, m, h => by
    rw [resetBanks_cons, get_resetBanks_outside es _ fun x hx => h x (List.mem_cons_of_mem _ hx),
      Memory.get_setBank_outside _ _ _ _ (h e (by simp))]

/-- A reset effect leaves every bank it does not name. -/
theorem bank_resetBanks_other {o : ByteOrder} {b : Nat} : ∀ (es : List BankReset) (m : Memory),
    (∀ e ∈ es, e.bank ≠ b) → (resetBanks o m es).bank o b = m.bank o b
  | [], _, _ => rfl
  | e :: es, m, h => by
    rw [resetBanks_cons, bank_resetBanks_other es _ fun x hx => h x (List.mem_cons_of_mem _ hx),
      Memory.bank_setBank_other _ _ _ (h e (by simp)).symm]

/-- A bank that a reset effect names takes its value. -/
theorem bank_resetBanks_mem {o : ByteOrder} {e : BankReset} : ∀ (es : List BankReset) (m : Memory), e ∈ es →
    (es.map BankReset.bank).Nodup → (resetBanks o m es).bank o e.bank = (m.bank o e.bank &&& e.keep) ||| e.value
  | f :: es, m, h, hn => by
    simp only [List.map_cons, List.nodup_cons, List.mem_map, not_exists, not_and] at hn
    rw [resetBanks_cons]
    rcases List.mem_cons.1 h with rfl | h
    · rw [bank_resetBanks_other es _ hn.1, Memory.bank_setBank_same]
    · rw [bank_resetBanks_mem es _ h hn.2, Memory.bank_setBank_other _ _ _ (hn.1 e h)]

theorem wf_resetBanks {o : ByteOrder} : ∀ (es : List BankReset) {m : Memory}, m.wf = true → (resetBanks o m es).wf = true
  | [], _, h => h
  | e :: es, _, h => by
    rw [resetBanks_cons]
    exact wf_resetBanks es (Memory.wf_setBank h _ _ _)

theorem addr_resetBanks {o : ByteOrder} {n : Nat} : ∀ (es : List BankReset) {m : Memory}, (∀ e ∈ es, e.bank < n) →
    (∀ c ∈ m, c.1 < 4 * n) → ∀ c ∈ resetBanks o m es, c.1 < 4 * n
  | [], _, _, h => h
  | e :: es, m, hb, h => by
    rw [resetBanks_cons]
    refine addr_resetBanks es (fun x hx => hb x (List.mem_cons_of_mem _ hx)) fun c hc => ?_
    have he := hb e (by simp)
    rcases Memory.addr_setBank hc with hc | hc
    · omega
    · exact h c hc

theorem resetSpares_iff {cfg : Config} {b : Nat} :
    resetSpares cfg b = true ↔ cfg.devResetEffect = .none ∨ holdsField cfg b .globalReset = false := by
  simp [resetSpares]

/-- The reset effect none does nothing. -/
theorem State.resetDevice_none {s : State} (h : s.cfg.devResetEffect = .none) : s.resetDevice = s := by
  simp [State.resetDevice, h, ResetEffect.none, resetBanks_nil]

theorem plainBank_iff {cfg : Config} {b : Nat} :
    plainBank cfg b = true ↔ storageBank cfg b = true ∧ resetSpares cfg b = true := by simp [plainBank]

/-! ### What a write does -/

/-- In the reference device, where no reset effect follows: nothing, or the word is stored. -/
theorem State.writeEffect_spared {s : State} {b : Nat} (v : Word) (hd : s.cfg.dev = .reference)
    (h : resetSpares s.cfg b = true ∨ s.pulsesReset b v = false) :
    s.writeEffect b v = if (fifoAt s.cfg b).isSome || holdsField s.cfg b .irqStatus then s else s.store b v := by
  simp only [State.writeEffect, hd, State.refWriteEffect]
  split
  · rfl
  · split
    · rename_i hp
      rcases h with h | h
      · rcases resetSpares_iff.1 h with h | h
        · exact State.resetDevice_none (s := s.store b v) h
        · simp [State.pulsesReset, h] at hp
      · rw [h] at hp
        exact absurd hp (by simp)
    · rfl

/-- A write to a plain bank stores the word. -/
theorem State.writeEffect_storage {s : State} {b : Nat} (v : Word) (h : plainBank s.cfg b = true) :
    s.writeEffect b v = { s with
      dregs := s.dregs.setBank s.cfg.byteOrder b v
      busy := ⟨s.busy.mm2s || s.startsTransfer b v .mm2s, s.busy.s2mm || s.startsTransfer b v .s2mm⟩ } := by
  obtain ⟨hs, hr⟩ := plainBank_iff.1 h
  obtain ⟨h0, h1, h2, -, -⟩ := storageBank_iff.1 hs
  rw [State.writeEffect_spared v h0 (.inl hr), ← State.store_storage v hs]
  simp [h1, h2]

/-- The bank just written. -/
theorem State.stored_afterWrite_same {s : State} {b : Nat} (v : Word) (h : plainBank s.cfg b = true) :
    (s.afterWrite b v).stored b = v := by
  simp [State.stored, State.writeEffect_storage v h, Memory.bank_setBank_same]

/-- What a write does to the bytes: nothing, one bank set, or, where the bank holds `GLOBAL_RESET`, one bank set and the reset
effect. -/
theorem State.writeEffect_dregs (s : State) (b : Nat) (v : Word) :
    (s.writeEffect b v).dregs = s.dregs ∨ ∃ w, (s.writeEffect b v).dregs = s.dregs.setBank s.cfg.byteOrder b w ∨
      ((s.cfg.field .globalReset).bank = b ∧ (s.writeEffect b v).dregs =
        resetBanks s.cfg.byteOrder (s.dregs.setBank s.cfg.byteOrder b w) s.cfg.devResetEffect.banks) := by
  unfold State.writeEffect State.refWriteEffect
  split
  · split
    · exact .inl rfl
    · split
      · rename_i hp
        simp only [State.pulsesReset, holdsField, Bool.and_eq_true, decide_eq_true_eq] at hp
        exact .inr ⟨_, .inr ⟨hp.1.1, rfl⟩⟩
      · exact .inr ⟨_, .inl rfl⟩
  · exact .inl rfl

/-- A write leaves every other bank, where no reset effect follows. -/
theorem State.stored_afterWrite_other {s : State} {b e : Nat} (v : Word) (h : e ≠ b) (hr : resetSpares s.cfg b = true) :
    (s.afterWrite b v).stored e = s.stored e := by
  rcases s.writeEffect_dregs b v with hd | ⟨w, hd | ⟨hb, hd⟩⟩
  · simp [State.stored, hd]
  · simp [State.stored, hd, Memory.bank_setBank_other _ _ _ h]
  · rcases resetSpares_iff.1 hr with hr | hr
    · simp [State.stored, hd, hr, ResetEffect.none, resetBanks_nil, Memory.bank_setBank_other _ _ _ h]
    · simp [holdsField, hb] at hr

/-- A write leaves every byte outside its bank and outside the reset effect. -/
theorem State.byte_afterWrite_outside {s : State} {b a : Nat} (v : Word) (h : outsideWrite s.cfg b a) :
    (s.afterWrite b v).dregs.get a = s.dregs.get a := by
  rcases s.writeEffect_dregs b v with hd | ⟨w, hd | ⟨hb, hd⟩⟩
  · simp [hd]
  · simp [hd, Memory.get_setBank_outside _ _ _ _ h.1]
  · rw [State.afterWrite_dregs, hd, get_resetBanks_outside _ _ (h.2 hb), Memory.get_setBank_outside _ _ _ _ h.1]

/-- A write keeps the canonical form. -/
theorem State.wf_afterWrite {s : State} (h : s.dregs.wf = true) (b : Nat) (v : Word) :
    (s.afterWrite b v).dregs.wf = true := by
  rcases s.writeEffect_dregs b v with hd | ⟨w, hd | ⟨-, hd⟩⟩
  · simpa [hd] using h
  · simpa [hd] using Memory.wf_setBank h _ _ _
  · rw [State.afterWrite_dregs, hd]
    exact wf_resetBanks _ (Memory.wf_setBank h _ _ _)

/-- A write in range keeps the memory in range. -/
theorem State.inRange_afterWrite {s : State} (hv : s.cfg.valid = true) (h : s.inRange) {b : Nat} (hb : b < s.cfg.numBanks)
    (v : Word) : (s.afterWrite b v).inRange := by
  have set : ∀ w, ∀ c ∈ s.dregs.setBank s.cfg.byteOrder b w, c.1 < 4 * s.cfg.numBanks := fun w c hc => by
    rcases Memory.addr_setBank hc with hc | hc
    · omega
    · exact h c hc
  intro c hc
  rw [State.afterWrite_cfg]
  rcases s.writeEffect_dregs b v with hd | ⟨w, hd | ⟨-, hd⟩⟩
  · exact h c (by simpa [hd] using hc)
  · rw [State.afterWrite_dregs, hd] at hc
    exact set w c hc
  · rw [State.afterWrite_dregs, hd] at hc
    exact addr_resetBanks _ (Config.valid_resetEffect hv).1 (set w) c hc

end Sys2Proof.Machine
end

