-- ==== Sys2Proof/Laws/Step.lean ====
section
/-! SUPPORT. What the next step of the machine is: the placed move, in a valid configuration. -/

namespace Sys2Proof.Machine

open Sys2Proof

@[simp] theorem State.nextInput_willMove (s : State) (e : Event) : (s.willMove e).nextInput = .event e := rfl
@[simp] theorem State.taken_willMove (s : State) (e : Event) : (s.willMove e).taken = s := rfl
@[simp] theorem State.cfg_willMove (s : State) (e : Event) : (s.willMove e).cfg = s.cfg := rfl

/-- In a valid configuration the step runs the next item of the schedule. -/
theorem step_eq {s : State} (h : s.cfg.valid = true) : step s = runInput s.nextInput s.taken := by
  simp [step, runNext, h]

/-- In a valid configuration the machine about to take a move takes it. -/
theorem step_willMove {s : State} (h : s.cfg.valid = true) (e : Event) : step (s.willMove e) = runEvent e s := by
  rw [step_eq (by simpa using h)]
  rfl

/-- A presented micro-operation word is what the step runs. -/
theorem step_willPresent {s : State} (h : s.cfg.valid = true) (a : Agent) (w v : Word) :
    step (s.willPresent a w v) = presentMicroOp a w v s := by
  rw [step_eq (by simpa [State.willPresent] using h)]
  rfl

/-- A step that answers a next state had a valid configuration, and ran the next item. -/
theorem step_next {s t : State} (h : step s = .next t) :
    s.cfg.valid = true ∧ runInput s.nextInput s.taken = .next t := by
  by_cases hv : s.cfg.valid = true
  · exact ⟨hv, by rw [← step_eq hv]; exact h⟩
  · simp [step, runNext, hv] at h

/-- The own step of a live requester is the step of its micro-state. -/
theorem ownStep_live {s : State} {r : Nat} {c : Ctx} (h : s.live r c) : ownStep r s = stepAt r c s := by
  simp [ownStep, h.1, h.2]

/-- A ready context: at `IDLE`, nothing unfinished, not stopped. -/
theorem Ctx.ready_iff {c : Ctx} : c.ready = true ↔ c.pc = .idle ∧ c.uop = none ∧ c.stopped = false := by
  simp [Ctx.ready, and_assoc]

/-- A command taken by a requester's context. -/
theorem issue_takes {s : State} {r : Nat} {c : Ctx} (h : s.takes r c) (arg : Word) (k : Nat → Ctx → State → Out) :
    issue arg s k = k r { c with arg := arg, res := none, out := none } s := by
  obtain ⟨h1, h2, h3⟩ := h
  simp [issue, h1, h2, h3]

/-- A micro-operation taken by hand. -/
theorem runMicroOp_takes {s : State} {r : Nat} {c : Ctx} (h : s.takes r c) (i : Instr) (k : Nat → Ctx → State → Out) :
    runMicroOp i k s = k r c s := by
  obtain ⟨h1, h2, h3⟩ := h
  simp [runMicroOp, h1, h2, h3]

/-! ### Moves of a live requester -/

theorem step_own {s : State} {r : Nat} {c : Ctx} (hv : s.cfg.valid = true) (h : s.live r c) :
    step (s.willMove (.own r)) = stepAt r c s := by
  rw [step_willMove hv]
  exact ownStep_live h

theorem step_cancel {s : State} {r : Nat} {c : Ctx} (hv : s.cfg.valid = true) (h : s.live r c) :
    step (s.willMove (.cancel r)) = cancelAt r c s := by
  rw [step_willMove hv]
  simp [runEvent, stepCancel, h.1, h.2]

theorem step_timeout {s : State} {r : Nat} {c : Ctx} (hv : s.cfg.valid = true) (h : s.live r c) :
    step (s.willMove (.timeout r)) = timeoutAt r c s := by
  rw [step_willMove hv]
  simp [runEvent, stepTimeout, h.1, h.2]

/-- Writing the context of a requester keeps it live. -/
theorem State.live_setCtx {s : State} {r : Nat} {c e : Ctx} (h : s.ctx? r = some c) (hs : e.stopped = false) :
    (s.setCtx r e).live r e :=
  ⟨State.ctx?_setCtx_same e h, hs⟩

theorem State.stored_setCtx (s : State) (r : Nat) (c : Ctx) (b : Nat) : (s.setCtx r c).stored b = s.stored b := rfl

theorem State.stored_afterRead (s : State) (b e : Nat) : (s.afterRead b).stored e = s.stored e := by
  simp [State.stored]

/-! ### Placed words -/

/-- Words that spell a host command are placed at HOST. -/
theorem placeWords_host {s : State} {w0 w1 : Word} {i : Instr} {rest : List Word} {r : Nat}
    (h : decode s.cfg .hcmd [w0, w1] = .ok i rest) (hr : s.cur = .requester r) :
    placeWords s w0 w1 = s.willMove (.host r w0 w1) := by
  simp only [placeWords, h, hr, State.willMove]

/-- Other words are presented as a micro-operation. -/
theorem placeWords_uop {s : State} {w0 w1 : Word} {e : DecodeError} (h : decode s.cfg .hcmd [w0, w1] = .error e) :
    placeWords s w0 w1 = s.willPresent s.cur w0 w1 := by
  simp only [placeWords, h, State.willPresent]

end Sys2Proof.Machine
end

