-- ==== Sys2Proof/Laws/Discipline.lean ====
section
/-! SUPPORT. How a disciplined state is kept: by an update of one requester's context with its locks, and by an update that
leaves contexts and locks alone. -/

namespace Sys2Proof.Machine

open Sys2Proof

namespace State.Disciplined

variable {s t : State} {r q : Nat} {c e : Ctx}

/-- The requester whose micro-state holds a lock is its holder, and no other. -/
theorem holds_iff (h : s.Disciplined) (hc : s.ctx? r = some c) (d : Dir) : c.holds d = true ↔ s.lock.get d = some r := by
  constructor
  · intro hh
    exact (h.lockHolder r d).2 ⟨c, hc, hh⟩
  · intro hh
    obtain ⟨c₀, h₀, h₁⟩ := (h.lockHolder r d).1 hh
    rw [hc] at h₀
    simp only [Option.some.injEq] at h₀
    exact h₀ ▸ h₁

theorem holder_unique (h : s.Disciplined) (hc : s.ctx? r = some c) (he : s.ctx? q = some e) {d : Dir}
    (h1 : c.holds d = true) (h2 : e.holds d = true) : r = q := by
  have a := (h.holds_iff hc d).1 h1
  rw [(h.holds_iff he d).1 h2] at a
  simpa using a.symm

/-- One requester's context changes, with the locks its micro-states hold; counts fall only for a direction it holds. -/
theorem update (h : s.Disciplined) (hc : s.ctx? r = some c) (hctx : t.ctxs = s.ctxs.set r e) (hcfg : t.cfg = s.cfg)
    (hsched : ∀ i ∈ t.sched, ∃ v, i = .event v) (hd : e.disciplined s.cfg.pollLimit)
    (hbound : ∀ d, t.count.get d ≤ s.cfg.countMax)
    (hcount : ∀ d, s.lock.get d ≠ some r → s.count.get d ≤ t.count.get d)
    (hcons : e.pc = .tConsume → 0 < t.count.get e.dir)
    (hlock : ∀ d, t.lock.get d = if e.holds d then some r else if c.holds d then none else s.lock.get d)
    (hfree : ∀ d, e.holds d = true → c.holds d = false → s.lock.get d = none) : t.Disciplined := by
  have hlt := State.ctx?_lt hc
  have hr : t.ctx? r = some e := by simp [State.ctx?, hctx, hlt]
  have ho : ∀ p, p ≠ r → t.ctx? p = s.ctx? p := by
    intro p hne
    simp only [State.ctx?, hctx]
    rw [List.getElem?_set_ne (Ne.symm hne)]
  refine ⟨by rw [hcfg]; exact h.cfgValid, hsched, ?_, ?_, ?_, by rw [hcfg]; exact hbound⟩
  · intro p f hp
    rw [hcfg]
    by_cases hpr : p = r
    · subst hpr
      rw [hr] at hp
      simp only [Option.some.injEq] at hp
      exact hp ▸ hd
    · rw [ho p hpr] at hp
      exact h.contexts p f hp
  · intro p d
    by_cases hpr : p = r
    · subst hpr
      rw [hlock d, hr]
      constructor
      · intro hh
        refine ⟨e, rfl, ?_⟩
        by_contra hn
        rw [if_neg hn] at hh
        split at hh
        · simp at hh
        · rename_i hn'
          exact hn' ((h.holds_iff hc d).2 hh)
      · rintro ⟨f, hf, hh⟩
        simp only [Option.some.injEq] at hf
        subst hf
        rw [if_pos hh]
    · rw [hlock d, ho p hpr, ← h.lockHolder p d]
      split
      · rename_i h1
        constructor
        · intro hh
          simp only [Option.some.injEq] at hh
          exact absurd hh.symm hpr
        · intro hh
          by_cases h2 : c.holds d = true
          · rw [(h.holds_iff hc d).1 h2] at hh
            simp only [Option.some.injEq] at hh
            exact absurd hh.symm hpr
          · rw [hfree d h1 (by simpa using h2)] at hh
            simp at hh
      · split
        · rename_i h2
          rw [(h.holds_iff hc d).1 h2]
          simp [Ne.symm hpr]
        · rfl
  · intro p f hp hpc
    by_cases hpr : p = r
    · subst hpr
      rw [hr] at hp
      simp only [Option.some.injEq] at hp
      subst hp
      exact hcons hpc
    · rw [ho p hpr] at hp
      have h1 := h.consumeReady p f hp hpc
      have hl : s.lock.get f.dir = some p := (h.holds_iff hp f.dir).1 (by simp [Ctx.holds, hpc])
      have h2 := hcount f.dir (by rw [hl]; simpa using hpr)
      omega

/-- One requester's context changes, between micro-states that hold the same locks. -/
theorem setCtx (h : s.Disciplined) (hc : s.ctx? r = some c) (hctx : t.ctxs = s.ctxs.set r e) (hcfg : t.cfg = s.cfg)
    (hsched : t.sched = s.sched) (hcount : t.count = s.count) (hlock : t.lock = s.lock)
    (hd : e.disciplined s.cfg.pollLimit) (hcons : e.pc = .tConsume → 0 < s.count.get e.dir)
    (hh : ∀ d, e.holds d = c.holds d) : t.Disciplined := by
  refine h.update hc hctx hcfg (by rw [hsched]; exact h.onlyMoves) hd (by rw [hcount]; exact h.countBound)
    (fun _ _ => by rw [hcount]) (by rw [hcount]; exact hcons) ?_ ?_
  · intro d
    rw [hlock, hh d]
    split
    · rename_i h1
      exact (h.holds_iff hc d).1 h1
    · rfl
  · intro d h1 h2
    rw [hh d] at h1
    rw [h1] at h2
    simp at h2

/-- Contexts and locks stay, no count falls. -/
theorem same (h : s.Disciplined) (hctx : t.ctxs = s.ctxs) (hcfg : t.cfg = s.cfg)
    (hsched : ∀ i ∈ t.sched, ∃ v, i = .event v) (hlock : t.lock = s.lock)
    (hge : ∀ d, s.count.get d ≤ t.count.get d) (hle : ∀ d, t.count.get d ≤ s.cfg.countMax) : t.Disciplined := by
  refine ⟨by rw [hcfg]; exact h.cfgValid, hsched, ?_, ?_, ?_, by rw [hcfg]; exact hle⟩
  · intro p f hp
    rw [hcfg]
    exact h.contexts p f (by simpa [State.ctx?, hctx] using hp)
  · intro p d
    rw [hlock]
    simp only [State.ctx?, hctx]
    exact h.lockHolder p d
  · intro p f hp hpc
    have h1 := h.consumeReady p f (by simpa [State.ctx?, hctx] using hp) hpc
    have h2 := hge f.dir
    omega

/-- Taking the next item keeps the discipline, and the item is a move. -/
theorem taken (h : s.Disciplined) : s.taken.Disciplined ∧ ∃ v, s.nextInput = .event v := by
  cases hs : s.sched with
  | nil =>
    refine ⟨?_, Config.freeEvent s.tick, by simp [State.nextInput, hs]⟩
    simp only [State.taken, hs]
    exact h.same rfl rfl (by simp) rfl (fun _ => le_refl _) h.countBound
  | cons i is =>
    refine ⟨?_, ?_⟩
    · simp only [State.taken, hs]
      refine h.same rfl rfl (fun j hj => h.onlyMoves j ?_) rfl (fun _ => le_refl _) h.countBound
      rw [hs]
      exact List.mem_cons_of_mem _ hj
    · obtain ⟨v, hv⟩ := h.onlyMoves i (by simp [hs])
      exact ⟨v, by simp [State.nextInput, hs, hv]⟩

end State.Disciplined

end Sys2Proof.Machine
end

