-- ==== Sys2Proof/Laws/PerInstr.lean ====
section
/-! SUPPORT. Statements made per instruction: the number of words (R103). -/

namespace Sys2Proof.Laws.EncodedWords

open Sys2Proof

/-- R103: every HCMD is two words, every UOP one word, and WRITE two. -/
def Statement (i : Instr) : Prop :=
  ∀ cfg : Config, (encode cfg i).length = match i.format, i with
    | .hcmd, _ => 2
    | .uop, .write _ _ => 2
    | .uop, _ => 1

theorem reset (arg : Word) : Statement (.reset arg) := fun _ => rfl
theorem setIrqMask (arg : Word) : Statement (.setIrqMask arg) := fun _ => rfl
theorem getIrqStatus (arg : Word) : Statement (.getIrqStatus arg) := fun _ => rfl
theorem getBufPhys (arg : Word) : Statement (.getBufPhys arg) := fun _ => rfl
theorem dmaWrite (arg : Word) : Statement (.dmaWrite arg) := fun _ => rfl
theorem dmaRead (arg : Word) : Statement (.dmaRead arg) := fun _ => rfl
theorem map (arg : Word) : Statement (.map arg) := fun _ => rfl
theorem read (f : FieldId) : Statement (.read f) := fun _ => rfl
theorem write (f : FieldId) (v : Word) : Statement (.write f v) := fun _ => rfl
theorem getBit (f : FieldId) : Statement (.getBit f) := fun _ => rfl
theorem setBit (f : FieldId) : Statement (.setBit f) := fun _ => rfl
theorem clearBit (f : FieldId) : Statement (.clearBit f) := fun _ => rfl
theorem acquire (d : Dir) : Statement (.acquire d) := fun _ => rfl
theorem release (d : Dir) : Statement (.release d) := fun _ => rfl
theorem notify (d : Dir) : Statement (.notify d) := fun _ => rfl
theorem wait (d : Dir) : Statement (.wait d) := fun _ => rfl
theorem consume (d : Dir) : Statement (.consume d) := fun _ => rfl
theorem dispatch : Statement .dispatch := fun _ => rfl
theorem irq : Statement .irq := fun _ => rfl

end Sys2Proof.Laws.EncodedWords
end

