-- ==== Sys2Proof/Laws/Post.lean ====
section
/-! SUPPORT. What each shared operation can do, said once: what holds of the next state it answers (`Out.Post`), and that it
answers one in a valid configuration (`Out.Answers`). -/

namespace Sys2Proof.Machine

open Sys2Proof

/-- The next state an answer gives, if it gives one, meets P. -/
def Out.Post (o : Out) (P : State → Prop) : Prop := ∀ t, o = .next t → P t

/-- The answer is a next state. -/
def Out.Answers (o : Out) : Prop := ∃ t, o = .next t

theorem post_next {t : State} {P : State → Prop} (h : P t) : Out.Post (.next t) P := by
  intro u hu
  simp only [Host.Outcome.next.injEq] at hu
  exact hu ▸ h

theorem post_fault {f : Fault} {P : State → Prop} : Out.Post (.fault f) P := fun _ hu => nomatch hu

theorem post_refused {f : Refusal} {P : State → Prop} : Out.Post (.refused f) P := fun _ hu => nomatch hu

theorem answers_next {t : State} : Out.Answers (.next t) := ⟨t, rfl⟩

/-! ### The REG port and the accessor -/

theorem regRead_post {b : Nat} {s : State} {k : Word → State → Out} {P : State → Prop}
    (h : b < s.cfg.numBanks → (k (s.readValue b) (s.afterRead b)).Post P) : Out.Post (regRead b s k) P := by
  unfold regRead
  split
  · exact h ‹_›
  · exact post_fault

theorem regWrite_post {b : Nat} {v : Word} {s : State} {k : State → Out} {P : State → Prop}
    (h : b < s.cfg.numBanks → (k (s.afterWrite b v)).Post P) : Out.Post (regWrite b v s k) P := by
  unfold regWrite
  split
  · exact h ‹_›
  · exact post_fault

theorem readField_post {f : FieldId} {s : State} {k : Word → State → Out} {P : State → Prop}
    (h : (s.cfg.field f).bank < s.cfg.numBanks →
      (k (fieldValue (s.cfg.field f) (s.readValue (s.cfg.field f).bank)) (s.afterRead (s.cfg.field f).bank)).Post P) :
    Out.Post (readField f s k) P :=
  regRead_post (k := fun w t => k (fieldValue (s.cfg.field f) w) t) h

theorem getBitField_post {f : FieldId} {s : State} {k : Bool → State → Out} {P : State → Prop}
    (h : (s.cfg.field f).bank < s.cfg.numBanks →
      (k (fieldBit (s.cfg.field f) (s.readValue (s.cfg.field f).bank)) (s.afterRead (s.cfg.field f).bank)).Post P) :
    Out.Post (getBitField f s k) P :=
  regRead_post (k := fun w t => k (fieldBit (s.cfg.field f) w) t) h

theorem latchBank_post {f : FieldId} {s : State} {k : Word → State → Out} {P : State → Prop}
    (h : (s.cfg.field f).bank < s.cfg.numBanks →
      (k (s.readValue (s.cfg.field f).bank) (s.afterRead (s.cfg.field f).bank)).Post P) :
    Out.Post (latchBank f s k) P := regRead_post h

theorem writeFull_post {f : FieldId} {v : Word} {s : State} {k : State → Out} {P : State → Prop}
    (h : (s.cfg.field f).bank < s.cfg.numBanks → (k (s.afterWrite (s.cfg.field f).bank v)).Post P) :
    Out.Post (writeFull f v s k) P := regWrite_post h

theorem writeMerged_post {f : FieldId} {v tmp : Word} {s : State} {k : State → Out} {P : State → Prop}
    (h : (s.cfg.field f).bank < s.cfg.numBanks →
      (k (s.afterWrite (s.cfg.field f).bank (mergeField (s.cfg.field f) tmp v))).Post P) :
    Out.Post (writeMerged f v tmp s k) P := regWrite_post h

theorem writeBitSet_post {f : FieldId} {tmp : Word} {s : State} {k : State → Out} {P : State → Prop}
    (h : (s.cfg.field f).bank < s.cfg.numBanks →
      (k (s.afterWrite (s.cfg.field f).bank (withBitSet (s.cfg.field f) tmp))).Post P) :
    Out.Post (writeBitSet f tmp s k) P := regWrite_post h

theorem writeBitClear_post {f : FieldId} {tmp : Word} {s : State} {k : State → Out} {P : State → Prop}
    (h : (s.cfg.field f).bank < s.cfg.numBanks →
      (k (s.afterWrite (s.cfg.field f).bank (withBitClear (s.cfg.field f) tmp))).Post P) :
    Out.Post (writeBitClear f tmp s k) P := regWrite_post h

/-! ### Locks and counts -/

theorem raise_post {a : Agent} {k : FaultKind} {s : State} {P : State → Prop}
    (h : P { s.stop a with fault := some k }) : Out.Post (raise a k s) P := post_next h

theorem acquire_post {r : Nat} {d : Dir} {s : State} {k : State → Out} {o : Out} {P : State → Prop}
    (granted : s.lock.get d = none → (k { s with lock := s.lock.set d (some r) }).Post P)
    (blocked : s.lock.get d ≠ none → o.Post P) : Out.Post (acquire r d s k o) P := by
  unfold acquire
  split
  · exact granted ‹_›
  · exact blocked ‹_›

theorem release_post {r : Nat} {d : Dir} {s : State} {k : State → Out} {P : State → Prop}
    (holder : s.lock.get d = some r → (k { s with lock := s.lock.set d none }).Post P)
    (other : s.lock.get d ≠ some r → P { s.stop (.requester r) with fault := some .releaseNotOwner }) :
    Out.Post (release r d s k) P := by
  unfold release
  split
  · exact holder ‹_›
  · exact raise_post (other ‹_›)

theorem notify_post {a : Agent} {d : Dir} {s : State} {k : State → Out} {P : State → Prop}
    (below : s.count.get d ≠ s.cfg.countMax → (k { s with count := s.count.set d (s.count.get d + 1) }).Post P)
    (full : s.count.get d = s.cfg.countMax → P { s.stop a with fault := some .countOverflow }) :
    Out.Post (notify a d s k) P := by
  unfold notify
  split
  · exact raise_post (full ‹_›)
  · exact below ‹_›

theorem consume_post {r : Nat} {d : Dir} {s : State} {k : State → Out} {P : State → Prop}
    (positive : 0 < s.count.get d → (k { s with count := s.count.set d (s.count.get d - 1) }).Post P)
    (zero : s.count.get d = 0 → P { s.stop (.requester r) with fault := some .consumeAtZero }) :
    Out.Post (consume r d s k) P := by
  unfold consume
  split
  · exact raise_post (zero ‹_›)
  · exact positive (Nat.pos_of_ne_zero ‹_›)

theorem awaitSignal_post {d : Dir} {s : State} {k : State → Out} {o : Out} {P : State → Prop}
    (signalled : 0 < s.count.get d → (k s).Post P) (blocked : s.count.get d = 0 → o.Post P) :
    Out.Post (awaitSignal d s k o) P := by
  unfold awaitSignal
  split
  · exact signalled ‹_›
  · exact blocked (Nat.eq_zero_of_not_pos ‹_›)

/-- The issue of a command: taken by a ready requester, else turned away. -/
theorem issue_post {arg : Word} {s : State} {k : Nat → Ctx → State → Out} {P : State → Prop}
    (taken : ∀ r c, s.takes r c → (k r { c with arg := arg, res := none, out := none } s).Post P) (turnedAway : P s) :
    Out.Post (issue arg s k) P := by
  unfold issue
  split
  · split
    · split
      · exact taken _ _ ⟨‹_›, ‹_›, ‹_›⟩
      · exact post_next turnedAway
    · exact post_next turnedAway
  · exact post_next turnedAway
  · exact post_next turnedAway

/-- The instruction a selector decodes to is the host command with that `ARG`. -/
theorem decodeHcmd_instr {cfg : Config} {sel arg : Word} {i : Instr} (h : decodeHcmd cfg sel arg = some i) :
    i = .reset arg ∨ i = .setIrqMask arg ∨ i = .getIrqStatus arg ∨ i = .getBufPhys arg ∨ i = .dmaWrite arg ∨
      i = .dmaRead arg ∨ i = .map arg := by
  unfold decodeHcmd at h
  repeat' (split at h)
  all_goals first
    | (simp only [Option.some.injEq] at h; subst h; simp)
    | (simp at h)

/-! ### Every move answers (R129) -/

theorem answers_regRead {b : Nat} {s : State} {k : Word → State → Out} (hb : b < s.cfg.numBanks)
    (h : ∀ w t, Out.Answers (k w t)) : Out.Answers (regRead b s k) := by
  rw [regRead_of_lt hb]
  exact h _ _

theorem answers_regWrite {b : Nat} {v : Word} {s : State} {k : State → Out} (hb : b < s.cfg.numBanks)
    (h : ∀ t, Out.Answers (k t)) : Out.Answers (regWrite b v s k) := by
  rw [regWrite_of_lt hb]
  exact h _

theorem answers_acquire {r : Nat} {d : Dir} {s : State} {k : State → Out} {b : Out} (h : ∀ t, Out.Answers (k t))
    (hb : Out.Answers b) : Out.Answers (acquire r d s k b) := by
  unfold acquire
  split
  · exact h _
  · exact hb

theorem answers_release {r : Nat} {d : Dir} {s : State} {k : State → Out} (h : ∀ t, Out.Answers (k t)) :
    Out.Answers (release r d s k) := by
  unfold release
  split
  · exact h _
  · exact answers_next

theorem answers_consume {r : Nat} {d : Dir} {s : State} {k : State → Out} (h : ∀ t, Out.Answers (k t)) :
    Out.Answers (consume r d s k) := by
  unfold consume
  split
  · exact answers_next
  · exact h _

theorem answers_notify {a : Agent} {d : Dir} {s : State} {k : State → Out} (h : ∀ t, Out.Answers (k t)) :
    Out.Answers (notify a d s k) := by
  unfold notify
  split
  · exact answers_next
  · exact h _

theorem answers_awaitSignal {d : Dir} {s : State} {k : State → Out} {b : Out} (h : ∀ t, Out.Answers (k t))
    (hb : Out.Answers b) : Out.Answers (awaitSignal d s k b) := by
  unfold awaitSignal
  split
  · exact h _
  · exact hb

theorem answers_issue {arg : Word} {s : State} {k : Nat → Ctx → State → Out} (h : ∀ r c t, Out.Answers (k r c t)) :
    Out.Answers (issue arg s k) := by
  unfold issue
  split
  · split
    · split
      · exact h _ _ _
      · exact answers_next
    · exact answers_next
  · exact answers_next
  · exact answers_next

theorem resumeUop_answers {s : State} (hv : s.cfg.valid = true) (r : Nat) (c : Ctx) (i : Instr) :
    Out.Answers (resumeUop r c i s) := by
  have hb := Config.bank_lt hv
  cases i <;> simp only [resumeUop, writeMerged, writeBitSet, writeBitClear] <;>
  first
   | exact answers_next
   | exact answers_regWrite (hb _) (fun _ => answers_next)
   | exact answers_acquire (fun _ => answers_next) answers_next
   | exact answers_awaitSignal (fun _ => answers_next) answers_next

theorem ownStep_answers {s : State} (hv : s.cfg.valid = true) (r : Nat) : Out.Answers (ownStep r s) := by
  have hb := Config.bank_lt hv
  unfold ownStep
  split
  case h_2 => exact answers_next
  rename_i c hc
  split
  · exact answers_next
  unfold stepAt
  cases hp : c.pc <;> simp only [stepTAcq, stepTWaddr, stepTWdata, stepTEnR, stepTEnW, stepTMode, stepTWait,
    stepTConsume, stepTPoll, stepTDrain, stepTDisR, stepTDisW, stepTRel, stepTAbtR, stepTAbtW, stepTAbtRel, stepGAcq1,
    stepGAcq2, stepGCrel1, stepGRsR, stepGRsW, stepGRcR, stepGRcW, stepGBaR, stepGBaW, stepGRel2, stepGRel1, stepMAcq1,
    stepMAcq2, stepMCrel1, stepMWr, stepMRel2, stepMRel1, stepSRd, latchStep, latchBank, writeFull, writeBitSet,
    writeBitClear, writeMerged, readField, getBitField, goto, finish]
  case idle =>
    unfold stepIdle
    split
    · exact resumeUop_answers hv _ _ _
    · exact answers_next
  case gBaR k =>
    split
    · exact answers_next
    · exact answers_regRead (hb _) (fun _ _ => answers_next)
  case gBaW k => split <;> exact answers_regWrite (hb _) (fun _ => answers_next)
  case tMode => exact answers_regRead (hb _) (fun _ _ => by split <;> exact answers_next)
  case tPoll =>
    refine answers_regRead (hb _) (fun _ _ => ?_)
    split
    · exact answers_next
    · split <;> exact answers_next
  all_goals first
    | exact answers_acquire (fun _ => answers_next) answers_next
    | exact answers_awaitSignal (fun _ => answers_next) answers_next
    | exact answers_regWrite (hb _) (fun _ => answers_next)
    | exact answers_regRead (hb _) (fun _ _ => answers_next)
    | exact answers_release (fun _ => answers_next)
    | exact answers_consume (fun _ => answers_next)

theorem dispStep_answers {s : State} (hv : s.cfg.valid = true) : Out.Answers (dispStep s) := by
  have hb := Config.bank_lt hv
  unfold dispStep
  split
  · exact answers_next
  split
  · unfold execDispatch
    split <;> exact answers_next
  · exact answers_next
  · exact answers_next
  · exact answers_regRead (hb _) (fun _ _ => answers_next)
  · exact answers_regRead (hb _) (fun _ _ => answers_next)
  · exact answers_notify (fun _ => answers_next)
  · exact answers_notify (fun _ => answers_next)
  · exact answers_next

theorem hostCommand_answers (r : Nat) (sel arg : Word) (s : State) : Out.Answers (hostCommand r sel arg s) := by
  simp only [hostCommand, decode]
  cases hd : decodeHcmd s.cfg sel arg with
  | none => exact answers_issue (fun _ _ _ => answers_next)
  | some i =>
    simp only
    rcases decodeHcmd_instr hd with rfl | rfl | rfl | rfl | rfl | rfl | rfl <;>
      simp only [exec, execReset, execSetIrqMask, execGetIrqStatus, execGetBufPhys, execDmaWrite, execDmaRead, execMap]
    case inr.inr.inr.inr.inr.inr =>
      refine answers_issue (fun _ _ _ => ?_)
      split <;> exact answers_next
    all_goals exact answers_issue (fun _ _ _ => answers_next)

theorem cancelAt_answers (r : Nat) (c : Ctx) (s : State) : Out.Answers (cancelAt r c s) := by
  unfold cancelAt
  split <;> try exact answers_next
  split <;> exact answers_next

theorem timeoutAt_answers (r : Nat) (c : Ctx) (s : State) : Out.Answers (timeoutAt r c s) := by
  unfold timeoutAt
  split
  · split <;> exact answers_next
  · split
    · split <;> exact answers_next
    · exact answers_next
  · exact answers_next

/-- The moves of the device. -/
def ofDevice : Event → Bool
  | .complete _ | .spurious | .device _ => true
  | .host _ _ _ | .own _ | .disp | .cancel _ | .timeout _ => false

/-- A move of the device changes nothing but the device's own state, the draws and the IRQ input (R70, R78, R79). -/
theorem deviceMove_frame {e : Event} (h : ofDevice e = true) (s : State) : Out.Post (runEvent e s) fun t => t =
    { s with fifo := t.fifo, busy := t.busy, draws := t.draws, irqPending := t.irqPending, extDev := t.extDev } := by
  cases e with
  | complete d =>
    simp only [runEvent, stepComplete, State.completed]
    split
    · split <;> exact post_next rfl
    · exact post_next rfl
  | spurious =>
    simp only [runEvent, stepSpurious]
    split <;> exact post_next rfl
  | device n =>
    simp only [runEvent, stepDevice]
    split
    · exact post_next rfl
    · split <;> exact post_next rfl
  | host _ _ _ | own _ | disp | cancel _ | timeout _ => simp [ofDevice] at h

/-- In a valid configuration every move of the spec's agents answers a next state. -/
theorem runEvent_answers {s : State} (hv : s.cfg.valid = true) (e : Event) : Out.Answers (runEvent e s) := by
  cases e with
  | host r sel arg => exact hostCommand_answers _ _ _ _
  | own r => exact ownStep_answers hv r
  | disp => exact dispStep_answers hv
  | complete d =>
    simp only [runEvent, stepComplete]
    split <;> exact answers_next
  | spurious =>
    simp only [runEvent, stepSpurious]
    split <;> exact answers_next
  | device n =>
    simp only [runEvent, stepDevice]
    split
    · exact answers_next
    · split <;> exact answers_next
  | cancel r =>
    simp only [runEvent, stepCancel]
    split
    · split
      · exact answers_next
      · exact cancelAt_answers _ _ _
    · exact answers_next
  | timeout r =>
    simp only [runEvent, stepTimeout]
    split
    · split
      · exact answers_next
      · exact timeoutAt_answers _ _ _
    · exact answers_next

end Sys2Proof.Machine
end

