-- ==== Sys2Proof/Laws/Sched.lean ====
section
/-! SUPPORT. A move neither reads nor changes the schedule (R15: a step is one move of one agent), and a run over placed moves
is the moves one after the other. -/

namespace Sys2Proof.Machine

open Sys2Proof

/-- The state with another schedule. -/
def State.withSched (s : State) (l : List Input) : State := { s with sched := l }

/-- An answer with its next state changed. -/
def Out.map (f : State → State) : Out → Out
  | .next t => .next (f t)
  | .fault e => .fault e
  | .refused e => .refused e

/-! ### The shared operations -/

theorem withSched_afterRead (s : State) (l : List Input) (b : Nat) :
    (s.withSched l).afterRead b = (s.afterRead b).withSched l := by
  unfold State.afterRead State.readEffect State.refReadEffect State.withSched
  simp only
  split
  · split <;> split <;> rfl
  · rfl

theorem withSched_writeEffect (s : State) (l : List Input) (b : Nat) (v : Word) :
    (s.withSched l).writeEffect b v = (s.writeEffect b v).withSched l := by
  simp only [State.writeEffect, State.refWriteEffect, show (s.withSched l).cfg = s.cfg from rfl,
    show (s.withSched l).pulsesReset b v = s.pulsesReset b v from rfl]
  split
  · split
    · rfl
    · split <;> rfl
  · rfl

theorem withSched_afterWrite (s : State) (l : List Input) (b : Nat) (v : Word) :
    (s.withSched l).afterWrite b v = (s.afterWrite b v).withSched l := by
  simp only [State.afterWrite, withSched_writeEffect]
  rfl

theorem withSched_stop (s : State) (l : List Input) (a : Agent) : (s.withSched l).stop a = (s.stop a).withSched l := by
  unfold State.stop
  cases a with
  | requester r =>
    simp only [show (s.withSched l).ctx? r = s.ctx? r from rfl]
    cases s.ctx? r <;> rfl
  | dispatcher => rfl
  | device => rfl

theorem withSched_regRead {b : Nat} {s : State} {l : List Input} {k k' : Word → State → Out}
    (h : ∀ w t, k' w (t.withSched l) = (k w t).map (·.withSched l)) :
    regRead b (s.withSched l) k' = (regRead b s k).map (·.withSched l) := by
  simp only [regRead, withSched_afterRead, show (s.withSched l).cfg = s.cfg from rfl,
    show (s.withSched l).readValue b = s.readValue b from rfl]
  split
  · exact h _ _
  · rfl

theorem withSched_regWrite {b : Nat} {v : Word} {s : State} {l : List Input} {k k' : State → Out}
    (h : ∀ t, k' (t.withSched l) = (k t).map (·.withSched l)) :
    regWrite b v (s.withSched l) k' = (regWrite b v s k).map (·.withSched l) := by
  simp only [regWrite, withSched_afterWrite, show (s.withSched l).cfg = s.cfg from rfl]
  split
  · exact h _
  · rfl

theorem withSched_acquire {r : Nat} {d : Dir} {s : State} {l : List Input} {k k' : State → Out} {b b' : Out}
    (h : ∀ t, k' (t.withSched l) = (k t).map (·.withSched l)) (hb : b' = b.map (·.withSched l)) :
    acquire r d (s.withSched l) k' b' = (acquire r d s k b).map (·.withSched l) := by
  simp only [acquire, show (s.withSched l).lock = s.lock from rfl]
  split
  · exact h { s with lock := s.lock.set d (some r) }
  · exact hb

theorem withSched_raise {a : Agent} {k : FaultKind} {s : State} {l : List Input} :
    raise a k (s.withSched l) = (raise a k s).map (·.withSched l) := by
  simp only [raise, withSched_stop]
  rfl

theorem withSched_release {r : Nat} {d : Dir} {s : State} {l : List Input} {k k' : State → Out}
    (h : ∀ t, k' (t.withSched l) = (k t).map (·.withSched l)) :
    release r d (s.withSched l) k' = (release r d s k).map (·.withSched l) := by
  simp only [release, show (s.withSched l).lock = s.lock from rfl]
  split
  · exact h { s with lock := s.lock.set d none }
  · exact withSched_raise

theorem withSched_notify {a : Agent} {d : Dir} {s : State} {l : List Input} {k k' : State → Out}
    (h : ∀ t, k' (t.withSched l) = (k t).map (·.withSched l)) :
    notify a d (s.withSched l) k' = (notify a d s k).map (·.withSched l) := by
  simp only [notify, show (s.withSched l).count = s.count from rfl, show (s.withSched l).cfg = s.cfg from rfl]
  split
  · exact withSched_raise
  · exact h { s with count := s.count.set d (s.count.get d + 1) }

theorem withSched_consume {r : Nat} {d : Dir} {s : State} {l : List Input} {k k' : State → Out}
    (h : ∀ t, k' (t.withSched l) = (k t).map (·.withSched l)) :
    consume r d (s.withSched l) k' = (consume r d s k).map (·.withSched l) := by
  simp only [consume, show (s.withSched l).count = s.count from rfl]
  split
  · exact withSched_raise
  · exact h { s with count := s.count.set d (s.count.get d - 1) }

theorem withSched_awaitSignal {d : Dir} {s : State} {l : List Input} {k k' : State → Out} {b b' : Out}
    (h : ∀ t, k' (t.withSched l) = (k t).map (·.withSched l)) (hb : b' = b.map (·.withSched l)) :
    awaitSignal d (s.withSched l) k' b' = (awaitSignal d s k b).map (·.withSched l) := by
  simp only [awaitSignal, show (s.withSched l).count = s.count from rfl]
  split
  · exact h _
  · exact hb

theorem withSched_issue {arg : Word} {s : State} {l : List Input} {k k' : Nat → Ctx → State → Out}
    (h : ∀ r c t, k' r c (t.withSched l) = (k r c t).map (·.withSched l)) :
    issue arg (s.withSched l) k' = (issue arg s k).map (·.withSched l) := by
  simp only [issue, show (s.withSched l).cur = s.cur from rfl]
  split
  · simp only [show ∀ r, (s.withSched l).ctx? r = s.ctx? r from fun _ => rfl]
    split
    · split
      · exact h _ _ _
      · rfl
    · rfl
  · rfl
  · rfl

/-! ### The moves -/

theorem withSched_resumeUop (r : Nat) (c : Ctx) (i : Instr) (s : State) (l : List Input) :
    resumeUop r c i (s.withSched l) = (resumeUop r c i s).map (·.withSched l) := by
  cases i <;> simp only [resumeUop, writeMerged, writeBitSet, writeBitClear] <;>
  first
   | rfl
   | (apply withSched_regWrite; intro t; rfl)
   | (apply withSched_acquire; (intro t; rfl); rfl)
   | (apply withSched_awaitSignal; (intro t; rfl); rfl)

theorem withSched_stepAt (r : Nat) (c : Ctx) (s : State) (l : List Input) :
    stepAt r c (s.withSched l) = (stepAt r c s).map (·.withSched l) := by
  unfold stepAt
  cases c.pc <;> simp only [stepTAcq, stepTWaddr, stepTWdata, stepTEnR, stepTEnW, stepTMode, stepTWait,
    stepTConsume, stepTPoll, stepTDrain, stepTDisR, stepTDisW, stepTRel, stepTAbtR, stepTAbtW, stepTAbtRel, stepGAcq1,
    stepGAcq2, stepGCrel1, stepGRsR, stepGRsW, stepGRcR, stepGRcW, stepGBaR, stepGBaW, stepGRel2, stepGRel1, stepMAcq1,
    stepMAcq2, stepMCrel1, stepMWr, stepMRel2, stepMRel1, stepSRd, latchStep, latchBank, writeFull, writeBitSet,
    writeBitClear, writeMerged, readField, getBitField, goto, finish,
    show (s.withSched l).cfg = s.cfg from rfl]
  case idle =>
    unfold stepIdle
    split
    · exact withSched_resumeUop _ _ _ _ _
    · rfl
  case gBaR k =>
    split
    · rfl
    · apply withSched_regRead
      intro w t
      rfl
  case gBaW k =>
    split
    · apply withSched_regWrite
      intro t
      rfl
    · apply withSched_regWrite
      intro t
      rfl
  case tMode =>
    apply withSched_regRead
    intro w t
    split <;> rfl
  case tPoll =>
    apply withSched_regRead
    intro w t
    simp only [show (t.withSched l).cfg = t.cfg from rfl]
    split
    · rfl
    · split <;> rfl
  all_goals first
    | rfl
    | (apply withSched_regWrite; intro t; rfl)
    | (apply withSched_regRead; intro w t; rfl)
    | (apply withSched_acquire; (intro t; rfl); rfl)
    | (apply withSched_release; intro t; rfl)
    | (apply withSched_consume; intro t; rfl)
    | (apply withSched_awaitSignal; (intro t; rfl); rfl)

theorem withSched_ownStep (r : Nat) (s : State) (l : List Input) :
    ownStep r (s.withSched l) = (ownStep r s).map (·.withSched l) := by
  simp only [ownStep, show (s.withSched l).ctx? r = s.ctx? r from rfl]
  split
  · split
    · rfl
    · exact withSched_stepAt _ _ _ _
  · rfl

theorem withSched_dispatch (s : State) (l : List Input) :
    execDispatch (s.withSched l) = (execDispatch s).map (·.withSched l) := by
  by_cases h : s.dispStopped = false ∧ s.dispPc = .dIdle ∧ 0 < s.irqPending <;>
    simp [execDispatch, State.withSched, h, Out.map]

theorem withSched_dispStep (s : State) (l : List Input) :
    dispStep (s.withSched l) = (dispStep s).map (·.withSched l) := by
  simp only [dispStep, show (s.withSched l).dispStopped = s.dispStopped from rfl,
    show (s.withSched l).dispPc = s.dispPc from rfl]
  split
  · rfl
  · split <;> try simp only [stepDChkS, stepDChkM, stepDNotifyS, stepDNotifyM, getBitField,
      show (s.withSched l).cfg = s.cfg from rfl]
    · exact withSched_dispatch _ _
    · rfl
    · rfl
    · (apply withSched_regRead; intro w t; rfl)
    · (apply withSched_regRead; intro w t; rfl)
    · (apply withSched_notify; intro t; rfl)
    · (apply withSched_notify; intro t; rfl)
    · rfl

theorem withSched_hostCommand (r : Nat) (sel arg : Word) (s : State) (l : List Input) :
    hostCommand r sel arg (s.withSched l) = (hostCommand r sel arg s).map (·.withSched l) := by
  simp only [hostCommand, show (s.withSched l).cfg = s.cfg from rfl, decode,
    show (s.withSched l).present (.requester r) = (s.present (.requester r)).withSched l from rfl]
  cases hd : decodeHcmd s.cfg sel arg with
  | none =>
    apply withSched_issue
    intro r c t
    rfl
  | some i =>
    simp only
    rcases decodeHcmd_instr hd with rfl | rfl | rfl | rfl | rfl | rfl | rfl <;>
      simp only [exec, execReset, execSetIrqMask, execGetIrqStatus, execGetBufPhys, execDmaWrite, execDmaRead, execMap] <;>
      apply withSched_issue <;> intro r c t
    case some.inr.inr.inr.inr.inr.inr =>
      simp only [show (t.withSched l).cfg = t.cfg from rfl]
      split <;> rfl
    all_goals rfl

theorem withSched_cancelAt (r : Nat) (c : Ctx) (s : State) (l : List Input) :
    cancelAt r c (s.withSched l) = (cancelAt r c s).map (·.withSched l) := by
  unfold cancelAt
  split <;> first | rfl | skip
  split <;> rfl

theorem withSched_timeoutAt (r : Nat) (c : Ctx) (s : State) (l : List Input) :
    timeoutAt r c (s.withSched l) = (timeoutAt r c s).map (·.withSched l) := by
  unfold timeoutAt
  simp only [show (s.withSched l).count = s.count from rfl]
  split
  · split <;> rfl
  · split
    · split <;> rfl
    · rfl
  · rfl

/-- No move of the spec's agents reads or changes the schedule. -/
theorem withSched_runEvent (e : Event) (s : State) (l : List Input) :
    runEvent e (s.withSched l) = (runEvent e s).map (·.withSched l) := by
  cases e with
  | host r sel arg => exact withSched_hostCommand _ _ _ _ _
  | own r => exact withSched_ownStep _ _ _
  | disp => exact withSched_dispStep _ _
  | complete d =>
    simp only [runEvent, stepComplete, show (s.withSched l).busy = s.busy from rfl,
      show (s.withSched l).refDeviceMoves = s.refDeviceMoves from rfl, State.completed,
      show (s.withSched l).irqMode d = s.irqMode d from rfl]
    split
    · split <;> rfl
    · rfl
  | spurious =>
    simp only [runEvent, stepSpurious, show (s.withSched l).refDeviceMoves = s.refDeviceMoves from rfl]
    split <;> rfl
  | device n =>
    simp only [runEvent, stepDevice, show (s.withSched l).cfg = s.cfg from rfl,
      show (s.withSched l).devStopped = s.devStopped from rfl]
    split
    · rfl
    · split <;> rfl
  | cancel r =>
    simp only [runEvent, stepCancel, show (s.withSched l).ctx? r = s.ctx? r from rfl]
    split
    · split
      · rfl
      · exact withSched_cancelAt _ _ _ _
    · rfl
  | timeout r =>
    simp only [runEvent, stepTimeout, show (s.withSched l).ctx? r = s.ctx? r from rfl]
    split
    · split
      · rfl
      · exact withSched_timeoutAt _ _ _ _
    · rfl

theorem runEvent_sched {e : Event} {s t : State} (h : runEvent e s = .next t) : t.sched = s.sched := by
  have hw := withSched_runEvent e s s.sched
  rw [show s.withSched s.sched = s from rfl, h] at hw
  simp only [Out.map, Host.Outcome.next.injEq] at hw
  simpa [State.withSched] using congrArg State.sched hw

/-! ### The configuration stays -/

theorem resumeUop_cfg {s : State} (r : Nat) (c : Ctx) (i : Instr) :
    Out.Post (resumeUop r c i s) fun t => t.cfg = s.cfg := by
  cases i <;> simp only [resumeUop, writeMerged, writeBitSet, writeBitClear]
  all_goals first
    | (with_reducible refine acquire_post ?_ ?_) <;> intro _ <;> exact post_next rfl
    | (with_reducible refine awaitSignal_post ?_ ?_) <;> intro _ <;> exact post_next rfl
    | (with_reducible refine regWrite_post ?_); intro _; exact post_next (by simp)
    | exact post_next rfl

theorem ownStep_cfg (s : State) (r : Nat) : Out.Post (ownStep r s) fun t => t.cfg = s.cfg := by
  unfold ownStep
  split
  case h_2 => exact post_next rfl
  rename_i c hc
  split
  · exact post_next rfl
  unfold stepAt
  cases hp : c.pc <;> simp only [stepTAcq, stepTWaddr, stepTWdata, stepTEnR, stepTEnW, stepTMode, stepTWait,
    stepTConsume, stepTPoll, stepTDrain, stepTDisR, stepTDisW, stepTRel, stepTAbtR, stepTAbtW, stepTAbtRel, stepGAcq1,
    stepGAcq2, stepGCrel1, stepGRsR, stepGRsW, stepGRcR, stepGRcW, stepGBaR, stepGBaW, stepGRel2, stepGRel1, stepMAcq1,
    stepMAcq2, stepMCrel1, stepMWr, stepMRel2, stepMRel1, stepSRd, latchStep, latchBank, writeFull, writeBitSet,
    writeBitClear, writeMerged, readField, getBitField, goto, finish]
  case idle =>
    unfold stepIdle
    split
    · exact resumeUop_cfg _ _ _
    · exact post_next rfl
  case gBaR k =>
    split
    · exact post_next rfl
    · exact regRead_post (fun _ => post_next (by simp))
  case gBaW k => split <;> exact regWrite_post (fun _ => post_next (by simp))
  case tMode =>
    refine regRead_post (fun _ => ?_)
    split <;> exact post_next (by simp)
  case tPoll =>
    refine regRead_post (fun _ => ?_)
    split
    · exact post_next (by simp)
    · split <;> exact post_next (by simp)
  all_goals first
    | (with_reducible refine acquire_post ?_ ?_) <;> intro _ <;> exact post_next rfl
    | (with_reducible refine awaitSignal_post ?_ ?_) <;> intro _ <;> exact post_next rfl
    | (with_reducible refine regWrite_post ?_); intro _; exact post_next (by simp)
    | (with_reducible refine regRead_post ?_); intro _; exact post_next (by simp)
    | (with_reducible refine release_post ?_ ?_) <;> intro _ <;> first | exact post_next rfl | simp
    | (with_reducible refine consume_post ?_ ?_) <;> intro _ <;> first | exact post_next rfl | simp

theorem hostCommand_cfg (s : State) (r : Nat) (sel arg : Word) :
    Out.Post (hostCommand r sel arg s) fun t => t.cfg = s.cfg := by
  simp only [hostCommand, decode]
  cases hd : decodeHcmd s.cfg sel arg with
  | none => exact issue_post (fun _ _ _ => post_next rfl) rfl
  | some i =>
    simp only
    rcases decodeHcmd_instr hd with rfl | rfl | rfl | rfl | rfl | rfl | rfl <;>
      simp only [exec, execReset, execSetIrqMask, execGetIrqStatus, execGetBufPhys, execDmaWrite, execDmaRead, execMap]
    case inr.inr.inr.inr.inr.inr =>
      refine issue_post (fun _ _ _ => ?_) rfl
      split <;> exact post_next rfl
    all_goals exact issue_post (fun _ _ _ => post_next rfl) rfl

theorem dispStep_cfg (s : State) : Out.Post (dispStep s) fun t => t.cfg = s.cfg := by
  unfold dispStep
  split
  · exact post_next rfl
  · split
    · unfold execDispatch
      split <;> exact post_next rfl
    · exact post_next rfl
    · exact post_next rfl
    · exact getBitField_post (fun _ => post_next (by simp))
    · exact getBitField_post (fun _ => post_next (by simp))
    · exact notify_post (fun _ => post_next rfl) (fun _ => rfl)
    · exact notify_post (fun _ => post_next rfl) (fun _ => rfl)
    · exact post_next rfl

/-- No move changes the parameters. -/
theorem runEvent_cfg (e : Event) (s : State) : Out.Post (runEvent e s) fun t => t.cfg = s.cfg := by
  cases e with
  | host r sel arg => exact hostCommand_cfg s r sel arg
  | own r => exact ownStep_cfg s r
  | disp => exact dispStep_cfg s
  | complete d => exact fun t h => by rw [deviceMove_frame rfl s t h]
  | spurious => exact fun t h => by rw [deviceMove_frame rfl s t h]
  | device n => exact fun t h => by rw [deviceMove_frame rfl s t h]
  | cancel r =>
    simp only [runEvent, stepCancel]
    split
    · split
      · exact post_next rfl
      · unfold cancelAt finish goto
        split <;> try exact post_next rfl
        split <;> exact post_next rfl
    · exact post_next rfl
  | timeout r =>
    simp only [runEvent, stepTimeout]
    split
    · split
      · exact post_next rfl
      · unfold timeoutAt goto
        split
        · split <;> exact post_next rfl
        · split
          · split <;> exact post_next rfl
          · exact post_next rfl
        · exact post_next rfl
    · exact post_next rfl

/-! ### Runs over placed moves -/

/-- The moves of a list one after the other. -/
def runMoves : List Event → State → Out
  | [], s => .next s
  | e :: es, s =>
    match runEvent e s with
    | .next t => runMoves es t
    | .fault f => .fault f
    | .refused f => .refused f

theorem runMoves_nil (s : State) : runMoves [] s = .next s := rfl

theorem runMoves_cons {s t : State} {e : Event} {es : List Event} (h : runEvent e s = .next t) :
    runMoves (e :: es) s = runMoves es t := by
  simp [runMoves, h]

theorem Core_run_next (M : Host.Core) (n : Nat) (s t : M.State) (h : M.step s = .next t) :
    M.run (n + 1) s = M.run n t := by
  simp [Host.Core.run, h]

theorem Core_run_fault (M : Host.Core) (n : Nat) (s : M.State) (f : M.Fault) (h : M.step s = .fault f) :
    M.run (n + 1) s = .fault f := by
  simp [Host.Core.run, h]

theorem Core_run_refused (M : Host.Core) (n : Nat) (s : M.State) (f : M.Refusal) (h : M.step s = .refused f) :
    M.run (n + 1) s = .refused f := by
  simp [Host.Core.run, h]

/-- The step of a machine whose schedule starts with a list of moves is the first of them. -/
theorem step_willMoves_cons {s : State} (hv : s.cfg.valid = true) (e : Event) (es : List Event) :
    step (s.willMoves (e :: es)) = (runEvent e s).map (·.withSched (es.map Input.event ++ s.sched)) := by
  rw [show s.willMoves (e :: es) = (s.withSched (es.map .event ++ s.sched)).willMove e from rfl,
    step_willMove (s := s.withSched (es.map Input.event ++ s.sched)) hv, withSched_runEvent]

/-- Running the machine over placed moves is running the moves. -/
theorem run_willMoves : ∀ (es : List Event) (s : State), s.cfg.valid = true →
    core.run es.length (s.willMoves es) = runMoves es s := by
  intro es
  induction es with
  | nil => intro s _; rfl
  | cons e es ih =>
    intro s hv
    have h1 := step_willMoves_cons hv e es
    cases h : runEvent e s with
    | next t =>
      rw [h] at h1
      have hs : t.withSched (es.map Input.event ++ s.sched) = t.willMoves es := by
        rw [← runEvent_sched h]
        rfl
      rw [runMoves_cons h, ← ih t (by rw [runEvent_cfg e s t h]; exact hv)]
      exact Core_run_next core _ _ _ (h1.trans (congrArg Host.Outcome.next hs))
    | fault f =>
      rw [h] at h1
      simp only [runMoves, h]
      exact Core_run_fault core _ _ _ h1
    | refused f =>
      rw [h] at h1
      simp only [runMoves, h]
      exact Core_run_refused core _ _ _ h1

end Sys2Proof.Machine
end

