-- ==== Sys2Proof/Machine/Program.lean ====
section
/-! DEFINITION. The spec's program syntax (R104): one line per event, its text, and what it places on the schedule; and the
contract names of the source with their expansions (R105). -/

namespace Sys2Proof.Machine

open Sys2Proof

/-- A line of a program (R104). -/
inductive Line where
  /-- `r<N>: <OPERATION> [<ARG>]`, a host command to requester N -/
  | command (r : Nat) (i : Instr)
  /-- `<MNEMONIC> <field>` and the like, a recorded micro-operation. The spec writes no agent with it; the one it is presented
  for stands beside it here and is not part of the text. DESIGN CHOICE. [log 30] -/
  | microOp (a : Agent) (i : Instr)
  /-- `dev: COMPLETE <MM2S|S2MM>` -/
  | complete (d : Dir)
  /-- `dev: SPURIOUS` -/
  | spurious
  /-- `env: CANCEL r<N>` -/
  | cancel (r : Nat)
  /-- `env: TIMEOUT r<N>` -/
  | timeout (r : Nat)
deriving DecidableEq, Repr

/-- An instruction as an agent is given it: a host command's words at HOST (of requester 0 where the agent is no
requester), or the words of a micro-operation presented for the agent; a second word that is not there is 0. The spec writes
no agent with a micro-operation. DESIGN CHOICE. [log 30] -/
def commandInput (cfg : Config) (a : Agent) (i : Instr) : Input :=
  let ws := encode cfg i
  match i.format, a with
  | .hcmd, .requester r => .event (.host r (ws.getD 0 0) (ws.getD 1 0))
  | .hcmd, .dispatcher | .hcmd, .device => .event (.host 0 (ws.getD 0 0) (ws.getD 1 0))
  | .uop, a => .uop a (ws.getD 0 0) (ws.getD 1 0)

/-- What a line places on the schedule (R104). -/
def Line.input (cfg : Config) : Line → Input
  | .command r i => commandInput cfg (.requester r) i
  | .microOp a i => commandInput cfg a i
  | .complete d => .event (.complete d)
  | .spurious => .event .spurious
  | .cancel r => .event (.cancel r)
  | .timeout r => .event (.timeout r)

/-- A program placed before what the schedule holds: its lines are the next moves, in order. [log 15] -/
def State.withProgram (s : State) (p : List Line) : State :=
  { s with sched := p.map (Line.input s.cfg) ++ s.sched }

/-! ### The contract names of the source (R105) -/

/-- `transfer(d, a, c)` for a requester whose buffer address is a. -/
def transferCommand (d : Dir) (command : Word) : Instr :=
  match d with
  | .mm2s => .dmaWrite command
  | .s2mm => .dmaRead command

/-- `configure_interrupts(m)`. -/
def configureInterrupts (mask : Word) : Instr := .setIrqMask mask

/-- `reset()`: an omitted `ARG` is 0 (R104). -/
def resetCommand : Instr := .reset 0

/-- `set_bit(f)` as the write of 1 (R105). -/
def setBitAsWrite (f : FieldId) : Instr := asWrite (.setBit f)

/-- `clear_bit(f)` as the write of 0 (R105). -/
def clearBitAsWrite (f : FieldId) : Instr := asWrite (.clearBit f)

/-! ### Text (R104) -/

/-- `MM2S` or `S2MM`. -/
def dirName : Dir → String
  | .mm2s => "MM2S"
  | .s2mm => "S2MM"

/-- The name of a field (R33). -/
def fieldName : FieldId → String
  | .cmdAddr d => dirName d ++ "_CMD_ADDR"
  | .cmdData d => dirName d ++ "_CMD_DATA"
  | .stsFifo d => dirName d ++ "_STS_FIFO"
  | .xferEn d => dirName d ++ "_XFER_EN"
  | .stsFifoEmpty d => dirName d ++ "_STS_FIFO_EMPTY"
  | .irqEnable => "IRQ_ENABLE"
  | .irqEn d => dirName d ++ "_IRQ_EN"
  | .irqStatus => "IRQ_STATUS"
  | .globalReset => "GLOBAL_RESET"
  | .busAttr k => "BUS_ATTR_" ++ toString k.toNat

/-- One hexadecimal digit. -/
def hexDigit (n : Nat) : Char := (['0', '1', '2', '3', '4', '5', '6', '7', '8', '9', 'A', 'B', 'C', 'D', 'E', 'F'][n]?).getD '?'

/-- A 32-bit hexadecimal value (R104), in eight upper-case digits: DESIGN CHOICE. [log 32] -/
def hexWord (w : Word) : String :=
  "0x" ++ String.ofList ([7, 6, 5, 4, 3, 2, 1, 0].map fun k => hexDigit (w.toNat / 16 ^ k % 16))

/-- The text of an instruction (R104); an ignored `ARG` of 0 is omitted. R104 has no text for RESET, GET_IRQ_STATUS or
GET_BUF_PHYS with another `ARG`, which is written after the mnemonic here, nor a form without an operand for DISPATCH and IRQ,
which are their mnemonics: DESIGN CHOICE. [log 32] -/
def instrText : Instr → String
  | .reset a => if a = 0 then "RESET" else "RESET " ++ hexWord a
  | .setIrqMask a => "SET_IRQ_MASK " ++ hexWord a
  | .getIrqStatus a => if a = 0 then "GET_IRQ_STATUS" else "GET_IRQ_STATUS " ++ hexWord a
  | .getBufPhys a => if a = 0 then "GET_BUF_PHYS" else "GET_BUF_PHYS " ++ hexWord a
  | .dmaWrite a => "DMA_WRITE " ++ hexWord a
  | .dmaRead a => "DMA_READ " ++ hexWord a
  | .map a => "MAP " ++ hexWord a
  | .read f => "READ " ++ fieldName f
  | .write f v => "WRITE " ++ fieldName f ++ ", " ++ hexWord v
  | .getBit f => "GET_BIT " ++ fieldName f
  | .setBit f => "SET_BIT " ++ fieldName f
  | .clearBit f => "CLEAR_BIT " ++ fieldName f
  | .acquire d => "ACQUIRE " ++ dirName d
  | .release d => "RELEASE " ++ dirName d
  | .notify d => "NOTIFY " ++ dirName d
  | .wait d => "WAIT " ++ dirName d
  | .consume d => "CONSUME " ++ dirName d
  | .dispatch => "DISPATCH"
  | .irq => "IRQ"

/-- The text of a line (R104). That `r<N>: ` stands before whatever a command line holds, and nothing before what a
micro-operation line holds, is a DESIGN CHOICE. [log 30, 32] -/
def Line.text : Line → String
  | .command r i => "r" ++ toString r ++ ": " ++ instrText i
  | .microOp _ i => instrText i
  | .complete d => "dev: COMPLETE " ++ dirName d
  | .spurious => "dev: SPURIOUS"
  | .cancel r => "env: CANCEL r" ++ toString r
  | .timeout r => "env: TIMEOUT r" ++ toString r

end Sys2Proof.Machine
end

