-- ==== Sys2Proof/Tests/Slice0.lean ====
section
/-! SUPPORT. The model's own tests: ill-formed terms refused, the spec's words decoded, one-step vectors of the spec, and for
every statement with hypotheses a concrete state and operands that meet them. -/

namespace Sys2Proof.Tests

open Sys2Proof Sys2Proof.Machine

/-! ### Ill-formed terms (R12, R33, R35, R128; 95_test_vectors 2.7) -/

theorem test_fdesc_spans_word : FDesc.fits 64 ⟨3, 31, 2⟩ = false := by decide
theorem test_fdesc_full_width_offset : FDesc.fits 64 ⟨14, 4, 32⟩ = false := by decide
theorem test_fdesc_bank_out_of_range : FDesc.fits 64 ⟨64, 0, 1⟩ = false := by decide
theorem test_fdesc_width_zero : FDesc.fits 64 ⟨0, 0, 0⟩ = false := by decide
theorem test_fdesc_width_33 : FDesc.fits 64 ⟨0, 0, 33⟩ = false := by decide

/-- A layout in which bus attribute 0 is placed at the descriptor. -/
def busAttr0At (d : FDesc) : Config :=
  { Config.reference with fieldMap := { FieldMap.reference with busAttr := ⟨d, ⟨49, 4, 4⟩, ⟨49, 8, 4⟩, ⟨49, 12, 4⟩⟩ } }

theorem test_overlap_refused : (busAttr0At ⟨14, 0, 2⟩).fieldsApart = false := by decide
theorem test_numBanks_zero : { Config.reference with numBanks := 0 }.scalarsOk = false := by decide
theorem test_blockStride_zero : { Config.reference with blockStride := 0 }.scalarsOk = false := by decide
theorem test_interruptTimeout_zero : { Config.reference with interruptTimeout := 0 }.scalarsOk = false := by decide
theorem test_pollLimit_zero : { Config.reference with pollLimit := 0 }.scalarsOk = false := by decide
theorem test_countMax_zero : { Config.reference with countMax := 0 }.scalarsOk = false := by decide
theorem test_no_requester : { Config.reference with bufs := [] }.scalarsOk = false := by decide
theorem test_reset_effect_out_of_range :
    { Config.reference with devResetEffect := ⟨⟨false, false⟩, ⟨false, false⟩, [⟨64, 0, 0⟩]⟩ }.resetEffectFits = false := by
  decide
theorem test_base_not_aligned : { Config.reference with blockBase := ⟨0, 16, 32, 49⟩ }.basesAligned = false := by decide
theorem test_offsets_equal : { Config.reference with bufMapOffset := 0 }.offsetsDistinct = false := by decide
theorem test_selectors_equal :
    { Config.reference with opSel := { OpSel.reference with map := 0 } }.selectorsDistinct = false := by decide
theorem test_width_not_stated :
    { Config.reference with fieldMap := { FieldMap.reference with globalReset := ⟨48, 0, 2⟩ } }.widthsAsStated = false := by
  decide
theorem test_irqEn_elsewhere :
    { Config.reference with fieldMap := { FieldMap.reference with irqEn := ⟨⟨13, 0, 1⟩, ⟨14, 1, 1⟩⟩ } }.irqEnInBank = false := by
  decide
theorem test_busAttr_too_wide : { Config.reference with busAttrVal := ⟨0x10, 0xF, 1, 1⟩ }.busAttrsFit = false := by decide
theorem test_wide_getBit_ill_formed : (Instr.getBit (.busAttr .k0)).wellFormed .reference = false := by decide
theorem test_shared_enable_bank_not_separated :
    { Config.reference with fieldMap := { FieldMap.reference with xferEn := ⟨⟨3, 0, 1⟩, ⟨3, 1, 1⟩⟩ } }.separated = false := by
  decide

/-! ### Decoding, from the words of 95_test_vectors 2.7 -/

theorem test_decode_reset : decode .reference .hcmd [0x00000000, 0x00000000] = .ok (.reset 0) [] := by decide
theorem test_decode_setIrqMask : decode .reference .hcmd [0x00000001, 0x00000003] = .ok (.setIrqMask 3) [] := by decide
theorem test_decode_getIrqStatus : decode .reference .hcmd [0x00000002, 0x00000000] = .ok (.getIrqStatus 0) [] := by decide
theorem test_decode_getBufPhys : decode .reference .hcmd [0x00000003, 0x00000000] = .ok (.getBufPhys 0) [] := by decide
theorem test_decode_dmaWrite : decode .reference .hcmd [0x00000004, 0x00800000] = .ok (.dmaWrite 0x00800000) [] := by decide
theorem test_decode_dmaRead : decode .reference .hcmd [0x00000005, 0x00400000] = .ok (.dmaRead 0x00400000) [] := by decide
theorem test_decode_map : decode .reference .hcmd [0x00000006, 0x00001000] = .ok (.map 0x1000) [] := by decide
theorem test_decode_invalid : decode .reference .hcmd [0x00000007, 0x00000000] = .error .invalidSelector := by decide
theorem test_decode_read : decode .reference .uop [0x00000701] = .ok (.read (.stsFifo .s2mm)) [] := by decide
theorem test_decode_read_status : decode .reference .uop [0x00000D01] = .ok (.read .irqStatus) [] := by decide
theorem test_decode_write : decode .reference .uop [0x00000502, 0x1B000000] = .ok (.write (.cmdAddr .s2mm) 0x1B000000) [] := by
  decide
theorem test_decode_write_attr : decode .reference .uop [0x00001202, 0x1] = .ok (.write (.busAttr .k3) 1) [] := by decide
theorem test_decode_write_truncated : decode .reference .uop [0x00000502] = .error .truncated := by decide
theorem test_decode_getBit : decode .reference .uop [0x00000C03] = .ok (.getBit (.irqEn .s2mm)) [] := by decide
theorem test_decode_setBit : decode .reference .uop [0x00000E04] = .ok (.setBit .globalReset) [] := by decide
theorem test_decode_clearBit : decode .reference .uop [0x00000805] = .ok (.clearBit (.xferEn .s2mm)) [] := by decide
theorem test_decode_acquire : decode .reference .uop [0x00010010] = .ok (.acquire .s2mm) [] := by decide
theorem test_decode_release : decode .reference .uop [0x00000011] = .ok (.release .mm2s) [] := by decide
theorem test_decode_notify : decode .reference .uop [0x00010020] = .ok (.notify .s2mm) [] := by decide
theorem test_decode_wait : decode .reference .uop [0x00000021] = .ok (.wait .mm2s) [] := by decide
theorem test_decode_consume : decode .reference .uop [0x00010022] = .ok (.consume .s2mm) [] := by decide
theorem test_decode_dispatch : decode .reference .uop [0x00000030] = .ok .dispatch [] := by decide
theorem test_decode_irq : decode .reference .uop [0x00000031] = .ok .irq [] := by decide
theorem test_refuse_code : decode .reference .uop [0x00000040] = .error .badCode := by decide
theorem test_refuse_fid : decode .reference .uop [0x00001301] = .error .badFid := by decide
theorem test_refuse_d : decode .reference .uop [0x00010001] = .error .dSet := by decide
theorem test_refuse_fid_on_lock : decode .reference .uop [0x00000110] = .error .fidSet := by decide
theorem test_refuse_z : decode .reference .uop [0x00020010] = .error .zNonZero := by decide
theorem test_refuse_wide : decode .reference .uop [0x00000F03] = .error .wideField := by decide
theorem test_refuse_d_on_dispatch : decode .reference .uop [0x00010030] = .error .dSet := by decide

theorem test_fdesc_cmdAddr : FDesc.decode 64 0x00000400 = some ⟨0, 0, 32⟩ := by decide
theorem test_fdesc_irqEnable : FDesc.decode 64 0x000E0400 = some ⟨14, 0, 32⟩ := by decide
theorem test_fdesc_busAttr1 : FDesc.decode 64 0x00310084 = some ⟨49, 4, 4⟩ := by decide
theorem test_fdesc_busAttr3 : FDesc.decode 64 0x0031008C = some ⟨49, 12, 4⟩ := by decide
theorem test_fdesc_reserved_bits : FDesc.decode 64 0x00030820 = none := by decide

/-- R34 row for row: the words of the reference table. -/
theorem test_reference_layout :
    FieldId.all.map (fun f => (f.fid, (Config.reference.field f).bank, (Config.reference.field f).width)) =
      [(0, 0, 32), (1, 1, 32), (2, 2, 32), (3, 3, 1), (4, 4, 1), (5, 8, 32), (6, 9, 32), (7, 10, 32), (8, 11, 1),
       (9, 12, 1), (10, 14, 32), (11, 14, 1), (12, 14, 1), (13, 15, 32), (14, 48, 1), (15, 49, 4), (16, 49, 4),
       (17, 49, 4), (18, 49, 4)] := by decide

/-- R69: bank 49 lies in the global block, bank 15 in the first. -/
theorem test_blocks : blockOf .reference 49 = some .global ∧ blockOf .reference 15 = some .dma ∧
    blockOf .reference 16 = some .rffe := by decide

/-- R104: the text of a line of program P1. -/
theorem test_line_text : (Line.command 0 (.dmaWrite 0x00800000)).text = "r0: DMA_WRITE 0x00800000" := by decide

/-- R104: the words of that line (P1: 00000004 00800000). -/
theorem test_line_input :
    (Line.command 0 (.dmaWrite 0x00800000)).input .reference = .event (.host 0 0x00000004 0x00800000) := by decide

/-- R104, R100: a micro-operation is written without its agent. -/
theorem test_line_microOp : (Line.microOp .dispatcher (.notify .s2mm)).text = "NOTIFY S2MM" ∧
    (Line.microOp .dispatcher (.notify .s2mm)).input .reference = .uop .dispatcher 0x00010020 0 := by decide

/-! ### Small states -/

/-- The answer is a next state that meets p. -/
def nextSat (o : Out) (p : State → Bool) : Bool :=
  match o with
  | .next t => p t
  | .fault _ | .refused _ => false

theorem nextSat_spec {o : Out} {p : State → Bool} (h : nextSat o p = true) : ∃ t, o = .next t ∧ p t = true := by
  cases o with
  | next t => exact ⟨t, rfl, h⟩
  | fault _ => simp [nextSat] at h
  | refused _ => simp [nextSat] at h

/-- The context of r0 of S0. -/
def ctx0 : Ctx := Ctx.fresh 0x1A000000

/-- The context of r0 in operation op at a micro-state. -/
def ctxAt (op : Op) (p : MicroState) (d : Dir) : Ctx := { ctx0 with op := op, pc := p, dir := d }

/-- S0 with the locks given, r0 at a micro-state. -/
def stAt (op : Op) (p : MicroState) (d : Dir) (m s : Option Nat) : State :=
  { State.reset with lock := ⟨m, s⟩, ctxs := [ctxAt op p d, Ctx.fresh 0x1B000000] }

/-- S0 with one bank holding a word. -/
def withBank (b : Nat) (v : Word) : State := { State.reset with dregs := State.reset.dregs.setBank .little b v }

/-- The REG-port accesses are these, newest first. -/
def logIs (l : List Access) (t : State) : Bool := decide (t.portLog = l)

/-- The hand-built result in r0's destination. -/
def destIs (v : Word) (t : State) : Bool := decide ((t.ctx? 0).map Ctx.dest = some v)

/-- r0 is at a micro-state with a result. -/
def at0 (p : MicroState) (res : Option Result) (t : State) : Bool :=
  decide ((t.ctx? 0).map Ctx.pc = some p ∧ (t.ctx? 0).map Ctx.res = some res)

/-- What HOST receives from r0. -/
def hresIs (res : Nat) (out : Option Word) (t : State) : Bool := decide ((t.ctx? 0).map Ctx.hres = some (some (res, out)))

theorem test_reset_memory_wf : State.reset.dregs.wf = true := by decide

/-! ### Host commands (vectors E4, G5-G15) -/

theorem test_E4_row1 : nextSat (runEvent (.host 0 4 0x00800000) .reset) fun t =>
    at0 .tAcq none t && decide ((t.ctx? 0).map Ctx.arg = some 0x00800000 ∧ (t.ctx? 0).map Ctx.dir = some .mm2s) := by decide
theorem test_dmaRead_issue : nextSat (runEvent (.host 1 5 0x00400000) .reset) fun t =>
    decide ((t.ctx? 1).map Ctx.pc = some .tAcq ∧ (t.ctx? 1).map Ctx.dir = some .s2mm) := by decide
theorem test_G5_issue : nextSat (runEvent (.host 0 1 2) .reset) (at0 .mAcq1 none) := by decide
theorem test_G8_issue : nextSat (runEvent (.host 0 2 77) .reset) (at0 .sRd none) := by decide
theorem test_G9 : nextSat (runEvent (.host 0 3 0) .reset) (hresIs 0 (some 0x1A000000)) := by decide
theorem test_G10 : nextSat (runEvent (.host 0 6 0) .reset) (hresIs 0 (some 0)) := by decide
theorem test_G11 : nextSat (runEvent (.host 0 6 0x1000) .reset) (hresIs 0 (some 1)) := by decide
theorem test_G12 : nextSat (runEvent (.host 0 6 4) .reset) (hresIs 3 none) := by decide
theorem test_G13 : nextSat (runEvent (.host 0 7 0) .reset) (hresIs 3 none) := by decide
theorem test_G14 : nextSat (runEvent (.host 0 0xFFFFFFFF 0x12345678) .reset) (hresIs 3 none) := by decide
theorem test_G15_issue : nextSat (runEvent (.host 0 0 0xDEADBEEF) .reset) (at0 .gAcq1 none) := by decide

/-- G5: `M_WR` is `W(14, 0x00000002)`. -/
theorem test_G5_write : nextSat (stepAt 0 { ctxAt .setIrqMask .mWr .mm2s with arg := 2 }
    (stAt .setIrqMask .mWr .mm2s (some 0) (some 0))) fun t =>
    logIs [.write 14 2] t && decide (t.stored 14 = 2) && at0 .mRel2 none t := by decide

/-! ### The accessor (vectors A1-A14) -/

theorem test_A1 : nextSat (exec (.read (.irqEn .s2mm)) (withBank 14 2)) (destIs 1) := by decide
theorem test_A3 : nextSat (exec (.read .irqEnable) (withBank 14 0x8000F00D)) (destIs 0x8000F00D) := by decide
theorem test_A4 : nextSat (exec (.read (.busAttr .k2)) (withBank 49 0x0000ABCD)) (destIs 0xB) := by decide
theorem test_A5_first : nextSat (exec (.write (.busAttr .k1) 0x1F) (withBank 49 0x0000ABCD))
    (logIs [.read 49 0x0000ABCD]) := by decide
theorem test_A5_second : nextSat (resumeUop 0 { ctx0 with tmp := 0x0000ABCD } (.write (.busAttr .k1) 0x1F)
    (withBank 49 0x0000ABCD)) fun t => logIs [.write 49 0x0000ABFD] t && decide (t.stored 49 = 0x0000ABFD) := by decide
theorem test_A7 : nextSat (exec (.write (.cmdData .mm2s) 0xFFFFFFFF) (withBank 1 0x12345678)) fun t =>
    logIs [.write 1 0xFFFFFFFF] t && decide (t.stored 1 = 0xFFFFFFFF) := by decide
theorem test_A8 : nextSat (resumeUop 0 { ctx0 with tmp := 0xFFFFFFF0 } (.write (.xferEn .mm2s) 2) (withBank 3 0xFFFFFFF0))
    (logIs [.write 3 0xFFFFFFF0]) := by decide
theorem test_A9 : nextSat (resumeUop 0 { ctx0 with tmp := 1 } (.setBit (.xferEn .mm2s)) (withBank 3 1)) fun t =>
    logIs [.write 3 1] t && decide (t.busy = ⟨false, false⟩) := by decide
theorem test_A10 : nextSat (resumeUop 0 ctx0 (.clearBit (.xferEn .s2mm)) (withBank 11 0)) (logIs [.write 11 0]) := by decide
theorem test_A11 : nextSat (exec (.getBit (.stsFifoEmpty .mm2s)) .reset) fun t =>
    destIs 1 t && logIs [.read 4 1] t := by decide
theorem test_A12 : nextSat (exec (.getBit (.stsFifoEmpty .mm2s)) { State.reset with fifo := ⟨[7], []⟩ }) fun t =>
    destIs 0 t && logIs [.read 4 0] t && decide (t.fifo.mm2s = [7]) := by decide
theorem test_A13 : exec (.getBit (.busAttr .k0)) .reset = .refused (.wideBitField (.busAttr .k0)) := by rfl
theorem test_A14 : nextSat (exec (.read (.stsFifo .mm2s)) { State.reset with fifo := ⟨[7, 8], []⟩ }) fun t =>
    destIs 7 t && decide (t.fifo.mm2s = [8]) := by decide
theorem test_A15 : nextSat (exec (.read (.stsFifo .mm2s)) .reset) fun t => decide (t.fifo.mm2s = []) := by decide

/-! ### Locks and counts (vectors L1-L6, S1-S10) -/

theorem test_L1 : nextSat (ownStep 0 (stAt .dmaWrite .tAcq .mm2s none none)) fun t =>
    at0 .tWaddr none t && decide (t.lock = ⟨some 0, none⟩) := by decide
theorem test_L2 : ownStep 0 (stAt .dmaWrite .tAcq .mm2s (some 1) none) = .next (stAt .dmaWrite .tAcq .mm2s (some 1) none) := by
  rfl
theorem test_L3 : nextSat (ownStep 0 (stAt .dmaRead .tRel .s2mm none (some 0))) fun t =>
    at0 .idle (some .success) t && decide (t.lock = ⟨none, none⟩) := by decide
theorem test_L4 : nextSat (exec (.release .mm2s) { State.reset with lock := ⟨some 1, none⟩ }) fun t =>
    decide (t.fault = some .releaseNotOwner ∧ t.lock = ⟨some 1, none⟩) := by decide
theorem test_L5 : nextSat (stepCancel 0 (stAt .dmaWrite .tAcq .mm2s (some 1) none)) fun t =>
    at0 .idle (some .interrupted) t && logIs [] t && decide (t.lock = ⟨some 1, none⟩) := by decide
theorem test_acquire_by_hand : nextSat (exec (.acquire .s2mm) .reset) fun t => decide (t.lock = ⟨none, some 0⟩) := by decide
theorem test_S1 : nextSat (exec (.notify .s2mm) .reset) fun t => decide (t.count = ⟨0, 1⟩) := by decide
/-- R276: the device that overflows a count takes no further step. -/
theorem test_device_stops : nextSat (exec (.notify .mm2s)
    { State.reset with count := ⟨2 ^ 31 - 1, 0⟩, cur := .device, busy := ⟨true, false⟩ }) fun t =>
      decide (t.fault = some .countOverflow) && nextSat (stepComplete .mm2s t) (fun u => decide (u.busy = ⟨true, false⟩)) &&
        nextSat (stepSpurious t) (fun u => decide (u.irqPending = 0)) := by decide
theorem test_S2 : nextSat (exec (.notify .mm2s) { State.reset with count := ⟨2 ^ 31 - 1, 0⟩ }) fun t =>
    decide (t.fault = some .countOverflow ∧ t.count = ⟨2 ^ 31 - 1, 0⟩) := by decide
theorem test_S3_wait : nextSat (ownStep 0 { stAt .dmaWrite .tWait .mm2s (some 0) none with count := ⟨2, 0⟩ }) fun t =>
    at0 .tConsume none t && decide (t.count = ⟨2, 0⟩) := by decide
theorem test_S4 : nextSat (stepTimeout 0 (stAt .dmaWrite .tWait .mm2s (some 0) none)) fun t =>
    at0 .tAbtR none t && decide ((t.ctx? 0).map Ctx.err = some (some .timeout)) := by decide
theorem test_S6 : nextSat (stepCancel 0 { stAt .dmaWrite .tWait .mm2s (some 0) none with count := ⟨1, 0⟩ }) fun t =>
    at0 .tAbtR none t && decide (t.count = ⟨1, 0⟩ ∧ (t.ctx? 0).map Ctx.err = some (some .interrupted)) := by decide
theorem test_S7 : nextSat (stepTimeout 0 { stAt .dmaWrite .tWait .mm2s (some 0) none with count := ⟨1, 0⟩ })
    (at0 .tWait none) := by decide
theorem test_wait_by_hand : nextSat (exec (.wait .mm2s) { State.reset with count := ⟨1, 0⟩ }) fun t =>
    decide ((t.ctx? 0).map Ctx.waited = some (some .signalled) ∧ t.count = ⟨1, 0⟩) := by decide
theorem test_S9 : nextSat (exec (.consume .s2mm) { State.reset with count := ⟨0, 1⟩ }) fun t =>
    decide (t.count = ⟨0, 0⟩) := by decide
theorem test_S10 : nextSat (exec (.consume .s2mm) .reset) fun t => decide (t.fault = some .consumeAtZero) := by decide

/-! ### The dispatcher (vectors D1-D10, E2, E3) -/

/-- S0 with the locks held as given, the status FIFOs and the dispatcher's micro-state. -/
def dState (hs hm : Bool) (fs fm : List Word) (p : DispPc) : State :=
  { State.reset with
    lock := ⟨if hm then some 0 else none, if hs then some 1 else none⟩, fifo := ⟨fm, fs⟩, irqPending := 1, dispPc := p
    dispHeldM := hm }

theorem test_dispatch : nextSat (exec .dispatch (dState false false [] [] .dIdle)) fun t =>
    decide (t.dispPc = .dRdM ∧ t.irqPending = 0) := by decide
theorem test_D10_irq : nextSat (exec .irq (dState true false [] [] .dChkS)) fun t =>
    decide (t.dispPc = .dChkS ∧ t.irqPending = 2) := by decide
theorem test_E3_no_lock : nextSat (dispStep (dState false false [1] [2] .dRdS)) fun t =>
    decide (t.dispPc = .dLog ∧ t.portLog = []) := by decide
theorem test_D2_s2mm_first : nextSat (dispStep (dState true true [1] [2] .dChkS)) fun t =>
    decide (t.dispPc = .dNotifyS) && logIs [.read 12 0] t := by decide
theorem test_D3_then_mm2s : nextSat (dispStep (dState true true [] [2] .dChkS)) fun t =>
    decide (t.dispPc = .dChkM) && logIs [.read 12 1] t := by decide
theorem test_D5_errant : nextSat (dispStep (dState true false [] [2] .dChkS)) fun t => decide (t.dispPc = .dLog) := by decide
theorem test_D7_log : nextSat (dispStep (dState false true [] [] .dLog)) fun t =>
    decide (t.dispPc = .dIdle ∧ t.errlog = [.errant]) := by decide

/-! ### The device (R77, R78; E4 row 6) -/

theorem test_enable_starts_transfer : nextSat (ownStep 0 (stAt .dmaWrite .tEnW .mm2s (some 0) none)) fun t =>
    logIs [.write 3 1] t && decide (t.busy = ⟨true, false⟩) := by decide
theorem test_complete_raises_irq : nextSat (stepComplete .mm2s { withBank 14 1 with busy := ⟨true, false⟩ }) fun t =>
    decide (t.busy = ⟨false, false⟩ ∧ t.fifo.mm2s.length = 1 ∧ t.irqPending = 1) := by decide
theorem test_complete_polling_no_irq : nextSat (stepComplete .mm2s { withBank 14 2 with busy := ⟨true, false⟩ }) fun t =>
    decide (t.fifo.mm2s.length = 1 ∧ t.irqPending = 0) := by decide
/-- The reference configuration with a reset effect that empties the MM2S FIFO and clears the low half of bank 1. -/
def withEffect : Config :=
  { Config.reference with devResetEffect := ⟨⟨true, false⟩, ⟨false, true⟩, [⟨1, 0xFFFF0000, 0⟩]⟩ }

/-- R66: a write that changes `GLOBAL_RESET` from 0 to 1 has the reset effect; in the reference configuration it has none. -/
theorem test_reset_effect : (({ withBank 1 0x12345678 with cfg := withEffect, fifo := ⟨[7], [8]⟩ }).afterWrite 48 1).stored 1
      = 0x12340000 ∧
    (({ State.reset with cfg := withEffect, fifo := ⟨[7], [8]⟩, busy := ⟨true, true⟩ }).afterWrite 48 1).fifo = ⟨[], [8]⟩ ∧
    (({ State.reset with cfg := withEffect, busy := ⟨true, true⟩ }).afterWrite 48 1).busy = ⟨true, false⟩ ∧
    (({ withBank 1 5 with fifo := ⟨[7], [8]⟩ }).afterWrite 48 1).fifo = ⟨[7], [8]⟩ := by decide
/-- R62: bank 1 is bytes 4 to 7, the low byte first in the reference order and last in the other. -/
theorem test_byte_order : (State.reset.dregs.setBank .little 1 0x12345678).get 4 = 0x78 ∧
    (State.reset.dregs.setBank .big 1 0x12345678).get 4 = 0x12 := by decide

/-- R70: a device other than the reference one takes no COMPLETE. -/
theorem test_other_device : nextSat (stepComplete .mm2s
    { State.reset with cfg := { Config.reference with dev := .other 3 }, busy := ⟨true, false⟩ }) fun t =>
      decide (t.busy = ⟨true, false⟩) := by decide

/-- R105: WRITE d_XFER_EN, 1 presented at `T_EN_R` is the requester's step, as SET_BIT is. -/
theorem test_spelling : nextSat (exec (.write (.xferEn .mm2s) 1) (stAt .dmaWrite .tEnR .mm2s (some 0) none)) fun t =>
    at0 .tEnW none t && logIs [.read 3 0] t := by decide

/-! ### The step and a placed word -/

theorem test_fetch_dmaWrite : nextSat (step (State.reset.withFetchWord 32 0x00000004)) (at0 .tAcq none) := by decide
theorem test_fetch_irq : nextSat (step (State.reset.withFetchWord 32 0x00000031)) fun t => decide (t.irqPending = 1) := by
  decide
theorem test_table_word_read : decodeTableWord 32 0x00000201 = some (.read (.stsFifo .mm2s)) := by decide
theorem test_bad_micro_op : step (State.reset.willPresent (.requester 0) 0x00000040 0) = .refused .badMicroOp := by rfl
theorem test_bad_configuration : step { State.reset with cfg := busAttr0At ⟨14, 0, 2⟩ } = .refused .badConfiguration := by
  rfl

/-! ### Witnesses: states and operands that meet the hypotheses of the statements -/

theorem valid_reset : State.reset.cfg.valid = true := Config.reference_valid

/-- r0 of S0 takes what is presented to it. -/
theorem takes_reset : State.reset.takes 0 ctx0 := ⟨rfl, rfl, rfl⟩

theorem live_stAt (op : Op) (p : MicroState) (d : Dir) (m s : Option Nat) : (stAt op p d m s).live 0 (ctxAt op p d) := ⟨rfl, rfl⟩

theorem valid_stAt (op : Op) (p : MicroState) (d : Dir) (m s : Option Nat) : (stAt op p d m s).cfg.valid = true :=
  Config.reference_valid

theorem witness_AttachLeavesListedValues : ∃ (cfg : Config) (s : State), s = State.attach cfg ∧ cfg.valid = true ∧
    cfg.numReq = 1 := ⟨{ Config.reference with bufs := [0x1A000000] }, _, rfl, by decide, rfl⟩

/-- A field at each end of the table, on a narrow and on a full-width field. -/
theorem witness_DecodeUndoesEncode : ∃ (cfg : Config) (i : Instr), cfg.valid = true ∧ i.wellFormed cfg = true :=
  ⟨.reference, .setBit (.xferEn .s2mm), Config.reference_valid, by decide⟩

theorem witness_EncodeUndoesDecode : ∃ (cfg : Config) (fmt : Format) (ws rest : List Word) (i : Instr),
    decode cfg fmt ws = .ok i rest :=
  ⟨.reference, .uop, [0x00001202, 0x1, 0x31], [0x31], .write (.busAttr .k3) 1, by decide⟩

theorem witness_ReservedMicroOps_code : State.reset.cfg.valid = true ∧ ((0x00000006 : Word).extractLsb' 0 8).toNat ∉
    [0x01, 0x02, 0x03, 0x04, 0x05, 0x10, 0x11, 0x20, 0x21, 0x22, 0x30, 0x31] := ⟨valid_reset, by decide⟩
theorem witness_ReservedMicroOps_fid : 19 ≤ ((0x00001301 : Word).extractLsb' 8 8).toNat := by decide
theorem witness_ReservedMicroOps_z : ((0x00020010 : Word).extractLsb' 17 15).toNat ≠ 0 := by decide
theorem witness_ReservedMicroOps_lock : ((0x00000131 : Word).extractLsb' 0 8).toNat ∈ [0x10, 0x11, 0x20, 0x21, 0x22, 0x30, 0x31] ∧
    ((0x00000131 : Word).extractLsb' 8 8).toNat ≠ 0 := by decide
theorem witness_ReservedMicroOps_d : ((0x00010030 : Word).extractLsb' 0 8).toNat ∈ [0x01, 0x02, 0x03, 0x04, 0x05, 0x30, 0x31] ∧
    (0x00010030 : Word).getLsbD 16 = true := by decide
theorem witness_ReservedMicroOps_wide : ((0x00000F03 : Word).extractLsb' 0 8).toNat ∈ [0x03, 0x04, 0x05] ∧
    ∃ f : FieldId, f.fid = ((0x00000F03 : Word).extractLsb' 8 8).toNat ∧ (State.reset.cfg.field f).width ≠ 1 :=
  ⟨by decide, .busAttr .k0, by decide⟩

theorem witness_FieldDescriptor_fits : FDesc.fits 64 ⟨63, 31, 1⟩ = true ∧ FDesc.fits 64 ⟨0, 0, 32⟩ = true := by decide

theorem witness_StepRuns_host : decode State.reset.cfg .hcmd [5, 9] = .ok (.dmaRead 9) [] := by decide
theorem witness_StepRuns_uop : decode State.reset.cfg .uop [0x00000022, 0] = .ok (.consume .mm2s) [0] := by decide

theorem witness_PlacedWord : ∃ (s : State) (r nbits w : Nat) (i : Instr), s.cfg = .reference ∧ s.cur = .requester r ∧
    decodeTableWord nbits w = some i :=
  ⟨.reset, 0, 32, 0x00010010, .acquire .s2mm, rfl, rfl, by decide⟩

/-- The reference layout with bus attribute 0 placed at a descriptor. -/
def resetWith (d : FDesc) : State := { State.reset with cfg := busAttr0At d }

theorem witness_BrokenLayout_width0 : ((resetWith ⟨49, 0, 0⟩).cfg.field (.busAttr .k0)).width < 1 := by decide
theorem witness_BrokenLayout_width33 : 32 < ((resetWith ⟨49, 0, 33⟩).cfg.field (.busAttr .k0)).width := by decide
theorem witness_BrokenLayout_spans :
    32 < ((resetWith ⟨49, 31, 2⟩).cfg.field (.busAttr .k0)).offset + ((resetWith ⟨49, 31, 2⟩).cfg.field (.busAttr .k0)).width := by
  decide
theorem witness_BrokenLayout_bank :
    (resetWith ⟨64, 0, 4⟩).cfg.numBanks ≤ ((resetWith ⟨64, 0, 4⟩).cfg.field (.busAttr .k0)).bank := by decide
theorem witness_BrokenLayout_offset : ((resetWith ⟨49, 1, 32⟩).cfg.field (.busAttr .k0)).width = 32 ∧
    ((resetWith ⟨49, 1, 32⟩).cfg.field (.busAttr .k0)).offset ≠ 0 := by decide
theorem witness_BrokenLayout_overlap : ∃ f g : FieldId, ∃ bit : Nat, f ≠ g ∧
    ((resetWith ⟨14, 1, 2⟩).cfg.field f).width < 32 ∧ ((resetWith ⟨14, 1, 2⟩).cfg.field g).width < 32 ∧
    ((resetWith ⟨14, 1, 2⟩).cfg.field f).bank = ((resetWith ⟨14, 1, 2⟩).cfg.field g).bank ∧
    ((resetWith ⟨14, 1, 2⟩).cfg.field f).offset ≤ bit ∧
    bit < ((resetWith ⟨14, 1, 2⟩).cfg.field f).offset + ((resetWith ⟨14, 1, 2⟩).cfg.field f).width ∧
    ((resetWith ⟨14, 1, 2⟩).cfg.field g).offset ≤ bit ∧
    bit < ((resetWith ⟨14, 1, 2⟩).cfg.field g).offset + ((resetWith ⟨14, 1, 2⟩).cfg.field g).width :=
  ⟨.busAttr .k0, .irqEn .s2mm, 1, by decide⟩

/-- Of HostOperationsStart, and of every statement about a micro-operation taken by hand. -/
theorem witness_HostOperationsStart : ∃ (s : State) (r : Nat) (c : Ctx), s.takes r c ∧ s.cfg.valid = true :=
  ⟨.reset, 0, ctx0, takes_reset, valid_reset⟩

theorem witness_BufferAndMap : ∃ arg : Word, arg ≠ State.reset.cfg.regMapOffset ∧ arg ≠ State.reset.cfg.bufMapOffset :=
  ⟨4, by decide⟩

theorem witness_InvalidSelector : State.reset.ctx? 0 = some ctx0 ∧ ctx0.ready = true ∧ (7 : Word) ∉ State.reset.cfg.opSel.toList :=
  ⟨rfl, rfl, by decide⟩

theorem witness_BusyRequester : (stAt .dmaWrite .tWait .mm2s (some 0) none).ctx? 0 = some (ctxAt .dmaWrite .tWait .mm2s) ∧
    (ctxAt .dmaWrite .tWait .mm2s).pc ≠ .idle := ⟨rfl, by decide⟩

theorem witness_TransferTakesItsLock : (stAt .dmaRead .tAcq .s2mm none none).live 0 (ctxAt .dmaRead .tAcq .s2mm) ∧
    (stAt .dmaRead .tAcq .s2mm none none).lock.get .s2mm = none ∧
    (stAt .dmaRead .tAcq .s2mm none (some 1)).lock.get .s2mm ≠ none := ⟨live_stAt .., rfl, by decide⟩

/-- Of TransferWritesAddressAndCommand, at both micro-states: the states exist and the banks are storage. -/
theorem witness_TransferWrites (p : MicroState) (d : Dir) : (stAt .dmaWrite p d (some 0) none).live 0 (ctxAt .dmaWrite p d) ∧
    (stAt .dmaWrite p d (some 0) none).cfg.valid = true ∧ (ctxAt .dmaWrite p d).pc = p ∧
    plainBank .reference (Config.reference.field (.cmdAddr d)).bank = true ∧
    plainBank .reference (Config.reference.field (.cmdData d)).bank = true ∧
    plainBank .reference (Config.reference.field (.xferEn d)).bank = true ∧
    storageBank .reference (Config.reference.field (.irqEn d)).bank = true :=
  ⟨live_stAt .., valid_stAt .., rfl, by cases d <;> decide, by cases d <;> decide, by cases d <;> decide,
    by cases d <;> decide⟩

/-- Of TransferSetsTheEnableBit: the bit is stored 0, so the transfer starts. -/
theorem witness_TransferSetsEnable : (stAt .dmaWrite .tEnW .mm2s (some 0) none).xferEnabled .mm2s = false := by decide

/-- Of TransferReadsTheMode: both modes. -/
theorem witness_TransferReadsMode : (withBank 14 1).irqMode .mm2s = true ∧ (withBank 14 1).irqMode .s2mm = false ∧
    ((withBank 14 1).readValue 14).getLsbD 0 = true ∧ ((withBank 14 1).readValue 14).getLsbD 1 = false := by decide

/-- Of TransferConsumesOneEvent, at both ends of the count. -/
theorem witness_TransferConsumes : { stAt .dmaWrite .tConsume .mm2s (some 0) none with count := ⟨1, 0⟩ }.count.get .mm2s = 0 + 1 ∧
    (stAt .dmaWrite .tConsume .mm2s (some 0) none).count.get .mm2s = 0 := ⟨rfl, rfl⟩

/-- Of TransferPollsOnce: empty at the last iteration and below it, and not empty. -/
theorem witness_TransferPolls : ({ ctxAt .dmaWrite .tPoll .mm2s with iter := 7 }).iter + 1 = State.reset.cfg.pollLimit ∧
    (State.reset.readValue 4).getLsbD 0 = true ∧ ({ State.reset with fifo := ⟨[7], []⟩ }.readValue 4).getLsbD 0 = false := by decide

theorem witness_TransferDrains (d : Dir) :
    (Config.reference.field (.stsFifo d.other)).bank ≠ (Config.reference.field (.stsFifo d)).bank := by cases d <;> decide

theorem witness_TransferClears (d : Dir) : plainBank .reference (Config.reference.field (.xferEn d)).bank = true ∧
    (Config.reference.field (.xferEn d.other)).bank ≠ (Config.reference.field (.xferEn d)).bank := by cases d <;> decide

theorem witness_TransferReleases : (stAt .dmaWrite .tRel .mm2s (some 0) none).lock.get .mm2s = some 0 ∧
    (stAt .dmaWrite .tAbtRel .mm2s (some 1) none).lock.get .mm2s ≠ some 0 ∧
    (stAt .dmaWrite .tRel .mm2s (some 0) none).live 0 (ctxAt .dmaWrite .tRel .mm2s) := ⟨rfl, by decide, live_stAt ..⟩

/-- Of the statements about RESET and SET_IRQ_MASK: a live requester at any micro-state, holding one lock or both. -/
theorem witness_GlobalSteps (op : Op) (p : MicroState) : (stAt op p .mm2s (some 0) (some 0)).live 0 (ctxAt op p .mm2s) ∧
    (stAt op p .mm2s (some 0) (some 0)).cfg.valid = true ∧ (stAt op p .mm2s (some 0) (some 0)).lock.mm2s = some 0 ∧
    (stAt op p .mm2s (some 0) (some 0)).lock.s2mm = some 0 ∧ (stAt op p .mm2s (some 0) none).lock.s2mm = none ∧
    (stAt op p .mm2s none none).lock.mm2s = none ∧ (stAt op p .mm2s (some 1) (some 1)).lock.mm2s ≠ some 0 ∧
    (stAt op p .mm2s (some 1) (some 1)).lock.s2mm ≠ some 0 :=
  ⟨live_stAt .., valid_stAt .., rfl, rfl, rfl, rfl, by show some 1 ≠ some 0; decide, by show some 1 ≠ some 0; decide⟩

/-- A configuration with a full-width bus attribute is valid, so both branches of ResetWritesBusAttributes are met. -/
theorem witness_ResetWritesBusAttributes : (busAttr0At ⟨49, 0, 32⟩).valid = true ∧
    ((busAttr0At ⟨49, 0, 32⟩).field (.busAttr .k0)).width = 32 ∧ (Config.reference.field (.busAttr .k3)).width ≠ 32 := by decide

theorem witness_MaskWritten : plainBank .reference (Config.reference.field .irqEnable).bank = true := by decide

/-- Of the accessor's statements: fields of width 1, 4 and 32, quiet banks and one that is not. -/
theorem witness_Accessor : (Config.reference.field (.xferEn .mm2s)).width = 1 ∧ (Config.reference.field (.busAttr .k3)).width < 32 ∧
    (Config.reference.field (.cmdData .s2mm)).width = 32 ∧ quietBank .reference 3 = true ∧ plainBank .reference 49 = true ∧
    plainBank .reference 9 = true ∧ resetSpares .reference 2 = true := by decide

theorem witness_BitOperationsOnWideFields : (State.reset.cfg.field (.busAttr .k0)).width ≠ 1 ∧
    (State.reset.cfg.field .irqEnable).width ≠ 1 := by decide

/-- Of LockMicroOperations: a free lock, a lock held by r0, a lock held by r1. -/
theorem witness_LockMicroOperations (m : Option Nat) :
    { State.reset with lock := ⟨m, none⟩ }.takes 0 ctx0 ∧ { State.reset with lock := ⟨m, none⟩ }.lock.get .mm2s = m :=
  ⟨⟨rfl, rfl, rfl⟩, rfl⟩

/-- Of CountMicroOperations and WaitMicroOperation: any count, 0, 1 and `COUNT_MAX` among them. -/
theorem witness_CountMicroOperations (n : Nat) :
    { State.reset with count := ⟨n, 0⟩ }.takes 0 ctx0 ∧ { State.reset with count := ⟨n, 0⟩ }.count.get .mm2s = n :=
  ⟨⟨rfl, rfl, rfl⟩, rfl⟩

theorem witness_IrqAndDispatch : (dState false false [] [] .dIdle).dispStopped = false ∧
    (dState false false [] [] .dIdle).dispPc = .dIdle ∧ (dState false false [] [] .dIdle).irqPending = 0 + 1 ∧
    (dState false false [] [] .dLog).dispPc ≠ .dIdle ∧ State.reset.irqPending = 0 ∧ State.reset.devStopped = false ∧
    { State.reset with devStopped := true }.devStopped = true := by decide

/-- Of DispatcherStepsAsStated, at every micro-state, with the locks and FIFOs of any row of R180. -/
theorem witness_DispatcherSteps (hs hm : Bool) (fs fm : List Word) (p : DispPc) :
    (dState hs hm fs fm p).cfg.valid = true ∧ (dState hs hm fs fm p).dispStopped = false ∧
    (dState hs hm fs fm p).dispPc = p ∧ (dState hs hm fs fm p).count.s2mm ≠ (dState hs hm fs fm p).cfg.countMax ∧
    (dState hs hm fs fm p).count.mm2s ≠ (dState hs hm fs fm p).cfg.countMax :=
  ⟨Config.reference_valid, rfl, rfl, by show (0 : Nat) ≠ 2 ^ 31 - 1; decide, by show (0 : Nat) ≠ 2 ^ 31 - 1; decide⟩

/-- Of AttributionTable: every row of R180 (D1 to D8). -/
theorem witness_AttributionTable (hs hm : Bool) (fs fm : List Word) : (dState hs hm fs fm .dIdle).cfg = .reference ∧
    0 < (dState hs hm fs fm .dIdle).irqPending ∧ (dState hs hm fs fm .dIdle).held .s2mm = hs ∧
    (dState hs hm fs fm .dIdle).held .mm2s = hm ∧ (dState hs hm fs fm .dIdle).fifo = ⟨fm, fs⟩ ∧
    (dState hs hm fs fm .dIdle).count.mm2s < (dState hs hm fs fm .dIdle).cfg.countMax ∧
    (dState hs hm fs fm .dIdle).count.s2mm < (dState hs hm fs fm .dIdle).cfg.countMax :=
  ⟨rfl, Nat.one_pos, by cases hs <;> rfl, by cases hm <;> rfl, rfl, by show (0 : Nat) < 2 ^ 31 - 1; decide,
    by show (0 : Nat) < 2 ^ 31 - 1; decide⟩

/-- Of DispatcherLeavesTheRestAlone, DeviceAnswersReads, DeviceTakesWrites and PollingReadsUpToTheCeiling: the reference layout
keeps the device-owned fields in banks of their own. -/
theorem witness_DeviceBanks (d : Dir) : quietBank State.reset.cfg (State.reset.cfg.field (.stsFifoEmpty d)).bank = true ∧
    (State.reset.cfg.field (.stsFifoEmpty d.other)).bank ≠ (State.reset.cfg.field (.stsFifoEmpty d)).bank ∧
    (State.reset.cfg.field (.stsFifo d.other)).bank ≠ (State.reset.cfg.field (.stsFifo d)).bank ∧
    fifoAt State.reset.cfg (State.reset.cfg.field .irqStatus).bank = none ∧ storageBank State.reset.cfg 3 = true ∧
    quietBank State.reset.cfg (State.reset.cfg.field .irqStatus).bank = false := by cases d <;> decide

/-- Of DeviceAnswersReads, DeviceTakesWrites, DeviceStepsByItself and DispatcherLeavesTheRestAlone: another device, in a valid
configuration. -/
theorem witness_OtherDevice : ∃ s : State, s.cfg.valid = true ∧ s.cfg.dev = .other 3 ∧ s.devStopped = false :=
  ⟨{ State.reset with cfg := { Config.reference with dev := .other 3 } }, by decide, rfl, rfl⟩

/-- Of DeviceTakesWrites: a write that pulses the reset bit, with an effect on another bank, and one that does not. -/
theorem witness_ResetEffect : withEffect.valid = true ∧ { State.reset with cfg := withEffect }.pulsesReset 48 1 = true ∧
    storageBank withEffect 48 = true ∧ (⟨1, 0xFFFF0000, 0⟩ : BankReset) ∈ withEffect.devResetEffect.banks ∧
    State.reset.pulsesReset 48 0 = false ∧ outsideWrite withEffect 48 8 := by
  refine ⟨by decide, by decide, by decide, by decide, by decide, .inl (by decide), fun _ e he => ?_⟩
  simp only [withEffect, List.mem_singleton] at he
  subst he
  exact .inr (by decide)

theorem witness_DeviceSteps : { State.reset with busy := ⟨true, false⟩ }.busy.get .mm2s = true ∧
    { State.reset with busy := ⟨true, false⟩ }.busy.get .s2mm = false ∧ State.reset.cfg.dev = .reference ∧
    State.reset.devStopped = false := ⟨rfl, rfl, rfl, rfl⟩

/-- Of ReplayedMicroOpIsTheAgentsStep: the first half of row 5 of P1, and a dispatcher's check. -/
theorem witness_Replayed : (stAt .dmaWrite .tEnR .mm2s (some 0) none).cur = .requester 0 ∧
    (ctxAt .dmaWrite .tEnR .mm2s).uop = none ∧
    microOpAt .reference (ctxAt .dmaWrite .tEnR .mm2s) = some (.setBit (.xferEn .mm2s)) ∧
    dispMicroOp .dChkS = some (.getBit (.stsFifoEmpty .s2mm)) ∧ (Instr.setBit (.xferEn .mm2s)).wellFormed .reference = true :=
  ⟨rfl, rfl, rfl, rfl, by decide⟩

/-! ### Witnesses: disciplined states -/

/-- Two contexts in the reference configuration: what makes a state disciplined. -/
theorem disciplined_two {s : State} {c e : Ctx} (hcfg : s.cfg = .reference) (hctx : s.ctxs = [c, e])
    (hsched : ∀ i ∈ s.sched, ∃ v, i = .event v) (hc : c.disciplined 8) (he : e.disciplined 8)
    (hlock : ∀ d, s.lock.get d = if c.holds d then some 0 else if e.holds d then some 1 else none)
    (hone : ∀ d, c.holds d = true → e.holds d = false) (h0 : c.pc = .tConsume → 0 < s.count.get c.dir)
    (h1 : e.pc = .tConsume → 0 < s.count.get e.dir) (hb : ∀ d, s.count.get d ≤ 2 ^ 31 - 1) : s.Disciplined := by
  refine ⟨by rw [hcfg]; exact Config.reference_valid, hsched, ?_, ?_, ?_, by rw [hcfg]; exact hb⟩
  · intro r f hf
    rw [hcfg]
    match r with
    | 0 =>
      simp only [State.ctx?, hctx, List.getElem?_cons_zero, Option.some.injEq] at hf
      exact hf ▸ hc
    | 1 =>
      simp only [State.ctx?, hctx, List.getElem?_cons_succ, List.getElem?_cons_zero, Option.some.injEq] at hf
      exact hf ▸ he
    | n + 2 => simp [State.ctx?, hctx] at hf
  · intro r d
    rw [hlock d]
    match r with
    | 0 =>
      simp only [State.ctx?, hctx, List.getElem?_cons_zero, Option.some.injEq, exists_eq_left']
      split
      · simp_all
      · split <;> simp_all
    | 1 =>
      simp only [State.ctx?, hctx, List.getElem?_cons_succ, List.getElem?_cons_zero, Option.some.injEq, exists_eq_left']
      split
      · rename_i h
        simp [hone d h]
      · split <;> simp_all
    | n + 2 =>
      simp only [State.ctx?, hctx, List.getElem?_cons_succ, List.getElem?_nil]
      split
      · simp
      · split <;> simp
  · intro r f hf hp
    match r with
    | 0 =>
      simp only [State.ctx?, hctx, List.getElem?_cons_zero, Option.some.injEq] at hf
      exact hf ▸ h0 (hf ▸ hp)
    | 1 =>
      simp only [State.ctx?, hctx, List.getElem?_cons_succ, List.getElem?_cons_zero, Option.some.injEq] at hf
      exact hf ▸ h1 (hf ▸ hp)
    | n + 2 => simp [State.ctx?, hctx] at hf

theorem disciplined_fresh (b : Word) : (Ctx.fresh b).disciplined 8 := by simp [Ctx.disciplined, Ctx.fresh, Ctx.opFits]

/-- r0 in an MM2S transfer at a micro-state that holds its lock, as the very next to move; r1 idle. -/
def inTransfer (p : MicroState) (n : Nat) : State :=
  { stAt .dmaWrite p .mm2s (some 0) none with count := ⟨n, 0⟩, sched := [.event (.own 0)] }

theorem disciplined_inTransfer (n : Nat) (p : MicroState) (hn : n ≤ 2 ^ 31 - 1) (h0 : p = .tConsume → 0 < n)
    (hp : p ∈ [.tWaddr, .tWdata, .tEnR, .tEnW, .tMode, .tWait, .tConsume, .tPoll, .tDrain, .tDisR, .tDisW, .tRel]) :
    (inTransfer p n).Disciplined := by
  refine disciplined_two (c := ctxAt .dmaWrite p .mm2s) (e := Ctx.fresh 0x1B000000) rfl rfl ?_ ?_ (disciplined_fresh _) ?_ ?_ h0
    (fun h => nomatch h) ?_
  · intro i hi
    simp only [inTransfer, List.mem_singleton] at hi
    exact ⟨_, hi⟩
  · simp only [List.mem_cons, List.not_mem_nil, or_false] at hp
    rcases hp with rfl | rfl | rfl | rfl | rfl | rfl | rfl | rfl | rfl | rfl | rfl | rfl <;>
      simp [Ctx.disciplined, ctxAt, ctx0, Ctx.fresh, Ctx.opFits]
  · simp only [List.mem_cons, List.not_mem_nil, or_false] at hp
    intro d
    rcases hp with rfl | rfl | rfl | rfl | rfl | rfl | rfl | rfl | rfl | rfl | rfl | rfl <;> cases d <;> rfl
  · intro d _
    cases d <;> rfl
  · intro d
    cases d
    · exact hn
    · exact Nat.zero_le _

/-- Of EveryStepKeepsTheDiscipline, EveryStepKeepsTheEnableBitOwned and OnlyOverflowCanFault. -/
theorem witness_EveryStepKeepsTheDiscipline : ∃ s t : State, s.Disciplined ∧ s.cfg = .reference ∧ s.enableOwned ∧
    step s = .next t ∧ t.xferEnabled .mm2s = true := by
  obtain ⟨t, ht, h⟩ := nextSat_spec (o := step (inTransfer .tEnW 0)) (p := fun t => t.xferEnabled .mm2s) (by decide)
  refine ⟨inTransfer .tEnW 0, t, disciplined_inTransfer _ _ (by decide) (by decide) (by decide), rfl, ?_, ht, h⟩
  intro d hd
  cases d <;> exact absurd hd (by decide)

theorem witness_AttachIsDisciplined : Config.reference.valid = true := Config.reference_valid

/-- r0 in an MM2S transfer at `T_WAIT`, r1 in an S2MM transfer at `T_DRAIN`. -/
def bothTransfer : State :=
  { State.reset with
    lock := ⟨some 0, some 1⟩
    ctxs := [ctxAt .dmaWrite .tWait .mm2s, { Ctx.fresh 0x1B000000 with op := .dmaRead, pc := .tDrain, dir := .s2mm }] }

theorem disciplined_bothTransfer : bothTransfer.Disciplined := by
  refine disciplined_two (c := ctxAt .dmaWrite .tWait .mm2s)
    (e := { Ctx.fresh 0x1B000000 with op := .dmaRead, pc := .tDrain, dir := .s2mm }) rfl rfl (fun i hi => nomatch hi)
    (by simp [Ctx.disciplined, ctxAt, ctx0, Ctx.fresh, Ctx.opFits]) (by simp [Ctx.disciplined, Ctx.fresh, Ctx.opFits])
    ?_ ?_ (fun h => nomatch h) (fun h => nomatch h) ?_
  · intro d
    cases d <;> rfl
  · intro d
    cases d <;> decide
  · intro d
    cases d <;> decide

/-- Of TransfersExcludeEachOther and HolderOfS2mmNeverWaits. -/
theorem witness_TransfersExcludeEachOther : ∃ (s : State) (r q : Nat) (c e : Ctx), s.Disciplined ∧ s.ctx? r = some c ∧
    s.ctx? q = some e ∧ q ≠ r ∧ c.pc.transferring = true ∧ e.pc.transferring = true ∧ s.lock.s2mm = some q :=
  ⟨bothTransfer, 0, 1, _, _, disciplined_bothTransfer, rfl, rfl, by decide, rfl, rfl, rfl⟩

/-- r0 holds MM2S and waits for S2MM at `G_ACQ2`. -/
theorem witness_HolderOfS2mmNeverWaits : ∃ (s : State) (r : Nat) (c : Ctx), s.Disciplined ∧ s.ctx? r = some c ∧
    s.lock.mm2s = some r ∧ c.pc.acquiring = true := by
  refine ⟨stAt .reset .gAcq2 .mm2s (some 0) none, 0, ctxAt .reset .gAcq2 .mm2s, ?_, rfl, rfl, rfl⟩
  refine disciplined_two (c := ctxAt .reset .gAcq2 .mm2s) (e := Ctx.fresh 0x1B000000) rfl rfl (fun i hi => nomatch hi)
    (by simp [Ctx.disciplined, ctxAt, ctx0, Ctx.fresh, Ctx.opFits]) (disciplined_fresh _) ?_ ?_ (fun h => nomatch h)
    (fun h => nomatch h) ?_
  · intro d
    cases d <;> rfl
  · intro d _
    cases d <;> rfl
  · intro d
    cases d <;> decide

/-- Of EveryStepKeepsTheRegisterSpace: a recorded fault, a memory that lists bytes, a step that writes. -/
theorem witness_EveryStepKeepsTheRegisterSpace : ∃ s t : State, s.dregs.wf = true ∧ s.inRange ∧ step s = .next t ∧
    s.fault ≠ none ∧ t.portLog ≠ s.portLog := by
  obtain ⟨t, ht, h⟩ := nextSat_spec
    (o := step ({ withBank 63 5 with fault := some .consumeAtZero }.willPresent (.requester 0) 0x00000102 9))
    (p := fun t => decide (t.portLog ≠ [])) (by decide)
  refine ⟨_, t, by decide, ?_, ht, by decide, of_decide_eq_true h⟩
  show ∀ c ∈ [((252, 5) : Host.Cell)], c.1 < 256
  decide

/-- Of CountsChangeOnlyThere: down at `T_CONSUME`, from 1 to 0. -/
theorem witness_CountsChange_down : ∃ s t : State, s.Disciplined ∧ step s = .next t ∧
    t.count.get .mm2s ≠ s.count.get .mm2s := by
  obtain ⟨t, ht, h⟩ := nextSat_spec (o := step (inTransfer .tConsume 1)) (p := fun t => decide (t.count.get .mm2s ≠ 1)) (by decide)
  exact ⟨_, t, disciplined_inTransfer _ _ (by decide) (by decide) (by decide), ht, of_decide_eq_true h⟩

/-- Up at `D_NOTIFY_M`, to `COUNT_MAX`. -/
theorem witness_CountsChange_up : ∃ s t : State, s.Disciplined ∧ step s = .next t ∧
    t.count.get .mm2s ≠ s.count.get .mm2s := by
  obtain ⟨t, ht, h⟩ := nextSat_spec
    (o := step { inTransfer .tWait (2 ^ 31 - 2) with sched := [.event .disp], dispPc := .dNotifyM })
    (p := fun t => decide (t.count.get .mm2s ≠ 2 ^ 31 - 2)) (by decide)
  refine ⟨{ inTransfer .tWait (2 ^ 31 - 2) with sched := [.event .disp], dispPc := .dNotifyM }, t, ?_, ht, of_decide_eq_true h⟩
  refine (disciplined_inTransfer (2 ^ 31 - 2) .tWait (by decide) (by decide) (by decide)).same rfl rfl ?_ rfl
    (fun _ => le_refl _) ?_
  · intro i hi
    simp only [List.mem_singleton] at hi
    exact ⟨_, hi⟩
  · intro d
    cases d <;> decide

/-- Of OnlyOverflowCanFault: a full count at `D_NOTIFY_M`. -/
theorem witness_OnlyOverflowCanFault : ∃ s : State, s.Disciplined ∧ s.dispPc = .dNotifyM ∧ s.count.mm2s = s.cfg.countMax := by
  refine ⟨{ inTransfer .tWait (2 ^ 31 - 1) with dispPc := .dNotifyM }, ?_, rfl, rfl⟩
  refine (disciplined_inTransfer (2 ^ 31 - 1) .tWait (by decide) (by decide) (by decide)).same rfl rfl
    (disciplined_inTransfer (2 ^ 31 - 1) .tWait (by decide) (by decide) (by decide)).onlyMoves rfl (fun _ => le_refl _) ?_
  intro d
  cases d <;> decide

/-- Of ContextsChangeOnlyByTheirOwnMoves: a step that changes a context, and a stopped one. -/
theorem witness_ContextsChange : ∃ (s t : State) (q : Nat) (c : Ctx), s.nextIsMove ∧ step s = .next t ∧ s.ctx? q = some c ∧
    t.ctx? q ≠ some c := by
  obtain ⟨t, ht, h⟩ := nextSat_spec (o := step (inTransfer .tWaddr 0))
    (p := fun t => decide (t.ctx? 0 ≠ some (ctxAt .dmaWrite .tWaddr .mm2s))) (by decide)
  exact ⟨inTransfer .tWaddr 0, t, 0, _, ⟨.own 0, rfl⟩, ht, rfl, of_decide_eq_true h⟩

/-- Of ModeIsStableDuringTransfer: `M_WR` with the mask 1 changes the mode of MM2S. -/
theorem witness_ModeIsStable : ∃ s t : State, s.Disciplined ∧ s.cfg = .reference ∧ step s = .next t ∧
    t.irqMode .mm2s ≠ s.irqMode .mm2s := by
  obtain ⟨t, ht, h⟩ := nextSat_spec
    (o := step { State.reset with
      lock := ⟨some 0, some 0⟩, sched := [.event (.own 0)]
      ctxs := [{ ctxAt .setIrqMask .mWr .mm2s with arg := 1 }, Ctx.fresh 0x1B000000] })
    (p := fun t => t.irqMode .mm2s) (by decide)
  refine ⟨_, t, ?_, rfl, ht, ?_⟩
  · refine disciplined_two (c := { ctxAt .setIrqMask .mWr .mm2s with arg := 1 }) (e := Ctx.fresh 0x1B000000) rfl rfl ?_
      (by simp [Ctx.disciplined, ctxAt, ctx0, Ctx.fresh, Ctx.opFits]) (disciplined_fresh _) ?_ ?_ (fun h => nomatch h)
      (fun h => nomatch h) ?_
    · intro i hi
      simp only [List.mem_singleton] at hi
      exact ⟨_, hi⟩
    · intro d
      cases d <;> rfl
    · intro d _
      cases d <;> rfl
    · intro d
      cases d <;> decide
  · rw [h]
    decide

/-- Of TransferMeasureDecreases: at `T_WAIT` with the count 0 and above 0, and one step from the return. -/
theorem witness_TransferMeasure : (inTransfer .tWait 0).Disciplined ∧ (inTransfer .tWait 1).Disciplined ∧
    (inTransfer .tRel 0).Disciplined ∧ MicroState.tRel.transferring = true :=
  ⟨disciplined_inTransfer _ _ (by decide) (by decide) (by decide), disciplined_inTransfer _ _ (by decide) (by decide) (by decide),
    disciplined_inTransfer _ _ (by decide) (by decide) (by decide), rfl⟩

/-! ### Witnesses: runs -/

/-- Of PollingReadsUpToTheCeiling, for every number of reads up to the ceiling. -/
theorem witness_Polling : (stAt .dmaWrite .tPoll .mm2s (some 0) none).live 0 (ctxAt .dmaWrite .tPoll .mm2s) ∧
    (ctxAt .dmaWrite .tPoll .mm2s).iter = 0 ∧ (stAt .dmaWrite .tPoll .mm2s (some 0) none).fifo.get .mm2s = [] ∧
    (stAt .dmaWrite .tPoll .mm2s (some 0) none).cfg.pollLimit = 8 := ⟨live_stAt .., rfl, rfl, rfl⟩

/-- Of ResetRunsToSuccess: the start of vector G2. -/
theorem witness_ResetRuns : ∃ (s : State) (r : Nat) (c : Ctx), s.cfg = .reference ∧ s.ctx? r = some c ∧ c.ready = true ∧
    s.lock = ⟨none, none⟩ ∧ s.stored 48 = 0x80000000 ∧ s.stored 49 = 0xABCD0000 :=
  ⟨{ State.reset with dregs := (State.reset.dregs.setBank .little 48 0x80000000).setBank .little 49 0xABCD0000 }, 0, ctx0, rfl,
    rfl, rfl, rfl, by decide, by decide⟩

/-- Of BothDetectorsSucceedAlike: both directions, in both modes. -/
theorem witness_BothDetectors (d : Dir) : ∃ s t : State, s.cfg = .reference ∧ t.cfg = .reference ∧ s.ctx? 0 = some ctx0 ∧
    t.ctx? 0 = some ctx0 ∧ ctx0.ready = true ∧ s.lock = ⟨none, none⟩ ∧ s.count = ⟨0, 0⟩ ∧ s.irqPending = 0 ∧
    s.dispPc = .dIdle ∧ s.dispStopped = false ∧ s.devStopped = false ∧ s.fifo.get d = [] ∧ s.irqMode d = true ∧ t.irqMode d = false ∧
    (s.stored ((if d = .mm2s then 0 else 8) + 3)).getLsbD 0 = false :=
  ⟨withBank 14 3, .reset, rfl, rfl, rfl, rfl, rfl, rfl, rfl, rfl, rfl, rfl, rfl, by cases d <;> rfl, by cases d <;> decide,
    by cases d <;> decide, by cases d <;> decide⟩

/-- An invocation from `D_RD_M` with no lock held (E3), and then rest. -/
def errantRun : Nat → State
  | 0 => { dState false false [] [] .dRdM with irqPending := 0 }
  | 1 => { dState false false [] [] .dRdS with irqPending := 0 }
  | 2 => { dState false false [] [] .dLog with irqPending := 0 }
  | _ => { dState false false [] [] .dIdle with irqPending := 0, errlog := [.errant] }

theorem witness_FairDispatcher : ∃ (run : Nat → State) (moves : Nat → Event), IsRun run moves ∧ Fair run moves ∧
    (run 0).Disciplined ∧ (run 0).dispPc ≠ .dIdle := by
  have idle : ∀ n r c, (errantRun n).ctx? r = some c → c.pc = .idle ∧ c.uop = none := by
    have hc : ∀ n, (errantRun n).ctxs = [ctx0, Ctx.fresh 0x1B000000] := fun n => by
      match n with
      | 0 => rfl
      | 1 => rfl
      | 2 => rfl
      | n + 3 => rfl
    intro n r c h
    simp only [State.ctx?, hc n] at h
    match r with
    | 0 =>
      simp only [List.getElem?_cons_zero, Option.some.injEq] at h
      exact h ▸ ⟨rfl, rfl⟩
    | 1 =>
      simp only [List.getElem?_cons_succ, List.getElem?_cons_zero, Option.some.injEq] at h
      exact h ▸ ⟨rfl, rfl⟩
    | k + 2 => simp at h
  have valid : ∀ n, (errantRun n).cfg.valid = true := fun n => by
    match n with
    | 0 => exact Config.reference_valid
    | 1 => exact Config.reference_valid
    | 2 => exact Config.reference_valid
    | n + 3 => exact Config.reference_valid
  refine ⟨errantRun, fun _ => .disp, ?_, ⟨fun n _ => ⟨n, le_refl n, rfl⟩, ?_, ?_⟩, ?_, by decide⟩
  · intro n
    rw [step_willMove (valid n)]
    match n with
    | 0 => rfl
    | 1 => rfl
    | 2 => rfl
    | n + 3 => rfl
  · intro r n h
    exfalso
    obtain ⟨t, ht, hne⟩ := h n (le_refl n)
    rw [step_willMove (valid n)] at ht
    cases hc : (errantRun n).ctx? r with
    | none => simp [runEvent, ownStep, hc] at ht; exact hne ht.symm
    | some c =>
      obtain ⟨h1, h2⟩ := idle n r c hc
      simp [runEvent, ownStep, hc, stepAt, h1, stepIdle, h2] at ht
      exact hne ht.symm
  · intro r n h
    exfalso
    obtain ⟨t, ht, hne⟩ := h n (le_refl n)
    rw [step_willMove (valid n)] at ht
    cases hc : (errantRun n).ctx? r with
    | none => simp [runEvent, stepTimeout, hc] at ht; exact hne ht.symm
    | some c =>
      obtain ⟨h1, h2⟩ := idle n r c hc
      simp [runEvent, stepTimeout, hc, timeoutAt, h1, h2] at ht
      exact hne ht.symm
  · refine disciplined_two (c := ctx0) (e := Ctx.fresh 0x1B000000) rfl rfl (fun i hi => nomatch hi) (disciplined_fresh _)
      (disciplined_fresh _) ?_ ?_ (fun h => nomatch h) (fun h => nomatch h) ?_
    · intro d
      cases d <;> rfl
    · intro d _
      cases d <;> rfl
    · intro d
      cases d <;> decide

end Sys2Proof.Tests
end

section
/-! SUPPORT. The transfer's steps that access a register: the buffer address and the command word, the enable bit set and
cleared, and the drain (R194-R196, R201, R202, R204). First what one access gives in a valid configuration, then what it
does to the bytes, to the enable bit and to the device; the statements are assembled from these. -/

namespace Sys2Proof

theorem Config.offset_lt {cfg : Config} (h : cfg.valid = true) (f : FieldId) : (cfg.field f).offset < 32 := by
  obtain ⟨hw, -, hsum, -, -⟩ := Config.valid_fits h f
  omega

theorem Dir.eq_or_eq_other (d e : Dir) : e = d ∨ e = d.other := by
  cases d <;> cases e <;> decide

theorem PerDir.set_get_self {α : Type} (x : PerDir α) (d : Dir) : x.set d (x.get d) = x := by
  cases d <;> rfl

end Sys2Proof

namespace Sys2Proof.Machine

open Sys2Proof

/-! ### The accessor in a valid configuration -/

theorem readField_eq {s : State} (h : s.cfg.valid = true) (f : FieldId) (k : Word → State → Out) :
    readField f s k = k (fieldValue (s.cfg.field f) (s.readValue (s.cfg.field f).bank))
      (s.afterRead (s.cfg.field f).bank) := by
  simp only [readField, regRead_field h]

theorem latchStep_eq {s : State} (h : s.cfg.valid = true) (f : FieldId) (p : MicroState) (r : Nat) (c : Ctx) :
    latchStep f p r c s = .next ((s.afterRead (s.cfg.field f).bank).setCtx r
      { c with tmp := s.readValue (s.cfg.field f).bank, pc := p }) := by
  simp only [latchStep, latchBank, regRead_field h]

theorem writeFull_eq {s : State} (h : s.cfg.valid = true) (f : FieldId) (v : Word) (k : State → Out) :
    writeFull f v s k = k (s.afterWrite (s.cfg.field f).bank v) :=
  regWrite_field h f v k

theorem writeBitSet_eq {s : State} (h : s.cfg.valid = true) (f : FieldId) (tmp : Word) (k : State → Out) :
    writeBitSet f tmp s k = k (s.afterWrite (s.cfg.field f).bank (tmp ||| (1#32 <<< (s.cfg.field f).offset))) :=
  regWrite_field h f _ k

theorem writeBitClear_eq {s : State} (h : s.cfg.valid = true) (f : FieldId) (tmp : Word) (k : State → Out) :
    writeBitClear f tmp s k = k (s.afterWrite (s.cfg.field f).bank (tmp &&& ~~~(1#32 <<< (s.cfg.field f).offset))) :=
  regWrite_field h f _ k

/-! ### The bytes a write leaves -/

/-- Where a write meets no reset effect, every byte of another bank is outside it. -/
theorem outsideWrite_of_spared {cfg : Config} {b a : Nat} (hr : resetSpares cfg b = true)
    (ha : a < 4 * b ∨ 4 * b + 4 ≤ a) : outsideWrite cfg b a := by
  refine ⟨ha, fun hb e he => ?_⟩
  rcases resetSpares_iff.1 hr with hnone | hother
  · simp [hnone, ResetEffect.none] at he
  · simp [holdsField, hb] at hother

theorem State.byte_afterWrite_spared {s : State} {b a : Nat} (v : Word) (hr : resetSpares s.cfg b = true)
    (ha : a < 4 * b ∨ 4 * b + 4 ≤ a) : (s.afterWrite b v).dregs.get a = s.dregs.get a :=
  State.byte_afterWrite_outside v (outsideWrite_of_spared hr ha)

/-! ### The enable bit and the start of a transfer (R77) -/

theorem getLsbD_or_bitAt {o : Nat} (ho : o < 32) (v : Word) : (v ||| (1#32 <<< o)).getLsbD o = true := by
  rw [BitVec.getLsbD_or, getLsbD_bitAt o ho, decide_eq_true rfl, Bool.or_true]

theorem getLsbD_and_not_bitAt {o : Nat} (ho : o < 32) (v : Word) : (v &&& ~~~(1#32 <<< o)).getLsbD o = false := by
  rw [BitVec.getLsbD_and, BitVec.getLsbD_not, getLsbD_bitAt o ho, decide_eq_true rfl, Bool.not_true, Bool.and_false,
    Bool.and_false]

/-- The enable bit after a plain write of its bank is the bit written. -/
theorem State.xferEnabled_afterWrite {s : State} {d : Dir} (v : Word)
    (h : plainBank s.cfg (s.cfg.field (.xferEn d)).bank = true) :
    (s.afterWrite (s.cfg.field (.xferEn d)).bank v).xferEnabled d = v.getLsbD (s.cfg.field (.xferEn d)).offset := by
  rw [State.xferEnabled, State.afterWrite_cfg, State.stored_afterWrite_same v h, fieldBit_eq]

/-- A write of the bank of an enable bit starts the transfer exactly when it takes the bit from 0 to 1. -/
theorem State.startsTransfer_own (s : State) (v : Word) (d : Dir) :
    s.startsTransfer (s.cfg.field (.xferEn d)).bank v d =
      (!s.xferEnabled d && v.getLsbD (s.cfg.field (.xferEn d)).offset) := by
  simp [State.startsTransfer, holdsField, State.xferEnabled, fieldBit_eq]

/-- A write of a bank without the enable bit of a direction starts no transfer of it. -/
theorem State.startsTransfer_elsewhere {s : State} {b : Nat} {d : Dir} (v : Word)
    (h : (s.cfg.field (.xferEn d)).bank ≠ b) : s.startsTransfer b v d = false := by
  simp [State.startsTransfer, holdsField, h]

/-- A plain write keeps a `busy` bit and adds the start of a transfer. -/
theorem State.busy_afterWrite {s : State} {b : Nat} (v : Word) (h : plainBank s.cfg b = true) (d : Dir) :
    (s.afterWrite b v).busy.get d = (s.busy.get d || s.startsTransfer b v d) := by
  rw [State.afterWrite_busy, State.writeEffect_storage v h]
  cases d <;> rfl

/-- A plain write that leaves the enable bit 0 leaves `busy` of its direction. -/
theorem State.busy_afterWrite_disabling {s : State} {d : Dir} {v : Word}
    (h : plainBank s.cfg (s.cfg.field (.xferEn d)).bank = true)
    (hbit : v.getLsbD (s.cfg.field (.xferEn d)).offset = false) :
    (s.afterWrite (s.cfg.field (.xferEn d)).bank v).busy.get d = s.busy.get d := by
  rw [State.busy_afterWrite v h, State.startsTransfer_own, hbit, Bool.and_false, Bool.or_false]

/-- Where the other direction's enable bit lies in another bank, such a write leaves both `busy` bits. -/
theorem State.busy_afterWrite_disabling_all {s : State} {d : Dir} {v : Word}
    (h : plainBank s.cfg (s.cfg.field (.xferEn d)).bank = true)
    (hbit : v.getLsbD (s.cfg.field (.xferEn d)).offset = false)
    (hother : (s.cfg.field (.xferEn d.other)).bank ≠ (s.cfg.field (.xferEn d)).bank) :
    (s.afterWrite (s.cfg.field (.xferEn d)).bank v).busy = s.busy := by
  refine PerDir.ext_get fun e => ?_
  rcases Dir.eq_or_eq_other d e with rfl | rfl
  · exact State.busy_afterWrite_disabling h hbit
  · rw [State.busy_afterWrite v h, State.startsTransfer_elsewhere v hother, Bool.or_false]

/-! ### The status FIFO word (R74) -/

/-- A status FIFO word in a bank of its own is found under its direction. -/
theorem fifoAt_own {cfg : Config} {d : Dir}
    (h : (cfg.field (.stsFifo d.other)).bank ≠ (cfg.field (.stsFifo d)).bank) :
    fifoAt cfg (cfg.field (.stsFifo d)).bank = some d := by
  cases d with
  | mm2s => simp [fifoAt, holdsField]
  | s2mm => simp only [Dir.other] at h; simp [fifoAt, holdsField, h]

/-- A read of the status FIFO word of d takes the first entry of the FIFO, where there is one. -/
theorem State.fifo_afterRead {s : State} {b : Nat} {d : Dir} (hd : s.cfg.dev = .reference)
    (hb : fifoAt s.cfg b = some d) : (s.afterRead b).fifo = s.fifo.set d (s.fifo.get d).tail := by
  simp only [State.afterRead_fifo, State.readEffect, hd, State.refReadEffect, hb]
  cases hf : s.fifo.get d with
  | cons e es => rfl
  | nil =>
    have hset : s.fifo.set d [] = s.fifo := by rw [← hf, PerDir.set_get_self]
    exact hset.symm

/-! ### The statements -/

/-- Settles O15: both micro-states make the one full write of their field's bank. -/
theorem transferWritesAddressAndCommand : Obligations.TransferWritesAddressAndCommand := by
  intro s r c p q f v hv hl hp hcase
  have hstep : stepAt r c s = writeFull f v s (goto r c q) := by
    rcases hcase with ⟨rfl, rfl, rfl, rfl⟩ | ⟨rfl, rfl, rfl, rfl⟩ <;> simp only [stepAt, hp] <;> rfl
  refine ⟨_, ?_, rfl, rfl, State.stored_afterWrite_same v, fun hr a => State.byte_afterWrite_spared v hr⟩
  rw [step_own hv hl, hstep, writeFull_eq hv]
  rfl

/-- Settles O16: the word written back has the enable bit, so a stored 0 becomes a 1, which starts the transfer. -/
theorem transferSetsTheEnableBit : Obligations.TransferSetsTheEnableBit := by
  rintro s r c b o hv hl rfl rfl
  rw [step_own hv hl]
  constructor
  · intro hp
    simp only [stepAt, hp, stepTEnR]
    exact latchStep_eq hv _ _ _ _
  · intro hp
    have hbit := getLsbD_or_bitAt (Config.offset_lt hv (.xferEn c.dir)) c.tmp
    refine ⟨_, ?_, rfl, fun hr a => State.byte_afterWrite_spared _ hr, fun hplain =>
      ⟨State.stored_afterWrite_same _ hplain, (State.xferEnabled_afterWrite _ hplain).trans hbit, fun hoff => ?_⟩⟩
    · simp only [stepAt, hp, stepTEnW]
      exact writeBitSet_eq hv _ _ _
    · rw [State.setCtx_busy, State.busy_afterWrite _ hplain, State.startsTransfer_own, hoff, hbit, Bool.not_false,
        Bool.and_true, Bool.or_true]

/-- Settles O21: the drain is one read, and a read of the FIFO word takes one entry and changes no byte. -/
theorem transferDrainsOnce : Obligations.TransferDrainsOnce := by
  rintro s r c b hv hl hp rfl
  refine ⟨_, ?_, rfl, rfl, fun hd hother => State.fifo_afterRead hd (fifoAt_own hother), fun a => ?_⟩
  · rw [step_own hv hl]
    simp only [stepAt, hp, stepTDrain]
    exact readField_eq hv _ _
  · rw [State.setCtx_dregs, State.afterRead_dregs]

/-- Settles O22: the success exit and the error exit latch the bank and write it back in the same way; the word written
back has the enable bit 0, so it starts no transfer. -/
theorem transferClearsTheEnableBit : Obligations.TransferClearsTheEnableBit := by
  rintro s r c b o pr pw after hv hl rfl rfl hexit
  rw [step_own hv hl]
  constructor
  · intro hp
    have hstep : stepAt r c s = latchStep (.xferEn c.dir) pw r c s := by
      rcases hexit with ⟨rfl, rfl, -⟩ | ⟨rfl, rfl, -⟩ <;> simp only [stepAt, hp] <;> rfl
    rw [hstep, latchStep_eq hv]
  · intro hp
    have hstep : stepAt r c s = writeBitClear (.xferEn c.dir) c.tmp s (goto r c after) := by
      rcases hexit with ⟨-, rfl, rfl⟩ | ⟨-, rfl, rfl⟩ <;> simp only [stepAt, hp] <;> rfl
    have hbit := getLsbD_and_not_bitAt (Config.offset_lt hv (.xferEn c.dir)) c.tmp
    refine ⟨_, ?_, rfl, fun hr a => State.byte_afterWrite_spared _ hr, fun hplain =>
      ⟨State.stored_afterWrite_same _ hplain, (State.xferEnabled_afterWrite _ hplain).trans hbit,
        State.busy_afterWrite_disabling hplain hbit, State.busy_afterWrite_disabling_all hplain hbit⟩⟩
    rw [hstep, writeBitClear_eq hv]
    rfl

end Sys2Proof.Machine
end

section
/-! SUPPORT. The command whose selector names no operation (R94, R258): its decoding, and its issue step at HOST. -/

namespace Sys2Proof

/-- A selector that is none of `OP_SEL` decodes to INVALID (R94). -/
theorem decodeHcmd_of_not_mem {cfg : Config} {sel : Word} (h : sel ∉ cfg.opSel.toList) (arg : Word) :
    decodeHcmd cfg sel arg = none := by
  simp only [OpSel.toList, List.mem_cons, List.not_mem_nil, or_false, not_or] at h
  obtain ⟨hreset, hmask, hstatus, hbuf, hwrite, hread, hmap⟩ := h
  rw [decodeHcmd, if_neg hreset, if_neg hmask, if_neg hstatus, if_neg hbuf, if_neg hwrite, if_neg hread, if_neg hmap]

end Sys2Proof

namespace Sys2Proof.Machine

open Sys2Proof

/-- A ready requester takes the command or micro-operation presented to it. -/
theorem State.takes_present {s : State} {r : Nat} {c : Ctx} (hc : s.ctx? r = some c) (hready : c.ready = true) :
    (s.present (.requester r)).takes r c :=
  ⟨rfl, hc, hready⟩

/-- HOST's words run no operation where the selector decodes to INVALID (R258). -/
theorem hostCommand_of_invalid {s : State} {sel arg : Word} (h : decodeHcmd s.cfg sel arg = none) (r : Nat) :
    hostCommand r sel arg s = issueInvalid arg (s.present (.requester r)) := by
  simp only [hostCommand, decode, h]

/-- The issue step of an INVALID selector: the context stores `ARG` and the result, and nothing else changes (R258). -/
theorem issueInvalid_takes {s : State} {r : Nat} {c : Ctx} (h : s.takes r c) (arg : Word) :
    issueInvalid arg s = .next (s.setCtx r
      { c with arg := arg, op := .none, pc := .idle, res := some .invalidRequest, out := none }) :=
  issue_takes h arg _

/-- Settles O12: the selector decodes to INVALID, so the step is the issue step that only records the result. -/
theorem invalidSelectorAnswers : Obligations.InvalidSelectorAnswers := by
  intro s r c sel arg hv hc hready h0 h1 h2 h3 h4 h5 h6
  have hsel : sel ∉ s.cfg.opSel.toList := by simp [OpSel.toList, h0, h1, h2, h3, h4, h5, h6]
  calc step (s.willMove (.host r sel arg))
      = hostCommand r sel arg s := step_willMove hv _
    _ = issueInvalid arg (s.present (.requester r)) := hostCommand_of_invalid (decodeHcmd_of_not_mem hsel arg) r
    _ = .next ((s.present (.requester r)).setCtx r _) := issueInvalid_takes (State.takes_present hc hready) arg

end Sys2Proof.Machine
end

section
/-! SUPPORT. The encodings (R91-R103): each decoder helper on a word that `uopWord` built, and what a word it accepts
looks like; then the statements on decoding, on reserved words and on layouts that are refused. -/

namespace Sys2Proof

/-! ### Decoding a word that was built -/

theorem Dir.code_lt (d : Dir) : d.code < 2 := by cases d <;> decide

theorem FieldId.fid_lt_byte (f : FieldId) : f.fid < 256 := by have := f.fid_lt; omega

theorem decodeAccessor_uopWord {code : Nat} (hc : code < 256) (f : FieldId) (k : FieldId → Decoded) :
    decodeAccessor (uopWord code f.fid 0) k = k f := by
  obtain ⟨-, hfid, hd, -⟩ := uopWord_fields (d := 0) hc f.fid_lt_byte (by omega)
  simp [decodeAccessor, hfid, hd, f.ofFid_fid]

theorem decodeBitOp_uopWord {cfg : Config} {code : Nat} (hc : code < 256) {f : FieldId} (hw : (cfg.field f).width = 1)
    (mk : FieldId → Instr) (rest : List Word) : decodeBitOp cfg (uopWord code f.fid 0) mk rest = .ok (mk f) rest := by
  simp [decodeBitOp, decodeAccessor_uopWord hc, hw]

theorem decodeDirOp_uopWord {code : Nat} (hc : code < 256) (d : Dir) (mk : Dir → Instr) (rest : List Word) :
    decodeDirOp (uopWord code 0 d.code) mk rest = .ok (mk d) rest := by
  obtain ⟨-, hfid, hd, -⟩ := uopWord_fields (fid := 0) hc (by omega) d.code_lt
  simp only [decodeDirOp, hfid, hd, if_true, Dir.ofBit_code]

theorem decodePlain_uopWord {code : Nat} (hc : code < 256) (i : Instr) (rest : List Word) :
    decodePlain (uopWord code 0 0) i rest = .ok i rest := by
  obtain ⟨-, hfid, hd, -⟩ := uopWord_fields (fid := 0) (d := 0) hc (by omega) (by omega)
  simp [decodePlain, hfid, hd]

/-- A host command decodes back: the selectors of a valid configuration are distinct (R12). -/
theorem decodeHcmd_selector {cfg : Config} (hn : cfg.opSel.toList.Nodup) (arg : Word) :
    decodeHcmd cfg cfg.opSel.reset arg = some (.reset arg) ∧
    decodeHcmd cfg cfg.opSel.setIrqMask arg = some (.setIrqMask arg) ∧
    decodeHcmd cfg cfg.opSel.getIrqStatus arg = some (.getIrqStatus arg) ∧
    decodeHcmd cfg cfg.opSel.getBufPhys arg = some (.getBufPhys arg) ∧
    decodeHcmd cfg cfg.opSel.dmaWrite arg = some (.dmaWrite arg) ∧
    decodeHcmd cfg cfg.opSel.dmaRead arg = some (.dmaRead arg) ∧
    decodeHcmd cfg cfg.opSel.map arg = some (.map arg) := by
  simp only [OpSel.toList, List.nodup_cons, List.mem_cons, List.not_mem_nil, or_false, not_or] at hn
  obtain ⟨⟨h01, h02, h03, h04, h05, h06⟩, ⟨h12, h13, h14, h15, h16⟩, ⟨h23, h24, h25, h26⟩, ⟨h34, h35, h36⟩, ⟨h45, h46⟩,
    h56, -⟩ := hn
  simp [decodeHcmd, Ne.symm h01, Ne.symm h02, Ne.symm h03, Ne.symm h04, Ne.symm h05, Ne.symm h06, Ne.symm h12,
    Ne.symm h13, Ne.symm h14, Ne.symm h15, Ne.symm h16, Ne.symm h23, Ne.symm h24, Ne.symm h25, Ne.symm h26, Ne.symm h34,
    Ne.symm h35, Ne.symm h36, Ne.symm h45, Ne.symm h46, Ne.symm h56]

/-- The words of a well-formed micro-operation decode back. -/
theorem decodeUop_encode {cfg : Config} {i : Instr} (hi : i.format = .uop) (hw : i.wellFormed cfg = true)
    (rest : List Word) : decode cfg .uop (encode cfg i ++ rest) = .ok i rest := by
  have accessor : ∀ {code} (f : FieldId), code < 256 → uopZ (uopWord code f.fid 0) = 0 ∧ uopCode (uopWord code f.fid 0) = code :=
    fun f hc => have h := uopWord_fields (d := 0) hc f.fid_lt_byte (by omega); ⟨h.2.2.2, h.1⟩
  have dirOp : ∀ {code} (d : Dir), code < 256 → uopZ (uopWord code 0 d.code) = 0 ∧ uopCode (uopWord code 0 d.code) = code :=
    fun d hc => have h := uopWord_fields (fid := 0) hc (by omega) d.code_lt; ⟨h.2.2.2, h.1⟩
  have plain : ∀ {code}, code < 256 → uopZ (uopWord code 0 0) = 0 ∧ uopCode (uopWord code 0 0) = code :=
    fun hc => have h := uopWord_fields (fid := 0) (d := 0) hc (by omega) (by omega); ⟨h.2.2.2, h.1⟩
  cases i with
  | reset _ | setIrqMask _ | getIrqStatus _ | getBufPhys _ | dmaWrite _ | dmaRead _ | map _ => simp [Instr.format] at hi
  | read f | write f v =>
    simp [encode, decode, decodeUop, accessor, decodeWrite, decodeAccessor_uopWord]
  | getBit f | setBit f | clearBit f =>
    simp only [Instr.wellFormed, decide_eq_true_eq] at hw
    simp [encode, decode, decodeUop, accessor, decodeBitOp_uopWord, hw]
  | acquire d | release d | notify d | wait d | consume d =>
    simp [encode, decode, decodeUop, dirOp, decodeDirOp_uopWord]
  | dispatch | irq =>
    simp [encode, decode, decodeUop, plain, decodePlain_uopWord]

/-! ### Words a decoder accepts -/

theorem decodeAccessor_ok {w : Word} {k : FieldId → Decoded} {i : Instr} {rest : List Word}
    (h : decodeAccessor w k = .ok i rest) : uopD w = false ∧ ∃ f : FieldId, f.fid = uopFid w ∧ k f = .ok i rest := by
  unfold decodeAccessor at h
  split at h
  · cases h
  · split at h
    · exact ⟨by simpa using ‹¬uopD w = true›, _, FieldId.fid_of_ofFid ‹_›, h⟩
    · cases h

/-- An accepted accessor word is the word of its code and field. -/
theorem accessorWord_eq {w : Word} {f : FieldId} (hz : uopZ w = 0) (hd : uopD w = false) (hf : f.fid = uopFid w) :
    w = uopWord (uopCode w) f.fid 0 := by
  simpa [hd, hf] using eq_uopWord hz

theorem decodeBitOp_ok {cfg : Config} {w : Word} {mk : FieldId → Instr} {rest rest' : List Word} {i : Instr}
    (hz : uopZ w = 0) (h : decodeBitOp cfg w mk rest = .ok i rest') :
    ∃ f : FieldId, (cfg.field f).width = 1 ∧ i = mk f ∧ rest' = rest ∧ w = uopWord (uopCode w) f.fid 0 := by
  obtain ⟨hd, f, hf, hk⟩ := decodeAccessor_ok h
  split at hk
  · obtain ⟨rfl, rfl⟩ := Decoded.ok.inj hk
    exact ⟨f, ‹_›, rfl, rfl, accessorWord_eq hz hd hf⟩
  · cases hk

theorem decodeDirOp_ok {w : Word} {mk : Dir → Instr} {rest rest' : List Word} {i : Instr}
    (hz : uopZ w = 0) (h : decodeDirOp w mk rest = .ok i rest') :
    ∃ d : Dir, i = mk d ∧ rest' = rest ∧ w = uopWord (uopCode w) 0 d.code := by
  unfold decodeDirOp at h
  split at h
  · obtain ⟨rfl, rfl⟩ := Decoded.ok.inj h
    refine ⟨_, rfl, rfl, ?_⟩
    rw [Dir.code_ofBit]
    simpa [*] using eq_uopWord hz
  · cases h

theorem decodePlain_ok {w : Word} {j : Instr} {rest rest' : List Word} {i : Instr}
    (hz : uopZ w = 0) (h : decodePlain w j rest = .ok i rest') : i = j ∧ rest' = rest ∧ w = uopWord (uopCode w) 0 0 := by
  unfold decodePlain at h
  split at h
  · cases h
  · split at h
    · cases h
    · obtain ⟨rfl, rfl⟩ := Decoded.ok.inj h
      refine ⟨rfl, rfl, ?_⟩
      have hfid : uopFid w = 0 := by simpa using ‹¬uopFid w ≠ 0›
      simpa [*] using eq_uopWord hz

theorem decodeHcmd_ok {cfg : Config} {sel arg : Word} {i : Instr} (h : decodeHcmd cfg sel arg = some i) :
    i.format = .hcmd ∧ i.wellFormed cfg = true ∧ encode cfg i = [sel, arg] := by
  unfold decodeHcmd at h
  repeat' (split at h)
  all_goals first
    | (obtain rfl := Option.some.inj h; simp [Instr.format, Instr.wellFormed, encode, *])
    | cases h

/-- What the decoder of micro-operations accepts is the words of a well-formed one. -/
theorem decodeUop_ok {cfg : Config} {w : Word} {ws rest : List Word} {i : Instr} (h : decodeUop cfg w ws = .ok i rest) :
    i.format = .uop ∧ i.wellFormed cfg = true ∧ w :: ws = encode cfg i ++ rest := by
  unfold decodeUop at h
  split at h
  · cases h
  have hz : uopZ w = 0 := by simpa using ‹¬uopZ w ≠ 0›
  split at h <;> rename_i hcode
  · obtain ⟨hd, f, hf, hk⟩ := decodeAccessor_ok h
    obtain ⟨rfl, rfl⟩ := Decoded.ok.inj hk
    exact ⟨rfl, rfl, by simpa [encode, hcode] using accessorWord_eq hz hd hf⟩
  · obtain ⟨hd, f, hf, hk⟩ := decodeAccessor_ok h
    split at hk
    · obtain ⟨rfl, rfl⟩ := Decoded.ok.inj hk
      exact ⟨rfl, rfl, by simpa [encode, hcode] using accessorWord_eq hz hd hf⟩
    · cases hk
  iterate 3
    · obtain ⟨f, hw, rfl, rfl, he⟩ := decodeBitOp_ok hz h
      exact ⟨rfl, by simpa [Instr.wellFormed] using hw, by simpa [encode, hcode] using he⟩
  iterate 5
    · obtain ⟨d, rfl, rfl, he⟩ := decodeDirOp_ok hz h
      exact ⟨rfl, rfl, by simpa [encode, hcode] using he⟩
  iterate 2
    · obtain ⟨rfl, rfl, he⟩ := decodePlain_ok hz h
      exact ⟨rfl, rfl, by simpa [encode, hcode] using he⟩
  · cases h

/-- Settles O2: a selector picks its operation out of distinct ones, and a micro-operation's word gives back its fields. -/
theorem decodeUndoesEncode : Obligations.DecodeUndoesEncode := by
  intro cfg i rest hv hw
  cases hi : i.format with
  | uop => exact decodeUop_encode hi hw rest
  | hcmd =>
    cases i <;> simp only [Instr.format, reduceCtorEq] at hi <;>
      simp [encode, decode, decodeHcmd_selector (Config.valid_selectors hv)]

/-- Settles O3: each decoder accepts exactly the words its encoder builds. -/
theorem encodeUndoesDecode : Obligations.EncodeUndoesDecode := by
  intro cfg fmt ws rest i h
  match fmt, ws with
  | .hcmd, [] | .hcmd, [_] | .uop, [] => cases h
  | .uop, w :: ws => exact decodeUop_ok h
  | .hcmd, sel :: arg :: ws =>
    simp only [decode] at h
    split at h
    · obtain ⟨rfl, rfl⟩ := Decoded.ok.inj h
      obtain ⟨hf, hw, he⟩ := decodeHcmd_ok ‹_›
      exact ⟨hf, hw, by simp [he]⟩
    · cases h

/-! ### Reserved words (R101) -/

theorem FieldId.fid_inj {f g : FieldId} (h : f.fid = g.fid) : f = g := by
  have := congrArg FieldId.ofFid h
  simpa [FieldId.ofFid_fid] using this

/-- What an accepted micro-operation word has in its fields. -/
theorem decodeUop_ok_fields {cfg : Config} {w : Word} {ws rest : List Word} {i : Instr}
    (h : decodeUop cfg w ws = .ok i rest) :
    uopCode w ∈ [0x01, 0x02, 0x03, 0x04, 0x05, 0x10, 0x11, 0x20, 0x21, 0x22, 0x30, 0x31] ∧ uopFid w < 19 ∧ uopZ w = 0 ∧
      (uopCode w ∈ [0x10, 0x11, 0x20, 0x21, 0x22, 0x30, 0x31] → uopFid w = 0) ∧
      (uopCode w ∈ [0x01, 0x02, 0x03, 0x04, 0x05, 0x30, 0x31] → uopD w = false) ∧
      (uopCode w ∈ [0x03, 0x04, 0x05] → ∀ f : FieldId, f.fid = uopFid w → (cfg.field f).width = 1) := by
  obtain ⟨hi, hw, he⟩ := decodeUop_ok h
  have accessor : ∀ {code} {f : FieldId}, w = uopWord code f.fid 0 → code < 256 →
      uopCode w = code ∧ uopFid w = f.fid ∧ uopD w = false ∧ uopZ w = 0 := fun {_ f} hw hc =>
    hw ▸ uopWord_fields (d := 0) hc f.fid_lt_byte (by omega)
  have other : ∀ {code d}, w = uopWord code 0 d → code < 256 → d < 2 →
      uopCode w = code ∧ uopFid w = 0 ∧ uopD w = decide (d = 1) ∧ uopZ w = 0 := fun hw hc hd =>
    hw ▸ uopWord_fields (fid := 0) hc (by omega) hd
  cases i with
  | reset _ | setIrqMask _ | getIrqStatus _ | getBufPhys _ | dmaWrite _ | dmaRead _ | map _ => simp [Instr.format] at hi
  | read f | write f v =>
    obtain ⟨hcode, hfid, hd, hz⟩ := accessor (List.head_eq_of_cons_eq he) (by omega)
    simp [hcode, hfid, hd, hz, f.fid_lt]
  | getBit f | setBit f | clearBit f =>
    obtain ⟨hcode, hfid, hd, hz⟩ := accessor (List.head_eq_of_cons_eq he) (by omega)
    simp only [Instr.wellFormed, decide_eq_true_eq] at hw
    refine ⟨by simp [hcode], hfid ▸ f.fid_lt, hz, by simp [hcode], fun _ => hd, fun _ g hg => ?_⟩
    rw [FieldId.fid_inj (hg.trans hfid), hw]
  | acquire d | release d | notify d | wait d | consume d =>
    obtain ⟨hcode, hfid, hd, hz⟩ := other (List.head_eq_of_cons_eq he) (by omega) d.code_lt
    simp [hcode, hfid, hz]
  | dispatch | irq =>
    obtain ⟨hcode, hfid, hd, hz⟩ := other (List.head_eq_of_cons_eq he) (by omega) (by omega)
    simp [hcode, hfid, hd, hz]

/-! ### Field descriptors (R102) -/

/-- The three fields and the zero bits of a descriptor's word. -/
theorem FDesc.encode_fields {d : FDesc} (ho : d.offset < 32) (hw : d.width < 64) (hb : d.bank < 65536) :
    (d.encode.extractLsb' 0 5).toNat = d.offset ∧ (d.encode.extractLsb' 5 6).toNat = d.width ∧
      (d.encode.extractLsb' 11 5).toNat = 0 ∧ (d.encode.extractLsb' 16 16).toNat = d.bank := by
  simp only [FDesc.encode, BitVec.extractLsb'_toNat, BitVec.toNat_ofNat, Nat.shiftRight_eq_div_pow]
  omega

theorem FDesc.fits_iff {n : Nat} {d : FDesc} : d.fits n = true ↔
    1 ≤ d.width ∧ d.width ≤ 32 ∧ d.offset + d.width ≤ 32 ∧ d.bank < n ∧ (d.width = 32 → d.offset = 0) := by
  simp only [FDesc.fits, decide_eq_true_eq]

theorem FDesc.decode_eq_some {n : Nat} {w : Word} {d : FDesc} : FDesc.decode n w = some d ↔
    d.offset = (w.extractLsb' 0 5).toNat ∧ d.width = (w.extractLsb' 5 6).toNat ∧ (w.extractLsb' 11 5).toNat = 0 ∧
      d.bank = (w.extractLsb' 16 16).toNat ∧ d.fits n = true := by
  obtain ⟨bank, offset, width⟩ := d
  simp only [FDesc.decode]
  constructor
  · intro h
    split at h
    · obtain ⟨rfl, rfl, rfl⟩ := FDesc.mk.inj (Option.some.inj h)
      exact ⟨rfl, rfl, ‹_ ∧ _›.1, rfl, ‹_ ∧ _›.2⟩
    · cases h
  · rintro ⟨rfl, rfl, hz, rfl, hfit⟩
    exact if_pos ⟨hz, hfit⟩

/-- Settles O5: the decoder reads the three fields, and a descriptor that fits stands in its word field by field. -/
theorem fieldDescriptorWords : Obligations.FieldDescriptorWords := by
  refine ⟨fun n w d => by rw [FDesc.decode_eq_some, FDesc.fits_iff], fun n d hfit hb => ?_, by decide, by decide⟩
  obtain ⟨hw1, hw, how, -, -⟩ := FDesc.fits_iff.1 hfit
  obtain ⟨ho, hwid, hz, hbank⟩ := FDesc.encode_fields (d := d) (by omega) (by omega) hb
  exact FDesc.decode_eq_some.2 ⟨ho.symm, hwid.symm, hz, hbank.symm, hfit⟩

/-- Settles O6, by evaluating the decoder on the words. -/
theorem specWordsDecode : Obligations.SpecWordsDecode := by
  unfold Obligations.SpecWordsDecode
  decide

end Sys2Proof

namespace Sys2Proof.Machine

open Sys2Proof

/-- A presented word that spells no micro-operation is refused (R101). -/
theorem presentMicroOp_refused {s : State} {w v : Word} {a : Agent}
    (h : ∀ i rest, decodeUop s.cfg w [v] ≠ .ok i rest) : presentMicroOp a w v s = .refused .badMicroOp := by
  simp only [presentMicroOp, decode]
  cases hd : decodeUop s.cfg w [v] with
  | ok i rest => exact absurd hd (h i rest)
  | error e => rfl

/-- Settles O4: an accepted word has none of the six reserved forms. -/
theorem reservedMicroOpsRefused : Obligations.ReservedMicroOpsRefused := by
  intro s a w v hv hres
  rw [step_willPresent hv]
  refine presentMicroOp_refused fun i rest hok => ?_
  obtain ⟨hcode, hfid, hz, hfid0, hd, hwidth⟩ := decodeUop_ok_fields hok
  rcases hres with h | h | h | ⟨h, hne⟩ | ⟨h, hset⟩ | ⟨h, f, hf, hne⟩
  · exact h hcode
  · exact absurd hfid (Nat.not_lt.2 h)
  · exact h hz
  · exact hne (hfid0 h)
  · exact absurd (hd h) (by simp [uopD, hset])
  · exact hne (hwidth h f hf)

/-- Presenting the step's words runs the instruction they decode to (R96, R99). -/
theorem hostCommand_of_decode {s : State} {sel arg : Word} {i : Instr} {rest : List Word}
    (h : decode s.cfg .hcmd [sel, arg] = .ok i rest) (r : Nat) :
    hostCommand r sel arg s = exec i (s.present (.requester r)) := by
  simp only [hostCommand, h]

theorem presentMicroOp_of_decode {s : State} {w v : Word} {i : Instr} {rest : List Word}
    (h : decode s.cfg .uop [w, v] = .ok i rest) (a : Agent) : presentMicroOp a w v s = exec i (s.present a) := by
  simp only [presentMicroOp, h]

/-- Settles O7: both interfaces run `exec` of what they decode. -/
theorem stepRunsDecodedInstruction : Obligations.StepRunsDecodedInstruction := by
  refine fun s hv => ⟨fun r sel arg i rest h => ?_, fun a w v i rest h => ?_⟩
  · rw [step_willMove hv]
    exact hostCommand_of_decode h r
  · rw [step_willPresent hv]
    exact presentMicroOp_of_decode h a

/-- Settles O8: the words go to HOST where they spell a host command, else to the accessor; either runs the instruction
for the requester that is current already. -/
theorem placedWordRunsNext : Obligations.PlacedWordRunsNext := by
  intro s r nbits w i hcfg hcur hdec
  have hv : s.cfg.valid = true := hcfg ▸ Config.reference_valid
  have hpresent : s.present (.requester r) = s := by simp only [State.present, ← hcur]
  simp only [decodeTableWord, ← hcfg] at hdec
  simp only [State.withFetchWord]
  split at hdec
  · rename_i j rest h
    obtain rfl := Option.some.inj hdec
    rw [placeWords_host h hcur, step_willMove hv]
    exact (hostCommand_of_decode h r).trans (by rw [hpresent])
  · rename_i e h
    split at hdec
    · rename_i j rest hu
      obtain rfl := Option.some.inj hdec
      rw [placeWords_uop h, step_willPresent hv, hcur, presentMicroOp_of_decode hu, hpresent]
    · cases hdec

/-- Settles O9: each breach contradicts a part of what `Config.valid` checks. -/
theorem brokenLayoutRefused : Obligations.BrokenLayoutRefused := by
  intro s hbroken
  have hv : s.cfg.valid ≠ true := fun hv => by
    rcases hbroken with ⟨f, hf⟩ | ⟨f, g, hne, hwf, hwg, hbank, bit, hof, hfo, hog, hgo⟩
    · obtain ⟨hw1, hw32, hsum, hb, hfull⟩ := Config.valid_fits hv f
      omega
    · have hapart := Config.valid_apart hv hne
      simp only [FDesc.apart, decide_eq_true_eq] at hapart
      omega
  simp [step, runNext, hv]

end Sys2Proof.Machine
end

section
/-! SUPPORT. What each move of the spec's agents can do, said once: the own step of a requester at each micro-state
(`OwnMove`), a command issued (`Issued`), a wait cancelled or timed out (`WaitEnded`), a step of the dispatcher (`DispMove`),
and all moves together (`Moved`). The invariants are derived from these by cases, without unfolding the steps again. -/

namespace Sys2Proof.Machine

open Sys2Proof

/-! ### The accessor in a valid configuration -/

theorem getBitField_eq {s : State} (h : s.cfg.valid = true) (f : FieldId) (k : Bool → State → Out) :
    getBitField f s k = k ((s.readValue (s.cfg.field f).bank).getLsbD (s.cfg.field f).offset)
      (s.afterRead (s.cfg.field f).bank) := by
  simp only [getBitField, regRead_field h, fieldBit_eq]

theorem writeMerged_eq {s : State} (h : s.cfg.valid = true) (f : FieldId) (v tmp : Word) (k : State → Out) :
    writeMerged f v tmp s k = k (s.afterWrite (s.cfg.field f).bank (mergeField (s.cfg.field f) tmp v)) :=
  regWrite_field h f _ k

/-! ### What a requester's step touches -/

/-- What a step of a requester does beside the change of its own context: at most one register access, one lock, one
count, or the fault mark. -/
inductive Touch where
  | nothing
  | read (f : FieldId)
  | write (f : FieldId) (v : Word)
  | take (d : Dir)
  | free (d : Dir)
  | consume (d : Dir)
  | fault (k : FaultKind)

/-- The state after requester r touched it. -/
def Touch.on (u : Touch) (r : Nat) (s : State) : State :=
  match u with
  | .nothing => s
  | .read f => s.afterRead (s.cfg.field f).bank
  | .write f v => s.afterWrite (s.cfg.field f).bank v
  | .take d => { s with lock := s.lock.set d (some r) }
  | .free d => { s with lock := s.lock.set d none }
  | .consume d => { s with count := s.count.set d (s.count.get d - 1) }
  | .fault k => { s with fault := some k }

namespace Touch

variable (u : Touch) (r : Nat) (s : State)

@[simp] theorem on_cfg : (u.on r s).cfg = s.cfg := by cases u <;> simp [on]
@[simp] theorem on_ctxs : (u.on r s).ctxs = s.ctxs := by cases u <;> simp [on]
@[simp] theorem on_sched : (u.on r s).sched = s.sched := by cases u <;> simp [on]
@[simp] theorem on_dispPc : (u.on r s).dispPc = s.dispPc := by cases u <;> simp [on]
@[simp] theorem on_dispStopped : (u.on r s).dispStopped = s.dispStopped := by cases u <;> simp [on]
@[simp] theorem on_errlog : (u.on r s).errlog = s.errlog := by cases u <;> simp [on]

end Touch

/-- A model fault raised by requester r is a touch of the fault mark with the context stopped. -/
theorem raise_requester {s : State} {r : Nat} {c : Ctx} (h : s.ctx? r = some c) (k : FaultKind) :
    raise (.requester r) k s = .next (((Touch.fault k).on r s).setCtx r { c with stopped := true }) := by
  simp only [raise, State.stop, h, Touch.on]
  rfl

/-- Writing back the context a requester has changes nothing. -/
theorem State.setCtx_self {s : State} {r : Nat} {c : Ctx} (h : s.ctx? r = some c) : s.setCtx r c = s := by
  obtain ⟨hlt, he⟩ := List.getElem?_eq_some_iff.1 h
  simp only [State.setCtx, ← he, List.set_getElem_self]

/-! ### The own step -/

/-- The own step of requester r, with context c, touches u and leaves context e (R24): one case for each way on from a
micro-state. -/
inductive OwnMove (s : State) (r : Nat) (c : Ctx) : Touch → Ctx → Prop
  | idle (hp : c.pc = .idle) (hu : c.uop = none) : OwnMove s r c .nothing c
  /-- the second step or the retry of a hand-built micro-operation [log 12] -/
  | resumed {u : Touch} {e : Ctx} (hu : c.uop ≠ none) (hbuf : e.buf = c.buf) : OwnMove s r c u e
  | blocked (hp : c.pc.acquiring = true ∨ c.pc = .tWait ∧ s.count.get c.dir = 0) : OwnMove s r c .nothing c
  | tAcq (hp : c.pc = .tAcq) (hl : s.lock.get c.dir = none) : OwnMove s r c (.take c.dir) { c with pc := .tWaddr }
  | tWaddr (hp : c.pc = .tWaddr) : OwnMove s r c (.write (.cmdAddr c.dir) c.buf) { c with pc := .tWdata }
  | tWdata (hp : c.pc = .tWdata) : OwnMove s r c (.write (.cmdData c.dir) c.arg) { c with pc := .tEnR }
  | tEnR (hp : c.pc = .tEnR) : OwnMove s r c (.read (.xferEn c.dir))
      { c with tmp := s.readValue (s.cfg.field (.xferEn c.dir)).bank, pc := .tEnW }
  | tEnW (hp : c.pc = .tEnW) : OwnMove s r c
      (.write (.xferEn c.dir) (c.tmp ||| (1#32 <<< (s.cfg.field (.xferEn c.dir)).offset))) { c with pc := .tMode }
  | tModeWait (hp : c.pc = .tMode) : OwnMove s r c (.read (.irqEn c.dir)) { c with pc := .tWait }
  | tModePoll (hp : c.pc = .tMode) : OwnMove s r c (.read (.irqEn c.dir)) { c with iter := 0, pc := .tPoll }
  | tWait (hp : c.pc = .tWait) (hn : 0 < s.count.get c.dir) : OwnMove s r c .nothing { c with pc := .tConsume }
  | tConsume (hp : c.pc = .tConsume) (hn : 0 < s.count.get c.dir) :
      OwnMove s r c (.consume c.dir) { c with pc := .tDrain }
  | tPollDone (hp : c.pc = .tPoll) : OwnMove s r c (.read (.stsFifoEmpty c.dir))
      { c with iter := c.iter + 1, pc := .tDrain }
  | tPollCeiling (hp : c.pc = .tPoll) (hi : c.iter + 1 = s.cfg.pollLimit) : OwnMove s r c (.read (.stsFifoEmpty c.dir))
      { c with iter := c.iter + 1, err := some .timeout, pc := .tAbtR }
  | tPollAgain (hp : c.pc = .tPoll) (hi : c.iter + 1 ≠ s.cfg.pollLimit) : OwnMove s r c (.read (.stsFifoEmpty c.dir))
      { c with iter := c.iter + 1, pc := .tPoll }
  | tDrain (hp : c.pc = .tDrain) : OwnMove s r c (.read (.stsFifo c.dir)) { c with pc := .tDisR }
  | tDisR (hp : c.pc = .tDisR) : OwnMove s r c (.read (.xferEn c.dir))
      { c with tmp := s.readValue (s.cfg.field (.xferEn c.dir)).bank, pc := .tDisW }
  | tDisW (hp : c.pc = .tDisW) : OwnMove s r c
      (.write (.xferEn c.dir) (c.tmp &&& ~~~(1#32 <<< (s.cfg.field (.xferEn c.dir)).offset))) { c with pc := .tRel }
  | tRel (hp : c.pc = .tRel) (hl : s.lock.get c.dir = some r) : OwnMove s r c (.free c.dir)
      { c with op := .none, pc := .idle, res := some .success }
  | tAbtR (hp : c.pc = .tAbtR) : OwnMove s r c (.read (.xferEn c.dir))
      { c with tmp := s.readValue (s.cfg.field (.xferEn c.dir)).bank, pc := .tAbtW }
  | tAbtW (hp : c.pc = .tAbtW) : OwnMove s r c
      (.write (.xferEn c.dir) (c.tmp &&& ~~~(1#32 <<< (s.cfg.field (.xferEn c.dir)).offset))) { c with pc := .tAbtRel }
  | tAbtRel (hp : c.pc = .tAbtRel) (hl : s.lock.get c.dir = some r) : OwnMove s r c (.free c.dir)
      { c with op := .none, pc := .idle, res := c.err }
  | gAcq1 (hp : c.pc = .gAcq1) (hl : s.lock.get .mm2s = none) : OwnMove s r c (.take .mm2s) { c with pc := .gAcq2 }
  | gAcq2 (hp : c.pc = .gAcq2) (hl : s.lock.get .s2mm = none) : OwnMove s r c (.take .s2mm) { c with pc := .gRsR }
  | gCrel1 (hp : c.pc = .gCrel1) (hl : s.lock.get .mm2s = some r) : OwnMove s r c (.free .mm2s)
      { c with op := .none, pc := .idle, res := some .interrupted }
  | gRsR (hp : c.pc = .gRsR) : OwnMove s r c (.read .globalReset)
      { c with tmp := s.readValue (s.cfg.field .globalReset).bank, pc := .gRsW }
  | gRsW (hp : c.pc = .gRsW) : OwnMove s r c
      (.write .globalReset (c.tmp ||| (1#32 <<< (s.cfg.field .globalReset).offset))) { c with pc := .gRcR }
  | gRcR (hp : c.pc = .gRcR) : OwnMove s r c (.read .globalReset)
      { c with tmp := s.readValue (s.cfg.field .globalReset).bank, pc := .gRcW }
  | gRcW (hp : c.pc = .gRcW) : OwnMove s r c
      (.write .globalReset (c.tmp &&& ~~~(1#32 <<< (s.cfg.field .globalReset).offset))) { c with pc := .gBaR .k0 }
  | gBaRNone (k : BusIx) (hp : c.pc = .gBaR k) : OwnMove s r c .nothing { c with pc := .gBaW k }
  | gBaR (k : BusIx) (hp : c.pc = .gBaR k) : OwnMove s r c (.read (.busAttr k))
      { c with tmp := s.readValue (s.cfg.field (.busAttr k)).bank, pc := .gBaW k }
  | gBaW (k : BusIx) (v : Word) (hp : c.pc = .gBaW k) :
      OwnMove s r c (.write (.busAttr k) v) { c with pc := afterBusAttr k }
  | gRel2 (hp : c.pc = .gRel2) (hl : s.lock.get .s2mm = some r) : OwnMove s r c (.free .s2mm) { c with pc := .gRel1 }
  | gRel1 (hp : c.pc = .gRel1) (hl : s.lock.get .mm2s = some r) : OwnMove s r c (.free .mm2s)
      { c with op := .none, pc := .idle, res := some .success }
  | mAcq1 (hp : c.pc = .mAcq1) (hl : s.lock.get .mm2s = none) : OwnMove s r c (.take .mm2s) { c with pc := .mAcq2 }
  | mAcq2 (hp : c.pc = .mAcq2) (hl : s.lock.get .s2mm = none) : OwnMove s r c (.take .s2mm) { c with pc := .mWr }
  | mCrel1 (hp : c.pc = .mCrel1) (hl : s.lock.get .mm2s = some r) : OwnMove s r c (.free .mm2s)
      { c with op := .none, pc := .idle, res := some .interrupted }
  | mWr (hp : c.pc = .mWr) : OwnMove s r c (.write .irqEnable c.arg) { c with pc := .mRel2 }
  | mRel2 (hp : c.pc = .mRel2) (hl : s.lock.get .s2mm = some r) : OwnMove s r c (.free .s2mm) { c with pc := .mRel1 }
  | mRel1 (hp : c.pc = .mRel1) (hl : s.lock.get .mm2s = some r) : OwnMove s r c (.free .mm2s)
      { c with op := .none, pc := .idle, res := some .success }
  | sRd (v : Word) (hp : c.pc = .sRd) : OwnMove s r c (.read .irqStatus)
      { c with op := .none, pc := .idle, res := some .success, out := some v }
  | notOwner (d : Dir) (hh : c.holds d = true) (hl : s.lock.get d ≠ some r) :
      OwnMove s r c (.fault .releaseNotOwner) { c with stopped := true }
  | atZero (hp : c.pc = .tConsume) (hn : s.count.get c.dir = 0) :
      OwnMove s r c (.fault .consumeAtZero) { c with stopped := true }

/-- The answer o is the next state of an own step. -/
def IsOwnMove (s : State) (r : Nat) (c : Ctx) (o : Out) : Prop :=
  ∃ u e, OwnMove s r c u e ∧ o = .next ((u.on r s).setCtx r e)

theorem OwnMove.isOwnMove {s : State} {r : Nat} {c e : Ctx} {u : Touch} (h : OwnMove s r c u e) :
    IsOwnMove s r c (.next ((u.on r s).setCtx r e)) := ⟨u, e, h, rfl⟩

theorem OwnMove.isOwnMove_same {s : State} {r : Nat} {c : Ctx} (h : OwnMove s r c .nothing c) (hc : s.ctx? r = some c) :
    IsOwnMove s r c (.next s) := ⟨.nothing, c, h, by rw [Touch.on, State.setCtx_self hc]⟩

/-- An acquire micro-state: the free lock is taken, a held one blocks. -/
theorem isOwnMove_acquire {s : State} {r : Nat} {c e : Ctx} {d : Dir} (hc : s.ctx? r = some c)
    (hp : c.pc.acquiring = true) (h : s.lock.get d = none → OwnMove s r c (.take d) e) :
    IsOwnMove s r c (acquire r d s (fun t => .next (t.setCtx r e)) (.next s)) := by
  unfold acquire
  split
  · exact (h ‹_›).isOwnMove
  · exact (OwnMove.blocked (.inl hp)).isOwnMove_same hc

/-- A release micro-state: the holder frees the lock, another requester raises RELEASE_NOT_OWNER. -/
theorem isOwnMove_release {s : State} {r : Nat} {c e : Ctx} {d : Dir} (hc : s.ctx? r = some c)
    (hh : c.holds d = true) (h : s.lock.get d = some r → OwnMove s r c (.free d) e) :
    IsOwnMove s r c (release r d s (fun t => .next (t.setCtx r e))) := by
  unfold release
  split
  · exact (h ‹_›).isOwnMove
  · rw [raise_requester hc]
    exact (OwnMove.notOwner d hh ‹_›).isOwnMove

/-- A hand-built micro-operation goes on. -/
theorem isOwnMove_resumeUop {s : State} (hv : s.cfg.valid = true) {r : Nat} {c : Ctx} (hc : s.ctx? r = some c) {i : Instr}
    (hu : c.uop = some i) : IsOwnMove s r c (resumeUop r c i s) := by
  have hu' : c.uop ≠ none := by simp [hu]
  have still : IsOwnMove s r c (.next s) := ⟨.nothing, c, .resumed hu' rfl, by rw [Touch.on, State.setCtx_self hc]⟩
  have goes (u : Touch) : IsOwnMove s r c (.next ((u.on r s).setCtx r { c with uop := none })) :=
    (OwnMove.resumed (e := { c with uop := none }) hu' rfl).isOwnMove
  cases i with
  | write f v =>
    simp only [resumeUop, writeMerged_eq hv]
    exact goes (.write f _)
  | setBit f =>
    simp only [resumeUop, writeBitSet_eq hv]
    exact goes (.write f _)
  | clearBit f =>
    simp only [resumeUop, writeBitClear_eq hv]
    exact goes (.write f _)
  | acquire d =>
    simp only [resumeUop, acquire]
    split
    · exact goes (.take d)
    · exact still
  | wait d =>
    simp only [resumeUop, awaitSignal]
    split
    · exact (OwnMove.resumed (u := .nothing) (e := { c with uop := none, waited := some .signalled }) hu' rfl).isOwnMove
    · exact still
  | read _ | getBit _ | release _ | notify _ | consume _ | dispatch | irq | reset _ | setIrqMask _ | getIrqStatus _
  | getBufPhys _ | dmaWrite _ | dmaRead _ | map _ => exact goes .nothing

/-- The step at every micro-state is one of the cases. -/
theorem isOwnMove_stepAt {s : State} (hv : s.cfg.valid = true) {r : Nat} {c : Ctx} (hc : s.ctx? r = some c) :
    IsOwnMove s r c (stepAt r c s) := by
  have acquires : ∀ {p}, c.pc = p → p.acquiring = true → c.pc.acquiring = true := fun hp ha => hp ▸ ha
  cases hp : c.pc <;> simp only [stepAt, hp]
  case idle =>
    unfold stepIdle
    split
    · exact isOwnMove_resumeUop hv hc ‹_›
    · exact (OwnMove.idle hp ‹_›).isOwnMove_same hc
  case tAcq => exact isOwnMove_acquire hc (acquires hp rfl) (.tAcq hp)
  case tWaddr => simp only [stepTWaddr, writeFull_eq hv]; exact (OwnMove.tWaddr hp).isOwnMove
  case tWdata => simp only [stepTWdata, writeFull_eq hv]; exact (OwnMove.tWdata hp).isOwnMove
  case tEnR => simp only [stepTEnR, latchStep_eq hv]; exact (OwnMove.tEnR hp).isOwnMove
  case tEnW => simp only [stepTEnW, writeBitSet_eq hv]; exact (OwnMove.tEnW hp).isOwnMove
  case tMode =>
    simp only [stepTMode, getBitField_eq hv]
    split
    · exact (OwnMove.tModeWait hp).isOwnMove
    · exact (OwnMove.tModePoll hp).isOwnMove
  case tWait =>
    simp only [stepTWait, awaitSignal]
    split
    · exact (OwnMove.tWait hp ‹_›).isOwnMove
    · exact (OwnMove.blocked (.inr ⟨hp, by omega⟩)).isOwnMove_same hc
  case tConsume =>
    simp only [stepTConsume, consume]
    split
    · rw [raise_requester hc]
      exact (OwnMove.atZero hp ‹_›).isOwnMove
    · exact (OwnMove.tConsume hp (Nat.pos_of_ne_zero ‹_›)).isOwnMove
  case tPoll =>
    simp only [stepTPoll, getBitField_eq hv, State.afterRead_cfg]
    split
    · exact (OwnMove.tPollDone hp).isOwnMove
    · split
      · exact (OwnMove.tPollCeiling hp ‹_›).isOwnMove
      · exact (OwnMove.tPollAgain hp ‹_›).isOwnMove
  case tDrain => simp only [stepTDrain, readField_eq hv]; exact (OwnMove.tDrain hp).isOwnMove
  case tDisR => simp only [stepTDisR, latchStep_eq hv]; exact (OwnMove.tDisR hp).isOwnMove
  case tDisW => simp only [stepTDisW, writeBitClear_eq hv]; exact (OwnMove.tDisW hp).isOwnMove
  case tRel => exact isOwnMove_release hc (by simp [Ctx.holds, hp]) (.tRel hp)
  case tAbtR => simp only [stepTAbtR, latchStep_eq hv]; exact (OwnMove.tAbtR hp).isOwnMove
  case tAbtW => simp only [stepTAbtW, writeBitClear_eq hv]; exact (OwnMove.tAbtW hp).isOwnMove
  case tAbtRel => exact isOwnMove_release hc (by simp [Ctx.holds, hp]) (.tAbtRel hp)
  case gAcq1 => exact isOwnMove_acquire hc (acquires hp rfl) (.gAcq1 hp)
  case gAcq2 => exact isOwnMove_acquire hc (acquires hp rfl) (.gAcq2 hp)
  case gCrel1 => exact isOwnMove_release hc (by simp [Ctx.holds, hp]) (.gCrel1 hp)
  case gRsR => simp only [stepGRsR, latchStep_eq hv]; exact (OwnMove.gRsR hp).isOwnMove
  case gRsW => simp only [stepGRsW, writeBitSet_eq hv]; exact (OwnMove.gRsW hp).isOwnMove
  case gRcR => simp only [stepGRcR, latchStep_eq hv]; exact (OwnMove.gRcR hp).isOwnMove
  case gRcW => simp only [stepGRcW, writeBitClear_eq hv]; exact (OwnMove.gRcW hp).isOwnMove
  case gBaR k =>
    simp only [stepGBaR]
    split
    · exact (OwnMove.gBaRNone k hp).isOwnMove
    · rw [latchStep_eq hv]
      exact (OwnMove.gBaR k hp).isOwnMove
  case gBaW k =>
    simp only [stepGBaW, writeFull_eq hv, writeMerged_eq hv]
    split
    · exact (OwnMove.gBaW k _ hp).isOwnMove
    · exact (OwnMove.gBaW k _ hp).isOwnMove
  case gRel2 => exact isOwnMove_release hc (by simp [Ctx.holds, hp]) (.gRel2 hp)
  case gRel1 => exact isOwnMove_release hc (by simp [Ctx.holds, hp]) (.gRel1 hp)
  case mAcq1 => exact isOwnMove_acquire hc (acquires hp rfl) (.mAcq1 hp)
  case mAcq2 => exact isOwnMove_acquire hc (acquires hp rfl) (.mAcq2 hp)
  case mCrel1 => exact isOwnMove_release hc (by simp [Ctx.holds, hp]) (.mCrel1 hp)
  case mWr => simp only [stepMWr, writeFull_eq hv]; exact (OwnMove.mWr hp).isOwnMove
  case mRel2 => exact isOwnMove_release hc (by simp [Ctx.holds, hp]) (.mRel2 hp)
  case mRel1 => exact isOwnMove_release hc (by simp [Ctx.holds, hp]) (.mRel1 hp)
  case sRd => simp only [stepSRd, readField_eq hv]; exact (OwnMove.sRd _ hp).isOwnMove

/-! ### Commands at HOST -/

/-- The context after requester context c took a command: an operation has started, or has answered at once (R96). -/
inductive Issued (arg : Word) (c : Ctx) : Ctx → Prop
  | reset : Issued arg c { c with arg := arg, res := none, out := none, op := .reset, pc := .gAcq1 }
  | setIrqMask : Issued arg c { c with arg := arg, res := none, out := none, op := .setIrqMask, pc := .mAcq1 }
  | getIrqStatus : Issued arg c { c with arg := arg, res := none, out := none, op := .getIrqStatus, pc := .sRd }
  | dmaWrite : Issued arg c { c with arg := arg, res := none, out := none, op := .dmaWrite, dir := .mm2s, pc := .tAcq }
  | dmaRead : Issued arg c { c with arg := arg, res := none, out := none, op := .dmaRead, dir := .s2mm, pc := .tAcq }
  | answered (res : Result) (out : Option Word) :
      Issued arg c { c with arg := arg, op := .none, pc := .idle, res := some res, out := out }

/-- Whatever the words, HOST's move is the issue of something to the requester, which leaves one of those contexts. -/
theorem hostCommand_issues (s : State) (r : Nat) (sel arg : Word) : ∃ k : Nat → Ctx → State → Out,
    hostCommand r sel arg s = issue arg (s.present (.requester r)) k ∧
      ∀ q c t, ∃ e, Issued arg c e ∧ k q { c with arg := arg, res := none, out := none } t = .next (t.setCtx q e) := by
  cases hd : decodeHcmd s.cfg sel arg with
  | none => exact ⟨_, hostCommand_of_invalid hd r, fun q c t => ⟨_, .answered .invalidRequest none, rfl⟩⟩
  | some i =>
    have hrun : hostCommand r sel arg s = exec i (s.present (.requester r)) := by simp only [hostCommand, decode, hd]
    rcases decodeHcmd_instr hd with rfl | rfl | rfl | rfl | rfl | rfl | rfl <;>
      simp only [exec, execReset, execSetIrqMask, execGetIrqStatus, execGetBufPhys, execDmaWrite, execDmaRead,
        execMap] at hrun
    · exact ⟨_, hrun, fun q c t => ⟨_, .reset, rfl⟩⟩
    · exact ⟨_, hrun, fun q c t => ⟨_, .setIrqMask, rfl⟩⟩
    · exact ⟨_, hrun, fun q c t => ⟨_, .getIrqStatus, rfl⟩⟩
    · exact ⟨_, hrun, fun q c t => ⟨_, .answered .success (some c.buf), rfl⟩⟩
    · exact ⟨_, hrun, fun q c t => ⟨_, .dmaWrite, rfl⟩⟩
    · exact ⟨_, hrun, fun q c t => ⟨_, .dmaRead, rfl⟩⟩
    · refine ⟨_, hrun, fun q c t => ?_⟩
      cases hm : mapRegion t.cfg arg with
      | some id => exact ⟨_, .answered .success (some id), rfl⟩
      | none => exact ⟨_, .answered .invalidRequest none, rfl⟩

/-! ### CANCEL and TIMEOUT -/

/-- The context after CANCEL or TIMEOUT at context c, where the move is enabled (R143, R154, R155). -/
inductive WaitEnded (s : State) (c : Ctx) : Ctx → Prop
  | first (hp : c.pc = .tAcq ∨ c.pc = .gAcq1 ∨ c.pc = .mAcq1) :
      WaitEnded s c { c with op := .none, pc := .idle, res := some .interrupted }
  | gAcq2 (hp : c.pc = .gAcq2) : WaitEnded s c { c with pc := .gCrel1 }
  | mAcq2 (hp : c.pc = .mAcq2) : WaitEnded s c { c with pc := .mCrel1 }
  | interrupted (hp : c.pc = .tWait) : WaitEnded s c { c with err := some .interrupted, pc := .tAbtR }
  | timedOut (hp : c.pc = .tWait) : WaitEnded s c { c with err := some .timeout, pc := .tAbtR }
  /-- a hand-built ACQUIRE or WAIT [log 12] -/
  | byHand (w : WaitOutcome) (hu : c.uop ≠ none) : WaitEnded s c { c with uop := none, waited := some w }

theorem cancelAt_cases (r : Nat) (c : Ctx) (s : State) :
    cancelAt r c s = .next s ∨ ∃ e, WaitEnded s c e ∧ cancelAt r c s = .next (s.setCtx r e) := by
  unfold cancelAt
  split
  next hp => exact .inr ⟨_, .first (.inl hp), rfl⟩
  next hp => exact .inr ⟨_, .first (.inr (.inl hp)), rfl⟩
  next hp => exact .inr ⟨_, .first (.inr (.inr hp)), rfl⟩
  next hp => exact .inr ⟨_, .gAcq2 hp, rfl⟩
  next hp => exact .inr ⟨_, .mAcq2 hp, rfl⟩
  next hp => exact .inr ⟨_, .interrupted hp, rfl⟩
  next hp =>
    split
    next hu => exact .inr ⟨_, .byHand _ (by simp [hu]), rfl⟩
    next hu => exact .inr ⟨_, .byHand _ (by simp [hu]), rfl⟩
    next => exact .inl rfl
  next => exact .inl rfl

theorem timeoutAt_cases (r : Nat) (c : Ctx) (s : State) :
    timeoutAt r c s = .next s ∨ ∃ e, WaitEnded s c e ∧ timeoutAt r c s = .next (s.setCtx r e) := by
  unfold timeoutAt
  split
  next hp =>
    split
    · exact .inr ⟨_, .timedOut hp, rfl⟩
    · exact .inl rfl
  next hp =>
    split
    next d hu =>
      split
      · exact .inr ⟨_, .byHand _ (by simp [hu]), rfl⟩
      · exact .inl rfl
    next => exact .inl rfl
  next => exact .inl rfl

/-! ### The dispatcher -/

/-- The micro-state at which the dispatcher notifies direction d (R176, R177). -/
def notifyPc : Dir → DispPc
  | .mm2s => .dNotifyM
  | .s2mm => .dNotifyS

/-- What a step of the dispatcher does (R171-R178). -/
inductive DispMove (s : State) : State → Prop
  | still (h : s.dispStopped = true ∨ s.dispPc = .dIdle) : DispMove s s
  | dispatch (hp : s.dispPc = .dIdle) : DispMove s { s with irqPending := s.irqPending - 1, dispPc := .dRdM }
  | rdM (hp : s.dispPc = .dRdM) : DispMove s { s with dispHeldM := s.held .mm2s, dispPc := .dRdS }
  | rdS (p : DispPc) (hp : s.dispPc = .dRdS) (hq : p = .dChkS ∨ p = .dChkM ∨ p = .dLog) :
      DispMove s { s with dispHeldS := s.held .s2mm, dispPc := p }
  | chkS (p : DispPc) (hp : s.dispPc = .dChkS) (hq : p = .dNotifyS ∨ p = .dChkM ∨ p = .dLog) :
      DispMove s { s.afterRead (s.cfg.field (.stsFifoEmpty .s2mm)).bank with dispPc := p }
  | chkM (p : DispPc) (hp : s.dispPc = .dChkM) (hq : p = .dNotifyM ∨ p = .dLog) :
      DispMove s { s.afterRead (s.cfg.field (.stsFifoEmpty .mm2s)).bank with dispPc := p }
  | notify (d : Dir) (hp : s.dispPc = notifyPc d) (hn : s.count.get d ≠ s.cfg.countMax) :
      DispMove s { s with count := s.count.set d (s.count.get d + 1), dispPc := .dIdle }
  | full (d : Dir) (hp : s.dispPc = notifyPc d) (hn : s.count.get d = s.cfg.countMax) :
      DispMove s { s with dispStopped := true, fault := some .countOverflow }
  | log (hp : s.dispPc = .dLog) : DispMove s { s with errlog := s.errlog ++ [.errant], dispPc := .dIdle }

theorem notify_dispMove {s : State} {d : Dir} (hp : s.dispPc = notifyPc d) :
    ∃ t, DispMove s t ∧ notify .dispatcher d s (fun t => .next { t with dispPc := .dIdle }) = .next t := by
  unfold notify
  split
  · exact ⟨_, .full d hp ‹_›, rfl⟩
  · exact ⟨_, .notify d hp ‹_›, rfl⟩

theorem dispStep_move {s : State} (hv : s.cfg.valid = true) : ∃ t, DispMove s t ∧ dispStep s = .next t := by
  unfold dispStep
  split
  · exact ⟨s, .still (.inl ‹_›), rfl⟩
  cases hp : s.dispPc <;> simp only
  case dIdle =>
    unfold execDispatch
    split
    · exact ⟨_, .dispatch hp, rfl⟩
    · exact ⟨s, .still (.inr hp), rfl⟩
  case dRdM => exact ⟨_, .rdM hp, rfl⟩
  case dRdS =>
    refine ⟨_, .rdS _ hp ?_, rfl⟩
    split
    · exact .inl rfl
    · split
      · exact .inr (.inl rfl)
      · exact .inr (.inr rfl)
  case dChkS =>
    simp only [stepDChkS, getBitField_eq hv]
    refine ⟨_, .chkS _ hp ?_, rfl⟩
    split
    · exact .inl rfl
    · split
      · exact .inr (.inl rfl)
      · exact .inr (.inr rfl)
  case dChkM =>
    simp only [stepDChkM, getBitField_eq hv]
    refine ⟨_, .chkM _ hp ?_, rfl⟩
    split
    · exact .inl rfl
    · exact .inr rfl
  case dNotifyS => exact notify_dispMove hp
  case dNotifyM => exact notify_dispMove hp
  case dLog => exact ⟨_, .log hp, rfl⟩

/-! ### All moves -/

/-- Move v takes state s to state t: nothing is enabled, a requester's context changes with what it touches, the
dispatcher takes a step, or the device does. -/
inductive Moved (s : State) : Event → State → Prop
  | still (v : Event) : Moved s v s
  | turnedAway (r : Nat) (sel arg : Word) : Moved s (.host r sel arg) (s.present (.requester r))
  | issued {r : Nat} {c e : Ctx} (sel : Word) {arg : Word} (hc : s.ctx? r = some c) (hready : c.ready = true)
      (hi : Issued arg c e) : Moved s (.host r sel arg) ((s.present (.requester r)).setCtx r e)
  | own {r : Nat} {c e : Ctx} {u : Touch} (hc : s.ctx? r = some c) (hs : c.stopped = false) (hm : OwnMove s r c u e) :
      Moved s (.own r) ((u.on r s).setCtx r e)
  | cancelled {r : Nat} {c e : Ctx} (hc : s.ctx? r = some c) (hs : c.stopped = false) (hw : WaitEnded s c e) :
      Moved s (.cancel r) (s.setCtx r e)
  | timedOut {r : Nat} {c e : Ctx} (hc : s.ctx? r = some c) (hs : c.stopped = false) (hw : WaitEnded s c e) :
      Moved s (.timeout r) (s.setCtx r e)
  | disp {t : State} (hm : DispMove s t) : Moved s .disp t
  | device {v : Event} {t : State} (hd : ofDevice v = true) (ht : t = { s with
      fifo := t.fifo, busy := t.busy, draws := t.draws, irqPending := t.irqPending, extDev := t.extDev }) : Moved s v t

theorem hostCommand_moved {s t : State} {r : Nat} {sel arg : Word} (h : hostCommand r sel arg s = .next t) :
    Moved s (.host r sel arg) t := by
  obtain ⟨k, hk, hissued⟩ := hostCommand_issues s r sel arg
  refine issue_post (P := Moved s (.host r sel arg)) (fun q c htakes => ?_) (.turnedAway r sel arg) t (hk ▸ h)
  obtain ⟨hcur, hc, hready⟩ := htakes
  obtain rfl := Agent.requester.inj hcur
  obtain ⟨e, hi, he⟩ := hissued r c (s.present (.requester r))
  rw [he]
  exact post_next (.issued sel hc hready hi)

/-- Every next state that a move answers in a valid configuration is one of the cases. -/
theorem runEvent_moved {s t : State} {v : Event} (hv : s.cfg.valid = true) (h : runEvent v s = .next t) : Moved s v t := by
  cases v with
  | host r sel arg => exact hostCommand_moved h
  | own r =>
    simp only [runEvent, ownStep] at h
    split at h
    · rename_i c hc
      split at h
      · exact Host.Outcome.next.inj h ▸ .still _
      · obtain ⟨u, e, hm, he⟩ := isOwnMove_stepAt hv hc
        exact Host.Outcome.next.inj (he.symm.trans h) ▸ .own hc (by simpa using ‹¬c.stopped = true›) hm
    · exact Host.Outcome.next.inj h ▸ .still _
  | disp =>
    obtain ⟨u, hm, hu⟩ := dispStep_move hv
    exact Host.Outcome.next.inj (hu.symm.trans h) ▸ .disp hm
  | cancel r =>
    simp only [runEvent, stepCancel] at h
    split at h
    · rename_i c hc
      split at h
      · exact Host.Outcome.next.inj h ▸ .still _
      · rcases cancelAt_cases r c s with hs | ⟨e, hw, he⟩
        · exact Host.Outcome.next.inj (hs.symm.trans h) ▸ .still _
        · exact Host.Outcome.next.inj (he.symm.trans h) ▸ .cancelled hc (by simpa using ‹¬c.stopped = true›) hw
    · exact Host.Outcome.next.inj h ▸ .still _
  | timeout r =>
    simp only [runEvent, stepTimeout] at h
    split at h
    · rename_i c hc
      split at h
      · exact Host.Outcome.next.inj h ▸ .still _
      · rcases timeoutAt_cases r c s with hs | ⟨e, hw, he⟩
        · exact Host.Outcome.next.inj (hs.symm.trans h) ▸ .still _
        · exact Host.Outcome.next.inj (he.symm.trans h) ▸ .timedOut hc (by simpa using ‹¬c.stopped = true›) hw
    · exact Host.Outcome.next.inj h ▸ .still _
  | complete d => exact .device rfl (deviceMove_frame rfl s t h)
  | spurious => exact .device rfl (deviceMove_frame rfl s t h)
  | device n => exact .device rfl (deviceMove_frame rfl s t h)

/-- A step of a machine whose next item is a move is that move, from the state with the item taken. -/
theorem step_moved {s t : State} {v : Event} (hi : s.nextInput = .event v) (h : step s = .next t) : Moved s.taken v t := by
  obtain ⟨hv, hrun⟩ := step_next h
  rw [hi] at hrun
  exact runEvent_moved (by simpa using hv) hrun

end Sys2Proof.Machine
end

section
/-! SUPPORT. The discipline of locks, micro-states and counts: facts about each own move, read off its cases, and from them
that every move keeps a disciplined state and raises no fault but the dispatcher's COUNT_OVERFLOW. -/

namespace Sys2Proof.Machine

open Sys2Proof

/-! ### What a touch does to locks, counts and the fault mark -/

/-- Whether the requester holds lock x after the touch, by whether it held it before. -/
def Touch.holdsAfter (u : Touch) (x : Dir) (before : Bool) : Bool :=
  match u with
  | .take d => before || decide (x = d)
  | .free d => before && !decide (x = d)
  | .nothing | .read _ | .write _ _ | .consume _ | .fault _ => before

theorem Touch.on_lock_get (u : Touch) (r : Nat) (s : State) (x : Dir) : (u.on r s).lock.get x =
    match u with
    | .take d => if x = d then some r else s.lock.get x
    | .free d => if x = d then none else s.lock.get x
    | _ => s.lock.get x := by
  cases u <;> simp [Touch.on, PerDir.get_set]

theorem Touch.on_count_get (u : Touch) (r : Nat) (s : State) (x : Dir) : (u.on r s).count.get x =
    match u with
    | .consume d => if x = d then s.count.get x - 1 else s.count.get x
    | _ => s.count.get x := by
  cases u with
  | consume d =>
    by_cases hx : x = d
    · simp [Touch.on, hx]
    · simp [Touch.on, PerDir.get_set_other _ _ hx, hx]
  | nothing | read _ | write _ _ | take _ | free _ | fault _ => simp [Touch.on]

theorem Touch.on_fault (u : Touch) (r : Nat) (s : State) (h : ∀ k, u ≠ .fault k) : (u.on r s).fault = s.fault := by
  cases u with
  | fault k => exact absurd rfl (h k)
  | nothing | read _ | write _ _ | take _ | free _ | consume _ => simp [Touch.on]

namespace OwnMove

variable {s : State} {r : Nat} {c e : Ctx} {u : Touch}

/-- A requester that holds the locks of its micro-state and has an event to consume raises no fault. -/
theorem not_fault (h : OwnMove s r c u e) (hu : c.uop = none) (hl : ∀ d, c.holds d = true → s.lock.get d = some r)
    (hn : c.pc = .tConsume → 0 < s.count.get c.dir) (k : FaultKind) : u ≠ .fault k := by
  cases h with
  | notOwner d hh hl' => exact absurd (hl d hh) hl'
  | atZero hp h0 => exact absurd h0 (Nat.ne_of_gt (hn hp))
  | resumed hu' _ => exact absurd hu hu'
  | _ => simp

/-- The locks of the micro-state after the move are those before, with the touch. -/
theorem holds_eq (h : OwnMove s r c u e) (hu : c.uop = none) (x : Dir) : e.holds x = u.holdsAfter x (c.holds x) := by
  cases h with
  | resumed hu' _ => exact absurd hu hu'
  | idle | blocked => rfl
  | notOwner | atZero => rfl
  | gBaW k v hp => cases k <;> simp [Ctx.holds, Touch.holdsAfter, hp, afterBusAttr, BusIx.succ?]
  | tAcq hp | tRel hp | tAbtRel hp => simp [Ctx.holds, Touch.holdsAfter, hp, eq_comm]
  | gAcq2 hp | mAcq2 hp | gRel2 hp | mRel2 hp => cases x <;> simp [Ctx.holds, Touch.holdsAfter, hp]
  | _ => simp [Ctx.holds, Touch.holdsAfter, *]

/-- A lock taken was free. -/
theorem take_free {d : Dir} (h : OwnMove s r c (.take d) e) (hu : c.uop = none) : s.lock.get d = none := by
  cases h with
  | resumed hu' _ => exact absurd hu hu'
  | _ => assumption

/-- A lock freed was the micro-state's own. -/
theorem free_holds {d : Dir} (h : OwnMove s r c (.free d) e) (hu : c.uop = none) : c.holds d = true := by
  cases h with
  | resumed hu' _ => exact absurd hu hu'
  | _ => simp [Ctx.holds, *]

/-- A count is taken from only at `T_CONSUME`, in the transfer's own direction. -/
theorem consume_pc {d : Dir} (h : OwnMove s r c (.consume d) e) (hu : c.uop = none) :
    c.pc = .tConsume ∧ c.dir = d ∧ 0 < s.count.get d := by
  cases h with
  | resumed hu' _ => exact absurd hu hu'
  | tConsume hp hn => exact ⟨hp, rfl, hn⟩

/-- `T_CONSUME` is reached only from `T_WAIT`, with a count above 0. -/
theorem reaches_tConsume (h : OwnMove s r c u e) (hu : c.uop = none) (hs : e.stopped = false) (he : e.pc = .tConsume) :
    u = .nothing ∧ 0 < s.count.get e.dir := by
  cases h with
  | resumed hu' _ => exact absurd hu hu'
  | tWait hp hn => exact ⟨rfl, hn⟩
  | idle hp => simp [hp] at he
  | blocked hp => rcases hp with hp | ⟨hp, -⟩ <;> simp [he, MicroState.acquiring] at hp
  | gBaW k v hp => cases k <;> simp [afterBusAttr, BusIx.succ?] at he
  | notOwner | atZero => simp at hs
  | _ => simp at he

/-- The context after the move is disciplined, unless a fault was raised. -/
theorem disciplined (h : OwnMove s r c u e) (hd : c.disciplined s.cfg.pollLimit) (hpos : 1 ≤ s.cfg.pollLimit)
    (hf : ∀ k, u ≠ .fault k) : e.disciplined s.cfg.pollLimit := by
  have hd' := hd
  obtain ⟨hu, hs, hop, hi, herr⟩ := hd
  cases h with
  | resumed hu' _ => exact absurd hu hu'
  | idle | blocked => exact hd'
  | notOwner | atZero => exact absurd rfl (hf _)
  | tPollAgain hp hne =>
    have := hi hp
    simp only [Ctx.opFits, hp] at hop
    refine ⟨hu, hs, by simpa [Ctx.opFits] using hop, fun _ => ?_, by simp⟩
    show c.iter + 1 < s.cfg.pollLimit
    omega
  | tAbtR hp | tAbtW hp =>
    simp only [Ctx.opFits, hp] at hop
    exact ⟨hu, hs, by simpa [Ctx.opFits] using hop, by simp, fun _ => herr (by simp [hp])⟩
  | tModePoll hp =>
    simp only [Ctx.opFits, hp] at hop
    exact ⟨hu, hs, by simpa [Ctx.opFits] using hop, fun _ => hpos, by simp⟩
  | gBaW k v hp =>
    simp only [Ctx.opFits, hp] at hop
    cases k <;> simp_all [Ctx.disciplined, Ctx.opFits, afterBusAttr, BusIx.succ?]
  | _ => simp_all [Ctx.disciplined, Ctx.opFits]

end OwnMove

/-! ### Contexts at `IDLE`, and waits that end -/

theorem Ctx.holds_idle {c : Ctx} (h : c.pc = .idle) (d : Dir) : c.holds d = false := by simp [Ctx.holds, h]

namespace Issued

variable {arg : Word} {c e : Ctx}

/-- A command leaves a disciplined context: its operation at its first micro-state, or none at `IDLE`. -/
theorem disciplined (h : Issued arg c e) (hready : c.ready = true) (n : Nat) : e.disciplined n := by
  obtain ⟨-, hu, hs⟩ := Ctx.ready_iff.1 hready
  cases h <;> exact ⟨hu, hs, by simp [Ctx.opFits], by simp, by simp⟩

/-- No command takes a lock or starts past its first micro-state. -/
theorem holds_false (h : Issued arg c e) (d : Dir) : e.holds d = false := by
  cases h <;> rfl

theorem pc_ne_tConsume (h : Issued arg c e) : e.pc ≠ .tConsume := by
  cases h <;> simp

end Issued

namespace WaitEnded

variable {s : State} {c e : Ctx}

/-- A wait that ends leaves a disciplined context. -/
theorem disciplined (h : WaitEnded s c e) {n : Nat} (hd : c.disciplined n) : e.disciplined n := by
  obtain ⟨hu, hs, hop, -, -⟩ := hd
  cases h with
  | byHand w hu' => exact absurd hu hu'
  | first hp => exact ⟨hu, hs, by simp [Ctx.opFits], by simp, by simp⟩
  | gAcq2 hp | mAcq2 hp =>
    simp only [Ctx.opFits, hp] at hop
    exact ⟨hu, hs, by simpa [Ctx.opFits] using hop, by simp, by simp⟩
  | interrupted hp | timedOut hp =>
    simp only [Ctx.opFits, hp] at hop
    exact ⟨hu, hs, by simpa [Ctx.opFits] using hop, by simp, by simp⟩

/-- The end of a wait changes no lock: what a second acquisition holds is released later. -/
theorem holds_eq (h : WaitEnded s c e) (d : Dir) : e.holds d = c.holds d := by
  cases h with
  | byHand => rfl
  | first hp => rcases hp with hp | hp | hp <;> simp [Ctx.holds, hp]
  | gAcq2 hp | mAcq2 hp | interrupted hp | timedOut hp => simp [Ctx.holds, hp]

theorem pc_ne_tConsume (h : WaitEnded s c e) (hu : c.uop = none) : e.pc ≠ .tConsume := by
  cases h with
  | byHand w hu' => exact absurd hu hu'
  | first | gAcq2 | mAcq2 | interrupted | timedOut => simp

end WaitEnded

/-! ### The dispatcher leaves contexts and locks alone -/

namespace DispMove

variable {s t : State}

theorem cfg_eq (h : DispMove s t) : t.cfg = s.cfg := by cases h <;> simp
theorem ctxs_eq (h : DispMove s t) : t.ctxs = s.ctxs := by cases h <;> simp
theorem lock_eq (h : DispMove s t) : t.lock = s.lock := by cases h <;> simp
theorem dregs_eq (h : DispMove s t) : t.dregs = s.dregs := by cases h <;> simp
theorem sched_eq (h : DispMove s t) : t.sched = s.sched := by cases h <;> simp

/-- A count changes only at its notify step, by one. -/
theorem count_get (h : DispMove s t) (d : Dir) : t.count.get d = s.count.get d ∨
    (s.dispPc = notifyPc d ∧ s.count.get d ≠ s.cfg.countMax ∧ t.count.get d = s.count.get d + 1) := by
  cases h with
  | notify e hp hn =>
    by_cases hd : d = e
    · exact .inr ⟨hd ▸ hp, hd ▸ hn, by simp [hd]⟩
    · exact .inl (PerDir.get_set_other _ _ hd)
  | still | dispatch | rdM | rdS | chkS | chkM | full | log => exact .inl (by simp)

/-- The only fault of the dispatcher is COUNT_OVERFLOW, at a full count, and it stops the dispatcher. -/
theorem fault_eq (h : DispMove s t) : t.fault = s.fault ∨ (t.fault = some .countOverflow ∧ t.count = s.count ∧
    t.dispStopped = true ∧ ∃ d, s.dispPc = notifyPc d ∧ s.count.get d = s.cfg.countMax) := by
  cases h with
  | full d hp hn => exact .inr ⟨rfl, rfl, rfl, d, hp, hn⟩
  | still | dispatch | rdM | rdS | chkS | chkM | notify | log => exact .inl (by simp)

end DispMove

/-! ### Every move keeps the discipline -/

namespace State.Disciplined

variable {s t : State} {r : Nat} {c e : Ctx} {u : Touch}

theorem own_not_fault (h : s.Disciplined) (hc : s.ctx? r = some c) (hm : OwnMove s r c u e) (k : FaultKind) :
    u ≠ .fault k :=
  hm.not_fault (h.contexts r c hc).1 (fun d => (h.holds_iff hc d).1) (h.consumeReady r c hc) k

theorem own (h : s.Disciplined) (hc : s.ctx? r = some c) (hm : OwnMove s r c u e) :
    ((u.on r s).setCtx r e).Disciplined := by
  have hd := h.contexts r c hc
  have hu := hd.1
  have he := hm.disciplined hd (Config.pollLimit_pos h.cfgValid) (h.own_not_fault hc hm)
  have hholds := hm.holds_eq hu
  have hcount := u.on_count_get r s
  have hlock := u.on_lock_get r s
  refine h.update hc (c := c) (by simp) (by simp) (by simpa using h.onlyMoves) he ?_ ?_ ?_ ?_ ?_
  · intro d
    have := h.countBound d
    rw [State.setCtx_count, hcount]
    cases u <;> simp only <;> first | assumption | split <;> omega
  · intro d hne
    rw [State.setCtx_count, hcount]
    cases u with
    | consume x =>
      obtain ⟨hp, rfl, -⟩ := hm.consume_pc hu
      have hx : d ≠ c.dir := fun hdx => hne ((h.holds_iff hc d).1 (by simp [Ctx.holds, hp, hdx]))
      simp [hx]
    | nothing | read _ | write _ _ | take _ | free _ | fault _ => exact le_refl _
  · intro hp
    obtain ⟨rfl, hn⟩ := hm.reaches_tConsume hu he.2.1 hp
    exact hn
  · intro d
    rw [State.setCtx_lock, hlock, hholds]
    have hown := (h.holds_iff hc d).1
    cases u with
    | take x => by_cases hx : d = x <;> cases hch : c.holds d <;> simp_all [Touch.holdsAfter]
    | free x =>
      have hx : d = x → c.holds d = true := fun hx => hx ▸ hm.free_holds hu
      by_cases hdx : d = x <;> cases hch : c.holds d <;> simp_all [Touch.holdsAfter]
    | nothing | read _ | write _ _ | consume _ | fault _ => cases hch : c.holds d <;> simp_all [Touch.holdsAfter]
  · intro d h1 h2
    rw [hholds, h2] at h1
    cases u with
    | take x =>
      have hx : d = x := by simpa [Touch.holdsAfter] using h1
      exact hx ▸ hm.take_free hu
    | nothing | read _ | write _ _ | free _ | consume _ | fault _ => simp [Touch.holdsAfter] at h1

theorem issued (h : s.Disciplined) (hc : s.ctx? r = some c) (hready : c.ready = true) {arg : Word}
    (hi : Issued arg c e) (a : Agent) : ((s.present a).setCtx r e).Disciplined :=
  h.setCtx (c := c) (e := e) hc rfl rfl rfl rfl rfl (hi.disciplined hready _) (fun hp => absurd hp hi.pc_ne_tConsume)
    fun d => by rw [hi.holds_false, Ctx.holds_idle (Ctx.ready_iff.1 hready).1]

theorem waitEnded (h : s.Disciplined) (hc : s.ctx? r = some c) (hw : WaitEnded s c e) : (s.setCtx r e).Disciplined :=
  h.setCtx (c := c) (e := e) hc rfl rfl rfl rfl rfl (hw.disciplined (h.contexts r c hc))
    (fun hp => absurd hp (hw.pc_ne_tConsume (h.contexts r c hc).1)) hw.holds_eq

theorem disp (h : s.Disciplined) (hm : DispMove s t) : t.Disciplined := by
  refine h.same hm.ctxs_eq hm.cfg_eq (by rw [hm.sched_eq]; exact h.onlyMoves) hm.lock_eq (fun d => ?_) fun d => ?_
  all_goals
    have := h.countBound d
    have := hm.count_get d
    omega

theorem moved {v : Event} (h : s.Disciplined) (hm : Moved s v t) : t.Disciplined := by
  cases hm with
  | still => exact h
  | turnedAway r sel arg => exact h.same rfl rfl h.onlyMoves rfl (fun _ => le_refl _) h.countBound
  | issued sel hc hready hi => exact h.issued hc hready hi _
  | own hc hs hm => exact h.own hc hm
  | cancelled hc hs hw => exact h.waitEnded hc hw
  | timedOut hc hs hw => exact h.waitEnded hc hw
  | disp hm => exact h.disp hm
  | device hd ht => rw [ht]; exact h.same rfl rfl h.onlyMoves rfl (fun _ => le_refl _) h.countBound

end State.Disciplined

/-- Settles O46: each move changes at most one requester's context, with the locks that its micro-states hold. -/
theorem everyStepKeepsTheDiscipline : Obligations.EveryStepKeepsTheDiscipline := by
  intro s t h hstep
  obtain ⟨htaken, v, hv⟩ := h.taken
  exact htaken.moved (step_moved hv hstep)

/-- A move from a disciplined state leaves the fault mark, but for the dispatcher at a full count. -/
theorem Moved.fault_eq {s t : State} {v : Event} (h : s.Disciplined) (hm : Moved s v t) : t.fault = s.fault ∨
    (t.fault = some .countOverflow ∧ t.count = s.count ∧ t.dispStopped = true ∧
      ∃ d, s.dispPc = notifyPc d ∧ s.count.get d = s.cfg.countMax) := by
  cases hm with
  | own hc hs hm => exact .inl (Touch.on_fault _ _ _ (h.own_not_fault hc hm))
  | disp hm => exact hm.fault_eq
  | device hd ht => exact .inl (by rw [ht])
  | still | turnedAway | issued | cancelled | timedOut => exact .inl rfl

/-- Settles O48: a move always answers in a valid configuration; a release is by the holder, a consume has an event. -/
theorem onlyOverflowCanFault : Obligations.OnlyOverflowCanFault := by
  intro s h
  obtain ⟨htaken, v, hv⟩ := h.taken
  obtain ⟨t, ht⟩ : Out.Answers (step s) := by
    rw [step_eq h.cfgValid, hv]
    exact runEvent_answers htaken.cfgValid v
  refine ⟨t, ht, ?_⟩
  have hfault := (step_moved hv ht).fault_eq htaken
  simp only [State.taken_fault, State.taken_count, State.taken_dispPc, State.taken_cfg] at hfault
  refine hfault.imp_right fun ⟨hk, hcount, hstop, d, hp, hn⟩ => ⟨hk, hcount, hstop, ?_⟩
  cases d with
  | mm2s => exact .inr ⟨hp, hn⟩
  | s2mm => exact .inl ⟨hp, hn⟩

/-! ### Exclusion and the order of the two locks -/

theorem MicroState.holds_of_transferring {c : Ctx} (h : c.pc.transferring = true) : c.holds c.dir = true := by
  cases hp : c.pc <;> simp [hp, MicroState.transferring] at h <;> simp [Ctx.holds, hp]

/-- Settles O49: the two requesters would hold the same lock. -/
theorem transfersExcludeEachOther : Obligations.TransfersExcludeEachOther := by
  intro s r q c e h hc he hne htr
  have excluded : e.holds c.dir ≠ true := fun hh =>
    hne (h.holder_unique he hc hh (MicroState.holds_of_transferring htr))
  refine ⟨fun htr' hdir => excluded (hdir ▸ MicroState.holds_of_transferring htr'), fun hp => ?_, fun hp => ?_,
    fun k => ⟨fun hp => ?_, fun hp => ?_⟩⟩
  · exact excluded (by simp [Ctx.holds, hp])
  · simp only [List.mem_cons, List.not_mem_nil, or_false] at hp
    rcases hp with hp | hp | hp | hp | hp <;> exact excluded (by simp [Ctx.holds, hp])
  · exact excluded (by simp [Ctx.holds, hp])
  · exact excluded (by simp [Ctx.holds, hp])

/-- An acquire micro-state holds no S2MM lock, and holds MM2S only as the second acquisition. -/
theorem holds_of_acquiring {c : Ctx} (h : c.pc.acquiring = true) :
    c.holds .s2mm = false ∧ (c.holds .mm2s = true → c.pc = .gAcq2 ∨ c.pc = .mAcq2) := by
  cases hp : c.pc <;> simp [hp, MicroState.acquiring] at h <;> simp [Ctx.holds, hp]

/-- Settles O50: S2MM is taken last, so its holder acquires nothing more. -/
theorem holderOfS2mmNeverWaits : Obligations.HolderOfS2mmNeverWaits := by
  intro s r c h hc
  have holdsS : s.lock.s2mm = some r → c.holds .s2mm = true := (h.holds_iff hc .s2mm).2
  have holdsM : s.lock.mm2s = some r → c.holds .mm2s = true := (h.holds_iff hc .mm2s).2
  refine ⟨fun hl => ?_, fun hl hacq => ⟨(holds_of_acquiring hacq).2 (holdsM hl), fun hl' => ?_⟩⟩
  · cases hacq : c.pc.acquiring with
    | false => rfl
    | true => exact absurd (holdsS hl) (by simp [(holds_of_acquiring hacq).1])
  · exact absurd (holdsS hl') (by simp [(holds_of_acquiring hacq).1])

end Sys2Proof.Machine
end

section
/-! SUPPORT. What every step keeps of the register space, the configuration, the fault mark and the logs, hand-built
micro-operations among them; and which moves change a context or a count. -/

namespace Sys2Proof.Machine

open Sys2Proof

/-! ### What every step keeps -/

/-- From s to t the register space stays canonical and in range, the configuration and the requesters stay, at most one
access is made, a recorded fault stays recorded, and the errant log only grows. -/
structure State.Keeps (s t : State) : Prop where
  wf : s.dregs.wf = true → t.dregs.wf = true
  inRange : s.inRange → t.inRange
  cfg : t.cfg = s.cfg
  requesters : t.ctxs.length = s.ctxs.length
  fault : s.fault ≠ none → t.fault ≠ none
  accesses : t.portLog = s.portLog ∨ ∃ a, t.portLog = a :: s.portLog
  errlog : ∃ es, t.errlog = s.errlog ++ es

namespace State.Keeps

variable {s t : State}

/-- Where the register space and the logs stay. -/
theorem of_eq (hdregs : t.dregs = s.dregs) (hcfg : t.cfg = s.cfg) (hlen : t.ctxs.length = s.ctxs.length)
    (hfault : s.fault ≠ none → t.fault ≠ none) (hport : t.portLog = s.portLog) (herr : t.errlog = s.errlog) : s.Keeps t :=
  ⟨fun h => hdregs ▸ h, fun h => by simpa only [State.inRange, hdregs, hcfg] using h, hcfg, hlen, hfault, .inl hport,
    [], by simp [herr]⟩

theorem refl (s : State) : s.Keeps s := of_eq rfl rfl rfl id rfl rfl

theorem setCtx (h : s.Keeps t) (r : Nat) (c : Ctx) : s.Keeps (t.setCtx r c) :=
  ⟨h.wf, h.inRange, h.cfg, by simpa using h.requesters, h.fault, h.accesses, h.errlog⟩

/-- Which agent was addressed is none of it. -/
theorem of_present {a : Agent} (h : (s.present a).Keeps t) : s.Keeps t :=
  ⟨h.wf, h.inRange, h.cfg, h.requesters, h.fault, h.accesses, h.errlog⟩

/-- Nor is the schedule. -/
theorem of_taken (h : s.taken.Keeps t) : s.Keeps t :=
  ⟨by simpa using h.wf, by simpa [State.inRange] using h.inRange, by simpa using h.cfg, by simpa using h.requesters,
    by simpa using h.fault, by simpa using h.accesses, by simpa using h.errlog⟩

theorem afterRead (s : State) (b : Nat) : s.Keeps (s.afterRead b) :=
  ⟨by simp, by simp [State.inRange], by simp, by simp, by simp, .inr ⟨_, rfl⟩, [], by simp⟩

theorem afterWrite (hv : s.cfg.valid = true) {b : Nat} (hb : b < s.cfg.numBanks) (v : Word) : s.Keeps (s.afterWrite b v) :=
  ⟨fun h => State.wf_afterWrite h b v, fun h => State.inRange_afterWrite hv h hb v, by simp, by simp, by simp,
    .inr ⟨_, rfl⟩, [], by simp⟩

theorem stop_length (s : State) (a : Agent) : (s.stop a).ctxs.length = s.ctxs.length := by
  cases a with
  | requester r => cases h : s.ctx? r <;> simp [State.stop, h]
  | dispatcher => rfl
  | device => rfl

/-- A raised fault stops an agent and is recorded. -/
theorem raised (s : State) (a : Agent) (k : FaultKind) : s.Keeps { s.stop a with fault := some k } :=
  of_eq (by simp) (by simp) (stop_length s a) (by simp) (by simp) (by simp)

theorem touch (hv : s.cfg.valid = true) (u : Touch) (r : Nat) : s.Keeps (u.on r s) := by
  cases u with
  | read f => exact afterRead s _
  | write f v => exact afterWrite hv (Config.bank_lt hv f) v
  | fault k => exact of_eq rfl rfl rfl (by simp [Touch.on]) rfl rfl
  | nothing | take d | free d | consume d => exact of_eq rfl rfl rfl id rfl rfl

theorem disp (h : DispMove s t) : s.Keeps t := by
  cases h with
  | chkS p =>
    have h := afterRead s (s.cfg.field (.stsFifoEmpty .s2mm)).bank
    exact ⟨h.wf, h.inRange, h.cfg, h.requesters, h.fault, h.accesses, h.errlog⟩
  | chkM p =>
    have h := afterRead s (s.cfg.field (.stsFifoEmpty .mm2s)).bank
    exact ⟨h.wf, h.inRange, h.cfg, h.requesters, h.fault, h.accesses, h.errlog⟩
  | log => exact ⟨id, id, rfl, rfl, id, .inl rfl, [.errant], rfl⟩
  | full => exact of_eq rfl rfl rfl (by simp) rfl rfl
  | still | dispatch | rdM | rdS | notify => exact of_eq rfl rfl rfl id rfl rfl

theorem moved (hv : s.cfg.valid = true) {v : Event} (h : Moved s v t) : s.Keeps t := by
  cases h with
  | still => exact refl s
  | turnedAway r => exact (refl (s.present (.requester r))).of_present
  | @issued r c e => exact ((refl (s.present (.requester r))).of_present).setCtx r e
  | @own r c e u => exact (touch hv u r).setCtx r e
  | @cancelled r c e | @timedOut r c e => exact (refl s).setCtx r e
  | disp hm => exact disp hm
  | device hd ht => rw [ht]; exact of_eq rfl rfl rfl id rfl rfl

end State.Keeps

/-! ### Presented micro-operations -/

/-- What a presented micro-operation can do: run by hand, the step of its requester or of the dispatcher, or nothing. -/
theorem runMicroOp_post {i : Instr} {k : Nat → Ctx → State → Out} {s : State} {P : State → Prop}
    (byHand : ∀ r c, s.takes r c → (k r c s).Post P) (own : ∀ r, (ownStep r s).Post P) (disp : (dispStep s).Post P)
    (still : P s) : Out.Post (runMicroOp i k s) P := by
  unfold runMicroOp
  split
  next r hcur =>
    split
    next c hc =>
      split
      next hready => exact byHand r c ⟨hcur, hc, hready⟩
      next =>
        split
        · exact post_next still
        · split
          · exact own r
          · exact post_next still
    next => exact post_next still
  next =>
    split
    · exact disp
    · exact post_next still
  next => exact post_next still

theorem beginPartial_keeps (i : Instr) (f : FieldId) (r : Nat) (c : Ctx) (s : State) :
    Out.Post (beginPartial i f r c s) s.Keeps :=
  latchBank_post fun _ => post_next ((State.Keeps.afterRead s _).setCtx r _)

theorem notify_keeps (a : Agent) (d : Dir) (s : State) : Out.Post (notify a d s .next) s.Keeps :=
  notify_post (fun _ => post_next (.of_eq rfl rfl rfl id rfl rfl)) fun _ => .raised s a _

section

variable {s : State} (hv : s.cfg.valid = true)
include hv

theorem ownStep_keeps (r : Nat) : Out.Post (ownStep r s) s.Keeps := fun _ h => .moved hv (runEvent_moved (v := .own r) hv h)

theorem dispStep_keeps : Out.Post (dispStep s) s.Keeps := fun _ h => .moved hv (runEvent_moved (v := .disp) hv h)

theorem runMicroOp_keeps {i : Instr} {k : Nat → Ctx → State → Out}
    (byHand : ∀ r c, s.takes r c → (k r c s).Post s.Keeps) : Out.Post (runMicroOp i k s) s.Keeps :=
  runMicroOp_post byHand (ownStep_keeps hv) (dispStep_keeps hv) (.refl s)

/-- A micro-operation run by any agent keeps it. -/
theorem exec_uop_keeps {i : Instr} (hi : i.format = .uop) : Out.Post (exec i s) s.Keeps := by
  cases i with
  | reset _ | setIrqMask _ | getIrqStatus _ | getBufPhys _ | dmaWrite _ | dmaRead _ | map _ => simp [Instr.format] at hi
  | read f =>
    simp only [exec, execRead]
    exact runMicroOp_keeps hv fun r c _ => readField_post fun _ => post_next ((State.Keeps.afterRead s _).setCtx r _)
  | write f v =>
    simp only [exec, execWrite]
    refine runMicroOp_keeps hv fun r c _ => ?_
    split
    · exact writeFull_post fun hb => post_next (.afterWrite hv hb v)
    · exact beginPartial_keeps _ f r c s
  | getBit f =>
    simp only [exec, execGetBit]
    split
    · exact runMicroOp_keeps hv fun r c _ =>
        getBitField_post fun _ => post_next ((State.Keeps.afterRead s _).setCtx r _)
    · exact post_refused
  | setBit f =>
    simp only [exec, execSetBit]
    split
    · exact runMicroOp_keeps hv fun r c _ => beginPartial_keeps _ f r c s
    · exact post_refused
  | clearBit f =>
    simp only [exec, execClearBit]
    split
    · exact runMicroOp_keeps hv fun r c _ => beginPartial_keeps _ f r c s
    · exact post_refused
  | acquire d =>
    simp only [exec, execAcquire]
    exact runMicroOp_keeps hv fun r c _ => acquire_post (fun _ => post_next (.of_eq rfl rfl rfl id rfl rfl))
      fun _ => post_next ((State.Keeps.refl s).setCtx r _)
  | release d =>
    simp only [exec, execRelease]
    exact runMicroOp_keeps hv fun r c _ => release_post (fun _ => post_next (.of_eq rfl rfl rfl id rfl rfl))
      fun _ => .raised s _ _
  | notify d =>
    simp only [exec, execNotify]
    split
    · split
      · exact post_next (.refl s)
      · split
        · exact dispStep_keeps hv
        · exact notify_keeps _ d s
    · split
      · split
        · exact post_next (.refl s)
        · exact notify_keeps _ d s
      · exact post_next (.refl s)
    · split
      · exact post_next (.refl s)
      · exact notify_keeps _ d s
  | wait d =>
    simp only [exec, execWait]
    exact runMicroOp_keeps hv fun r c _ => awaitSignal_post (fun _ => post_next ((State.Keeps.refl s).setCtx r _))
      fun _ => post_next ((State.Keeps.refl s).setCtx r _)
  | consume d =>
    simp only [exec, execConsume]
    exact runMicroOp_keeps hv fun r c _ => consume_post (fun _ => post_next (.of_eq rfl rfl rfl id rfl rfl))
      fun _ => .raised s _ _
  | dispatch =>
    simp only [exec, execDispatch]
    split
    · exact post_next (.of_eq rfl rfl rfl id rfl rfl)
    · exact post_next (.refl s)
  | irq =>
    simp only [exec, execIrq]
    split
    · exact post_next (.refl s)
    · exact post_next (.of_eq rfl rfl rfl id rfl rfl)

theorem presentMicroOp_keeps (a : Agent) (w v : Word) : Out.Post (presentMicroOp a w v s) s.Keeps := by
  unfold presentMicroOp
  split
  next i rest hdec =>
    obtain ⟨hi, -, -⟩ := encodeUndoesDecode _ _ _ _ _ hdec
    exact fun t ht => (exec_uop_keeps (s := s.present a) hv hi t ht).of_present
  next => exact post_refused

end

/-- Settles O51: a step touches at most one register, or raises a fault, or extends the log. -/
theorem everyStepKeepsTheRegisterSpace : Obligations.EveryStepKeepsTheRegisterSpace := by
  intro s t hwf hrange hstep
  obtain ⟨hv, hrun⟩ := step_next hstep
  have hv' : s.taken.cfg.valid = true := by simpa using hv
  have keeps : s.Keeps t := by
    cases hi : s.nextInput with
    | event v => exact (State.Keeps.moved hv' (step_moved hi hstep)).of_taken
    | uop a w v =>
      rw [hi] at hrun
      exact (presentMicroOp_keeps hv' a w v t hrun).of_taken
  exact ⟨keeps.wf hwf, keeps.inRange hrange, keeps.cfg, keeps.requesters, keeps.fault, keeps.accesses, keeps.errlog⟩

/-! ### Which moves change a context -/

theorem OwnMove.buf_eq {s : State} {r : Nat} {c e : Ctx} {u : Touch} (h : OwnMove s r c u e) : e.buf = c.buf := by
  cases h with
  | resumed _ hbuf => exact hbuf
  | _ => rfl

theorem Issued.buf_eq {arg : Word} {c e : Ctx} (h : Issued arg c e) : e.buf = c.buf := by
  cases h <;> rfl

theorem WaitEnded.buf_eq {s : State} {c e : Ctx} (h : WaitEnded s c e) : e.buf = c.buf := by
  cases h <;> rfl

/-- The moves of requester q: a command to it, its own step, its cancellation, its timeout. -/
def ofRequester (q : Nat) : Event → Prop
  | .host r _ _ | .own r | .cancel r | .timeout r => r = q
  | .disp | .complete _ | .spurious | .device _ => False

theorem ofRequester_iff {q : Nat} {v : Event} : ofRequester q v ↔
    (∃ sel arg, v = .host q sel arg) ∨ v = .own q ∨ v = .cancel q ∨ v = .timeout q := by
  cases v <;> simp [ofRequester]

/-- A context stays, or it was live and its requester moved, which kept its buffer address. -/
theorem Moved.ctx?_cases {s t : State} {v : Event} (h : Moved s v t) (q : Nat) : t.ctx? q = s.ctx? q ∨
    ∃ c e, s.ctx? q = some c ∧ t.ctx? q = some e ∧ c.stopped = false ∧ e.buf = c.buf ∧ ofRequester q v := by
  have changed : ∀ {u : State} {r : Nat} {c e : Ctx}, u.ctxs = s.ctxs → s.ctx? r = some c → c.stopped = false →
      e.buf = c.buf → ofRequester r v → (u.setCtx r e).ctx? q = s.ctx? q ∨
        ∃ c e', s.ctx? q = some c ∧ (u.setCtx r e).ctx? q = some e' ∧ c.stopped = false ∧ e'.buf = c.buf ∧
          ofRequester q v := by
    intro u r c e hu hc hs hbuf hr
    have hu' : ∀ p, u.ctx? p = s.ctx? p := fun p => by rw [State.ctx?, hu]
    by_cases hq : q = r
    · subst hq
      exact .inr ⟨c, e, hc, State.ctx?_setCtx_same e ((hu' q).trans hc), hs, hbuf, hr⟩
    · exact .inl ((State.ctx?_setCtx_other u e hq).trans (hu' q))
  cases h with
  | still | turnedAway => exact .inl rfl
  | issued sel hc hready hi => exact changed (by simp) hc (Ctx.ready_iff.1 hready).2.2 hi.buf_eq rfl
  | own hc hs hm => exact changed (by simp) hc hs hm.buf_eq rfl
  | cancelled hc hs hw => exact changed rfl hc hs hw.buf_eq rfl
  | timedOut hc hs hw => exact changed rfl hc hs hw.buf_eq rfl
  | disp hm => exact .inl (by rw [State.ctx?, hm.ctxs_eq])
  | device hd ht => exact .inl (by rw [ht])

/-- Settles O54: every other move leaves the list of contexts, and no move of a requester writes its buffer address. -/
theorem contextsChangeOnlyByTheirOwnMoves : Obligations.ContextsChangeOnlyByTheirOwnMoves := by
  rintro s t q c ⟨v, hv⟩ hstep hc
  have hcase := (step_moved hv hstep).ctx?_cases q
  simp only [State.taken_ctxs, State.ctx?] at hcase hc ⊢
  rcases hcase with hsame | ⟨c₀, e, hc₀, he, hs, hbuf, hq⟩
  · exact ⟨c, hsame.trans hc, rfl, fun _ => rfl, fun hne => absurd rfl hne⟩
  · obtain rfl := Option.some.inj (hc₀.symm.trans hc)
    exact ⟨e, he, hbuf, fun hs' => absurd (hs.symm.trans hs') (by simp), fun _ => ⟨v, hv, ofRequester_iff.1 hq⟩⟩

/-! ### Which moves change a count -/

/-- A count changes at the dispatcher's notify step, or at `T_CONSUME` of the transfer that holds the lock. -/
theorem Moved.count_get {s t : State} {v : Event} (h : s.Disciplined) (hm : Moved s v t) (d : Dir) :
    t.count.get d = s.count.get d ∨
    (v = .disp ∧ s.dispPc = notifyPc d ∧ t.count.get d = s.count.get d + 1) ∨
    (∃ r c, v = .own r ∧ s.ctx? r = some c ∧ c.pc = .tConsume ∧ c.dir = d ∧ s.lock.get d = some r ∧
      t.count.get d + 1 = s.count.get d) := by
  cases hm with
  | still | turnedAway | issued | cancelled | timedOut => exact .inl rfl
  | device hd ht => exact .inl (by rw [ht])
  | disp hm => exact (hm.count_get d).imp_right fun ⟨hp, _, hn⟩ => .inl ⟨rfl, hp, hn⟩
  | @own r c e u hc hs hm =>
    have hcount := u.on_count_get r s d
    cases u with
    | nothing | read _ | write _ _ | take _ | free _ | fault _ => exact .inl hcount
    | consume x =>
      obtain ⟨hp, rfl, hn⟩ := hm.consume_pc (h.contexts r c hc).1
      by_cases hx : d = c.dir
      · subst hx
        have hl := (h.holds_iff hc c.dir).1 (by simp [Ctx.holds, hp])
        refine .inr (.inr ⟨r, c, rfl, hc, hp, rfl, hl, ?_⟩)
        rw [State.setCtx_count, hcount]
        simp only [if_true]
        omega
      · exact .inl (by rw [State.setCtx_count, hcount]; simp [hx])

/-- Settles O53, from the cases of a move. -/
theorem countsChangeOnlyThere : Obligations.CountsChangeOnlyThere := by
  intro s t d h hstep hne
  obtain ⟨htaken, v, hv⟩ := h.taken
  have hcase := (step_moved hv hstep).count_get htaken d
  simp only [State.taken_count, State.taken_ctxs, State.taken_lock, State.taken_dispPc, State.ctx?] at hcase ⊢
  rcases hcase with hsame | ⟨rfl, hp, hn⟩ | ⟨r, c, rfl, hc, hp, hd, hl, hn⟩
  · exact absurd hsame hne
  · exact .inl ⟨hv, by cases d <;> exact hp, hn⟩
  · exact .inr ⟨r, c, hv, hc, hp, hd, hl, hn⟩

end Sys2Proof.Machine
end

section
/-! SUPPORT. In the reference layout: which moves write the bank of an enable bit or of the mode bits (R209, R213). -/

namespace Sys2Proof.Machine

open Sys2Proof

/-! ### Banks of the reference layout (R34) -/

theorem reference_xferEn_bank {f : FieldId} {d : Dir}
    (h : (Config.reference.field f).bank = (Config.reference.field (.xferEn d)).bank) : f = .xferEn d := by
  have all : ∀ g ∈ FieldId.all, ∀ e ∈ [Dir.mm2s, Dir.s2mm],
      (Config.reference.field g).bank = (Config.reference.field (.xferEn e)).bank → g = .xferEn e := by decide
  exact all f (FieldId.mem_all f) d (by cases d <;> simp) h

theorem reference_irqEnable_bank {f : FieldId}
    (h : (Config.reference.field f).bank = (Config.reference.field .irqEnable).bank) : f = .irqEnable ∨ ∃ d, f = .irqEn d := by
  have all : ∀ g ∈ FieldId.all, (Config.reference.field g).bank = (Config.reference.field .irqEnable).bank →
      g = .irqEnable ∨ g = .irqEn .mm2s ∨ g = .irqEn .s2mm := by decide
  rcases all f (FieldId.mem_all f) h with h | h | h
  · exact .inl h
  · exact .inr ⟨_, h⟩
  · exact .inr ⟨_, h⟩

theorem reference_xferEn_plain (d : Dir) : plainBank .reference (Config.reference.field (.xferEn d)).bank = true := by
  cases d <;> decide

theorem reference_resetSpares (b : Nat) : resetSpares .reference b = true := resetSpares_iff.2 (.inl rfl)

/-- A touch changes a bank only by writing a field of it. -/
theorem Touch.stored_on {u : Touch} {r : Nat} {s : State} {b : Nat} (hcfg : s.cfg = .reference)
    (h : ∀ f v, u = .write f v → (s.cfg.field f).bank ≠ b) : (u.on r s).stored b = s.stored b := by
  cases u with
  | read f => exact State.stored_afterRead s _ b
  | write f v => exact State.stored_afterWrite_other v (h f v rfl).symm (hcfg ▸ reference_resetSpares _)
  | nothing | take _ | free _ | consume _ | fault _ => rfl

theorem State.stored_congr {s t : State} (hcfg : t.cfg = s.cfg) (hdregs : t.dregs = s.dregs) (b : Nat) :
    t.stored b = s.stored b := by
  rw [State.stored, State.stored, hcfg, hdregs]

theorem State.xferEnabled_congr {s t : State} {d : Dir} (hcfg : t.cfg = s.cfg)
    (h : t.stored (s.cfg.field (.xferEn d)).bank = s.stored (s.cfg.field (.xferEn d)).bank) :
    t.xferEnabled d = s.xferEnabled d := by
  rw [State.xferEnabled, State.xferEnabled, hcfg, h]

theorem State.irqMode_congr {s t : State} {d : Dir} (hcfg : t.cfg = s.cfg)
    (h : t.stored (s.cfg.field .irqEnable).bank = s.stored (s.cfg.field .irqEnable).bank) : t.irqMode d = s.irqMode d := by
  rw [State.irqMode, State.irqMode, hcfg, h]

/-! ### The enable bit -/

/-- A requester leaves the micro-states that own an enable bit only by clearing it. -/
theorem OwnMove.enables_or_clears {s : State} {r : Nat} {c e : Ctx} {u : Touch} {d : Dir} (h : OwnMove s r c u e)
    (hv : s.cfg.valid = true) (hu : c.uop = none) (hc : c.enables d = true) :
    e.enables d = true ∨ ∃ v, u = .write (.xferEn d) v ∧ v.getLsbD (s.cfg.field (.xferEn d)).offset = false := by
  have clears {p : MicroState} (hp : c.pc = p) (hdir : c.pc = p → c.dir = d) : ∃ v,
      Touch.write (.xferEn c.dir) (c.tmp &&& ~~~(1#32 <<< (s.cfg.field (.xferEn c.dir)).offset)) = .write (.xferEn d) v ∧
        v.getLsbD (s.cfg.field (.xferEn d)).offset = false := by
    obtain rfl := hdir hp
    exact ⟨_, rfl, getLsbD_and_not_bitAt (Config.offset_lt hv _) _⟩
  cases h with
  | resumed hu' _ => exact absurd hu hu'
  | idle | blocked | notOwner | atZero => exact .inl hc
  | tDisW hp | tAbtW hp => exact .inr (clears hp fun hp => by simpa [Ctx.enables, hp] using hc)
  | _ => simp_all [Ctx.enables]

/-- A requester that writes an enable bit owns it, or cleared it. -/
theorem OwnMove.writes_enable {s : State} {r : Nat} {c e : Ctx} {d : Dir} {v : Word}
    (h : OwnMove s r c (.write (.xferEn d) v) e) (hv : s.cfg.valid = true) (hu : c.uop = none) :
    e.enables d = true ∨ v.getLsbD (s.cfg.field (.xferEn d)).offset = false := by
  cases h with
  | resumed hu' _ => exact absurd hu hu'
  | tEnW hp => exact .inl (by simp [Ctx.enables])
  | tDisW hp | tAbtW hp => exact .inr (getLsbD_and_not_bitAt (Config.offset_lt hv _) _)

/-- The moves of HOST and of the environment leave the enable bits and who owns them. -/
theorem State.enableOwned_of_ctx {s t : State} (h : s.enableOwned) (hx : ∀ d, t.xferEnabled d = s.xferEnabled d)
    (hctx : ∀ q c d, s.ctx? q = some c → c.enables d = true → ∃ p e, t.ctx? p = some e ∧ e.enables d = true) :
    t.enableOwned := by
  intro d hd
  obtain ⟨q, c, hc, he⟩ := h d ((hx d).symm.trans hd)
  exact hctx q c d hc he

/-- A requester's context takes over the bits it owned. -/
theorem enables_setCtx {s : State} {r q : Nat} {c e f : Ctx} {d : Dir} (hc : s.ctx? r = some c)
    (h : c.enables d = true → e.enables d = true) (hf : s.ctx? q = some f) (hd : f.enables d = true) :
    ∃ p g, (s.setCtx r e).ctx? p = some g ∧ g.enables d = true := by
  by_cases hq : q = r
  · subst hq
    obtain rfl := Option.some.inj (hf.symm.trans hc)
    exact ⟨q, e, State.ctx?_setCtx_same e hc, h hd⟩
  · exact ⟨q, f, (State.ctx?_setCtx_other s e hq).trans hf, hd⟩

theorem WaitEnded.enables {s : State} {c e : Ctx} (h : WaitEnded s c e) {d : Dir} (hc : c.enables d = true) :
    e.enables d = true := by
  cases h with
  | byHand => exact hc
  | first hp => rcases hp with hp | hp | hp <;> simp [Ctx.enables, hp] at hc
  | gAcq2 hp | mAcq2 hp => simp [Ctx.enables, hp] at hc
  | interrupted hp | timedOut hp => simpa [Ctx.enables, hp] using hc

/-- An own step in the reference layout keeps the enable bits owned. -/
theorem State.enableOwned_own {s : State} {r : Nat} {c e : Ctx} {u : Touch} (h : s.Disciplined) (hcfg : s.cfg = .reference)
    (ho : s.enableOwned) (hc : s.ctx? r = some c) (hm : OwnMove s r c u e) : ((u.on r s).setCtx r e).enableOwned := by
  intro d hd
  have hu := (h.contexts r c hc).1
  have hc' : (u.on r s).ctx? r = some c := by simpa [State.ctx?] using hc
  have mine (he : e.enables d = true) : ∃ q f, ((u.on r s).setCtx r e).ctx? q = some f ∧ f.enables d = true :=
    ⟨r, e, State.ctx?_setCtx_same e hc', he⟩
  have cleared {v : Word} (hw : u = .write (.xferEn d) v) (hbit : v.getLsbD (s.cfg.field (.xferEn d)).offset = false) :
      False := by
    subst hw
    have := State.xferEnabled_afterWrite (s := s) (d := d) v (hcfg ▸ reference_xferEn_plain d)
    rw [show ((Touch.write (.xferEn d) v).on r s).setCtx r e = (s.afterWrite (s.cfg.field (.xferEn d)).bank v).setCtx r e
      from rfl] at hd
    exact absurd (this.symm.trans hd) (by simp [hbit])
  by_cases hwrite : ∃ v, u = .write (.xferEn d) v
  · obtain ⟨v, rfl⟩ := hwrite
    exact (hm.writes_enable h.cfgValid hu).elim mine fun hbit => (cleared rfl hbit).elim
  · have hsame : (u.on r s).xferEnabled d = s.xferEnabled d := by
      refine State.xferEnabled_congr (by simp) (Touch.stored_on hcfg fun f v hf hb => hwrite ⟨v, ?_⟩)
      rw [hcfg] at hb
      rw [hf, reference_xferEn_bank hb]
    obtain ⟨q, f, hf, hfd⟩ := ho d (hsame.symm.trans hd)
    refine enables_setCtx hc' (fun hcd => ?_) (by simpa [State.ctx?] using hf) hfd
    exact (hm.enables_or_clears h.cfgValid hu hcd).elim id fun ⟨v, hv, _⟩ => absurd ⟨v, hv⟩ hwrite

theorem Moved.enableOwned {s t : State} {v : Event} (hm : Moved s v t) (h : s.Disciplined) (hcfg : s.cfg = .reference)
    (ho : s.enableOwned) : t.enableOwned := by
  cases hm with
  | still | turnedAway => exact ho
  | issued sel hc hready hi =>
    refine State.enableOwned_of_ctx ho (fun _ => rfl) fun q f d hf => enables_setCtx hc (fun hcd => ?_) hf
    simp [Ctx.enables, (Ctx.ready_iff.1 hready).1] at hcd
  | own hc hs hm => exact State.enableOwned_own h hcfg ho hc hm
  | cancelled hc hs hw | timedOut hc hs hw =>
    exact State.enableOwned_of_ctx ho (fun _ => rfl) fun q f d hf => enables_setCtx hc hw.enables hf
  | disp hm =>
    refine State.enableOwned_of_ctx ho
      (fun d => State.xferEnabled_congr hm.cfg_eq (State.stored_congr hm.cfg_eq hm.dregs_eq _)) fun q f d hf hd => ?_
    exact ⟨q, f, by simpa [State.ctx?, hm.ctxs_eq] using hf, hd⟩
  | device hd ht => rw [ht]; exact ho

/-- Settles O52: the owner of an enable bit leaves its micro-states only by the write that clears the bit. -/
theorem everyStepKeepsTheEnableBitOwned : Obligations.EveryStepKeepsTheEnableBitOwned := by
  intro s t h hcfg ho hstep
  obtain ⟨htaken, v, hv⟩ := h.taken
  refine (step_moved hv hstep).enableOwned htaken (by simpa using hcfg) fun d hd => ?_
  rw [State.xferEnabled_congr (State.taken_cfg s) (State.stored_congr (State.taken_cfg s) (State.taken_dregs s) _)] at hd
  simpa [State.ctx?] using ho d hd

/-! ### The mode bits -/

/-- The own step that writes `IRQ_ENABLE` is `M_WR`; none writes a mode bit by itself. -/
theorem OwnMove.writes_mask {s : State} {r : Nat} {c e : Ctx} {f : FieldId} {v : Word} (h : OwnMove s r c (.write f v) e)
    (hu : c.uop = none) (hf : f = .irqEnable ∨ ∃ d, f = .irqEn d) : c.pc = .mWr := by
  cases h with
  | resumed hu' _ => exact absurd hu hu'
  | mWr hp => exact hp
  | _ => simp at hf

/-- In the reference layout a move that changes a mode bit is `M_WR` of some requester. -/
theorem Moved.irqMode {s t : State} {v : Event} (hm : Moved s v t) (h : s.Disciplined) (hcfg : s.cfg = .reference)
    (d : Dir) : t.irqMode d = s.irqMode d ∨ ∃ r c, v = .own r ∧ s.ctx? r = some c ∧ c.pc = .mWr := by
  cases hm with
  | still | turnedAway | issued | cancelled | timedOut => exact .inl rfl
  | disp hm => exact .inl (State.irqMode_congr hm.cfg_eq (State.stored_congr hm.cfg_eq hm.dregs_eq _))
  | device hd ht => exact .inl (by rw [ht]; rfl)
  | @own r c e u hc hs hm =>
    by_cases hp : c.pc = .mWr
    · exact .inr ⟨r, c, rfl, hc, hp⟩
    · refine .inl (State.irqMode_congr (t := (u.on r s).setCtx r e) (by simp)
        ((State.stored_setCtx _ _ _ _).trans (Touch.stored_on hcfg fun f w hf hb => hp ?_)))
      subst hf
      rw [hcfg] at hb
      exact hm.writes_mask (h.contexts r c hc).1 (reference_irqEnable_bank hb)

/-- Settles O55: `M_WR` holds both locks, so no transfer holds one meanwhile. -/
theorem modeIsStableDuringTransfer : Obligations.ModeIsStableDuringTransfer := by
  intro s t d h hcfg hstep
  obtain ⟨htaken, v, hv⟩ := h.taken
  have hcase : t.irqMode d = s.irqMode d ∨ ∃ r c, v = .own r ∧ s.ctx? r = some c ∧ c.pc = .mWr := by
    have := (step_moved hv hstep).irqMode htaken (by simpa using hcfg) d
    rwa [State.irqMode_congr (State.taken_cfg s) (State.stored_congr (State.taken_cfg s) (State.taken_dregs s) _),
      show s.taken.ctx? = s.ctx? from funext fun r => by simp [State.ctx?]] at this
  refine ⟨fun hne => ?_, fun r c hc htr hdir => hcase.resolve_right ?_⟩
  · obtain ⟨r, c, rfl, hc, hp⟩ := hcase.resolve_left hne
    exact ⟨r, c, hv, hc, hp⟩
  · rintro ⟨q, f, -, hf, hp⟩
    have hq : q = r := h.holder_unique hf hc (d := d) (by simp [Ctx.holds, hp])
      (hdir ▸ MicroState.holds_of_transferring htr)
    subst hq
    obtain rfl := Option.some.inj (hf.symm.trans hc)
    simp [hp, MicroState.transferring] at htr

end Sys2Proof.Machine
end

section
/-! SUPPORT. Progress of a transfer (R216) and of an invocation of the dispatcher (R179), and the state at attach (R300). -/

namespace Sys2Proof.Machine

open Sys2Proof

/-! ### The measure of a transfer -/

/-- The own step of a transfer that is not waiting for an event lowers its measure; at 0 it has freed its lock and returned. -/
theorem OwnMove.measure_lt {s : State} {r : Nat} {c e : Ctx} {u : Touch} (h : OwnMove s r c u e)
    (hd : c.disciplined s.cfg.pollLimit) (hpos : 1 ≤ s.cfg.pollLimit) (hf : ∀ k, u ≠ .fault k)
    (htr : c.pc.transferring = true) (hwait : ¬(c.pc = .tWait ∧ s.count.get c.dir = 0)) :
    e.measure s.cfg.pollLimit < c.measure s.cfg.pollLimit ∧
      (e.measure s.cfg.pollLimit = 0 → e.pc = .idle ∧ u = .free c.dir ∧ e.res ≠ none) := by
  obtain ⟨hu, -, -, hi, herr⟩ := hd
  cases h with
  | resumed hu' _ => exact absurd hu hu'
  | notOwner | atZero => exact absurd rfl (hf _)
  | idle hp => simp [hp, MicroState.transferring] at htr
  | blocked hp =>
    rcases hp with hp | hp
    · cases hpc : c.pc <;> simp [hpc, MicroState.acquiring, MicroState.transferring] at hp htr
    · exact absurd hp hwait
  | tPollAgain hp hne =>
    have := hi hp
    simp only [Ctx.measure, hp]
    omega
  | tPollCeiling hp | tPollDone hp | tModePoll hp =>
    simp only [Ctx.measure, hp]
    omega
  | tRel hp => simp [Ctx.measure, hp]
  | tAbtRel hp => rcases herr (by simp [hp]) with he | he <;> simp [Ctx.measure, hp, he]
  | tWaddr hp | tWdata hp | tEnR hp | tEnW hp | tModeWait hp | tWait hp | tConsume hp | tDrain hp | tDisR hp | tDisW hp
  | tAbtR hp | tAbtW hp => simp [Ctx.measure, hp]
  | tAcq hp | gAcq1 hp | gAcq2 hp | gCrel1 hp | gRsR hp | gRsW hp | gRcR hp | gRcW hp | gBaRNone k hp | gBaR k hp
  | gBaW k v hp | gRel2 hp | gRel1 hp | mAcq1 hp | mAcq2 hp | mCrel1 hp | mWr hp | mRel2 hp | mRel1 hp | sRd v hp =>
    simp [hp, MicroState.transferring] at htr

/-- Settles O56: TIMEOUT lowers the measure at `T_WAIT` with no event, the own step everywhere else. -/
theorem transferMeasureDecreases : Obligations.TransferMeasureDecreases := by
  intro s r c h hc htr
  have hd := h.contexts r c hc
  have hlive : s.live r c := ⟨hc, hd.2.1⟩
  by_cases hwait : c.pc = .tWait ∧ s.count.get c.dir = 0
  · obtain ⟨hp, hn⟩ := hwait
    refine ⟨.timeout r, _, { c with err := some .timeout, pc := .tAbtR }, .inr ⟨rfl, hp, hn⟩, ?_,
      State.ctx?_setCtx_same _ hc, by simp [Ctx.measure, hp], by simp [Ctx.measure]⟩
    simp only [step_timeout h.cfgValid hlive, timeoutAt, hp, hn, if_true, goto]
  · obtain ⟨u, e, hm, he⟩ := isOwnMove_stepAt h.cfgValid hc
    have hf := h.own_not_fault hc hm
    obtain ⟨hlt, hzero⟩ := hm.measure_lt hd (Config.pollLimit_pos h.cfgValid) hf htr hwait
    refine ⟨.own r, _, e, .inl rfl, (step_own h.cfgValid hlive).trans he, ?_, hlt, fun h0 => ?_⟩
    · exact State.ctx?_setCtx_same e (by simpa [State.ctx?] using hc)
    · obtain ⟨hidle, rfl, hres⟩ := hzero h0
      exact ⟨hidle, by simp [Touch.on], hres⟩

/-! ### The dispatcher -/

/-- A dispatcher in an invocation, not stopped, comes nearer its end with every step, or a full count stops it. -/
theorem DispMove.measure_lt {s t : State} (h : DispMove s t) (hp : s.dispPc ≠ .dIdle) (hs : s.dispStopped = false) :
    t.dispStopped = true ∨ t.dispPc.measure < s.dispPc.measure := by
  cases h with
  | still h =>
    rcases h with h | h
    · simp [hs] at h
    · exact absurd h hp
  | dispatch h => exact absurd h hp
  | full => exact .inl rfl
  | rdM h | log h => exact .inr (by simp [h, DispPc.measure])
  | rdS p h hq | chkS p h hq => exact .inr (by rcases hq with rfl | rfl | rfl <;> simp [h, DispPc.measure])
  | chkM p h hq => exact .inr (by rcases hq with rfl | rfl <;> simp [h, DispPc.measure])
  | notify d h => exact .inr (by cases d <;> simp [h, notifyPc, DispPc.measure])

/-- Only the dispatcher's own moves change its micro-state or stop it. -/
theorem Moved.dispPc_eq {s t : State} {v : Event} (h : Moved s v t) (hv : v ≠ .disp) :
    t.dispPc = s.dispPc ∧ t.dispStopped = s.dispStopped := by
  cases h with
  | disp => exact absurd rfl hv
  | device hd ht => rw [ht]; exact ⟨rfl, rfl⟩
  | own => simp
  | still | turnedAway | issued | cancelled | timedOut => exact ⟨rfl, rfl⟩

section

variable {run : Nat → State} {moves : Nat → Event}

/-- A run keeps the configuration valid. -/
theorem IsRun.valid (h : IsRun run moves) (h0 : (run 0).cfg.valid = true) : ∀ n, (run n).cfg.valid = true
  | 0 => h0
  | n + 1 => by
    have hn := h.valid h0 n
    have hstep := h n
    rw [step_willMove hn] at hstep
    rw [runEvent_cfg _ _ _ hstep]
    exact hn

theorem IsRun.moved (h : IsRun run moves) (h0 : (run 0).cfg.valid = true) (n : Nat) :
    Moved (run n) (moves n) (run (n + 1)) := by
  have hv := h.valid h0 n
  exact runEvent_moved hv ((step_willMove hv _).symm.trans (h n))

/-- In an invocation, not stopped, the dispatcher's step changes the machine. -/
theorem disp_enabled {s : State} (hv : s.cfg.valid = true) (hp : s.dispPc ≠ .dIdle) (hs : s.dispStopped = false) :
    enabled .disp s := by
  obtain ⟨t, hm, ht⟩ := dispStep_move hv
  refine ⟨t, (step_willMove hv _).trans ht, ?_⟩
  rintro rfl
  rcases hm.measure_lt hp hs with h | h
  · simp [hs] at h
  · exact lt_irrefl _ h

/-- Until the dispatcher's next move nothing changes its micro-state. -/
theorem IsRun.dispPc_eq (h : IsRun run moves) (h0 : (run 0).cfg.valid = true) (n : Nat) : ∀ k,
    (∀ j, j < k → moves (n + j) ≠ .disp) →
      (run (n + k)).dispPc = (run n).dispPc ∧ (run (n + k)).dispStopped = (run n).dispStopped
  | 0, _ => ⟨rfl, rfl⟩
  | k + 1, hk => by
    obtain ⟨hp, hs⟩ := h.dispPc_eq h0 n k fun j hj => hk j (by omega)
    obtain ⟨hp', hs'⟩ := (h.moved h0 (n + k)).dispPc_eq (hk k (by omega))
    exact ⟨hp'.trans hp, hs'.trans hs⟩

/-- In a fair run the dispatcher, in an invocation and not stopped, takes its next step, which brings it nearer the end. -/
theorem IsRun.disp_moves (h : IsRun run moves) (hfair : fairTo .disp run moves) (h0 : (run 0).cfg.valid = true) (n : Nat)
    (hp : (run n).dispPc ≠ .dIdle) (hs : (run n).dispStopped = false) :
    ∃ m, n ≤ m ∧ ((run m).dispStopped = true ∨ (run m).dispPc.measure < (run n).dispPc.measure) := by
  have taken : ∃ k, moves (n + k) = .disp := by
    by_contra hno
    have hnever : ∀ j, moves (n + j) ≠ .disp := fun j hj => hno ⟨j, hj⟩
    obtain ⟨m, hm, hdisp⟩ := hfair n fun m hm => by
      obtain ⟨j, rfl⟩ := Nat.exists_eq_add_of_le hm
      obtain ⟨hpj, hsj⟩ := h.dispPc_eq h0 n j fun i _ => hnever i
      exact disp_enabled (h.valid h0 _) (hpj ▸ hp) (hsj ▸ hs)
    obtain ⟨j, rfl⟩ := Nat.exists_eq_add_of_le hm
    exact hnever j hdisp
  classical
  obtain ⟨hpk, hsk⟩ := h.dispPc_eq h0 n (Nat.find taken) fun j hj => Nat.find_min taken hj
  refine ⟨n + Nat.find taken + 1, by omega, ?_⟩
  obtain ⟨t, hdm, ht⟩ := dispStep_move (h.valid h0 (n + Nat.find taken))
  have hstep := h (n + Nat.find taken)
  rw [Nat.find_spec taken, step_willMove (h.valid h0 _)] at hstep
  obtain rfl := Host.Outcome.next.inj (ht.symm.trans hstep)
  simpa [hpk] using hdm.measure_lt (hpk ▸ hp) (hsk ▸ hs)

/-- An invocation with at most k steps left ends. -/
theorem IsRun.disp_ends (h : IsRun run moves) (hfair : fairTo .disp run moves) (h0 : (run 0).cfg.valid = true) :
    ∀ k n, (run n).dispPc.measure ≤ k → ∃ m, n ≤ m ∧ ((run m).dispPc = .dIdle ∨ (run m).dispStopped = true) := by
  intro k
  induction k with
  | zero =>
    intro n hn
    refine ⟨n, le_refl n, .inl ?_⟩
    cases hp : (run n).dispPc <;> simp [hp, DispPc.measure] at hn ⊢
  | succ k ih =>
    intro n hn
    by_cases hp : (run n).dispPc = .dIdle
    · exact ⟨n, le_refl n, .inl hp⟩
    cases hs : (run n).dispStopped with
    | true => exact ⟨n, le_refl n, .inr hs⟩
    | false =>
      obtain ⟨m, hm, hstop | hlt⟩ := h.disp_moves hfair h0 n hp hs
      · exact ⟨m, hm, .inr hstop⟩
      · obtain ⟨p, hp, hend⟩ := ih m (by omega)
        exact ⟨p, le_trans hm hp, hend⟩

end

/-- Settles O60, by induction on the steps the invocation has left: fairness takes the next of them. -/
theorem fairDispatcherFinishes : Obligations.FairDispatcherFinishes :=
  fun _ _ n hrun hfair h => hrun.disp_ends hfair.1 h.cfgValid _ n (le_refl _)

/-! ### At attach -/

/-- At attach every context is new, with its buffer. -/
theorem attach_ctx? {cfg : Config} {r : Nat} {c : Ctx} (h : (State.attach cfg).ctx? r = some c) :
    ∃ buf, cfg.bufs[r]? = some buf ∧ c = Ctx.fresh buf := by
  simp only [State.ctx?, State.attach, List.getElem?_map, Option.map_eq_some_iff] at h
  obtain ⟨buf, hbuf, rfl⟩ := h
  exact ⟨buf, hbuf, rfl⟩

/-- Settles O1. -/
theorem attachLeavesListedValues : Obligations.AttachLeavesListedValues := by
  rintro cfg s rfl
  refine ⟨rfl, rfl, rfl, rfl, rfl, rfl, rfl, rfl, by simp [State.attach, Config.numReq], fun r => ?_⟩
  cases hc : (State.attach cfg).ctx? r with
  | none => exact .inl ⟨rfl, by simpa [State.ctx?, State.attach, Config.numReq] using hc⟩
  | some c =>
    obtain ⟨buf, hbuf, rfl⟩ := attach_ctx? hc
    exact .inr ⟨_, rfl, hbuf, rfl, rfl, rfl, rfl⟩

theorem attach_disciplined {cfg : Config} (hv : cfg.valid = true) : (State.attach cfg).Disciplined where
  cfgValid := hv
  onlyMoves := fun _ hi => nomatch hi
  contexts := fun r c hc => by
    obtain ⟨buf, -, rfl⟩ := attach_ctx? hc
    simp [Ctx.disciplined, Ctx.fresh, Ctx.opFits]
  lockHolder := fun r d => by
    constructor
    · intro h
      cases d <;> simp [State.attach, PerDir.get] at h
    · rintro ⟨c, hc, hh⟩
      obtain ⟨buf, -, rfl⟩ := attach_ctx? hc
      simp [Ctx.holds, Ctx.fresh] at hh
  consumeReady := fun r c hc hp => by
    obtain ⟨buf, -, rfl⟩ := attach_ctx? hc
    simp [Ctx.fresh] at hp
  countBound := fun d => by cases d <;> exact Nat.zero_le _

/-- Every bank reads 0 at attach [log 3]. -/
theorem attach_stored (cfg : Config) (b : Nat) : (State.attach cfg).stored b = 0 := by
  simp [State.stored, State.attach, Memory.bank, Memory.get, unlistedByte]

/-- Settles O47. -/
theorem attachIsDisciplined : Obligations.AttachIsDisciplined := by
  refine fun cfg hv => ⟨attach_disciplined hv, rfl, fun c hc => absurd hc List.not_mem_nil, fun d hd => ?_⟩
  simp [State.xferEnabled, attach_stored, fieldBit_eq] at hd

end Sys2Proof.Machine
end

section
/-! SUPPORT. Each micro-state's step as an equation: commands at HOST (R96, R240-R259), locks, waits and polls of a transfer
(R193-R205), the steps of RESET, SET_IRQ_MASK and GET_IRQ_STATUS (R241-R256), and the device's own steps (R78, R79). -/

namespace Sys2Proof.Machine

open Sys2Proof

/-! ### Commands -/

/-- A requester that is not ready takes no command. -/
theorem issue_busy {s : State} {r : Nat} {c : Ctx} (hcur : s.cur = .requester r) (hc : s.ctx? r = some c)
    (hready : c.ready = false) (arg : Word) (k : Nat → Ctx → State → Out) : issue arg s k = .next s := by
  simp [issue, hcur, hc, hready]

/-- Settles O13: whatever the words, HOST's move is an issue, which a context not at `IDLE` turns away. -/
theorem busyRequesterTakesNoCommand : Obligations.BusyRequesterTakesNoCommand := by
  intro s r c sel arg hv hc hp
  obtain ⟨k, hk, -⟩ := hostCommand_issues s r sel arg
  have hready : c.ready = false := by simp [Ctx.ready, hp]
  calc step (s.willMove (.host r sel arg))
      = hostCommand r sel arg s := step_willMove hv _
    _ = issue arg (s.present (.requester r)) k := hk
    _ = .next (s.present (.requester r)) :=
        issue_busy (s := s.present (.requester r)) rfl hc hready arg k

/-- Settles O10: each is the issue step with its own operation and first micro-state. -/
theorem hostOperationsStart : Obligations.HostOperationsStart := by
  intro s r c arg h
  simp only [exec, execReset, execSetIrqMask, execGetIrqStatus, execDmaWrite, execDmaRead, issue_takes h]
  exact ⟨trivial, trivial, trivial, trivial, trivial⟩

/-- Settles O11: the offsets of a valid configuration are distinct, so each selects its own region. -/
theorem bufferAndMapAnswerAtOnce : Obligations.BufferAndMapAnswerAtOnce := by
  intro s r c arg h hv
  have hreg : mapRegion s.cfg s.cfg.regMapOffset = some 0 := if_pos rfl
  have hbuf : mapRegion s.cfg s.cfg.bufMapOffset = some 1 := by
    rw [mapRegion, if_neg (Config.valid_offsets hv).symm, if_pos rfl]
  simp only [exec, execGetBufPhys, execMap, issue_takes h, hreg, hbuf, finish]
  refine ⟨trivial, trivial, trivial, fun h1 h2 => ?_⟩
  have hnone : mapRegion s.cfg arg = none := by rw [mapRegion, if_neg h1, if_neg h2]
  simp only [hnone]

/-! ### Locks, waits and polls -/

/-- RELEASE: the holder goes on, another requester is stopped by the fault. -/
theorem release_eq {s : State} {r : Nat} {c : Ctx} (hc : s.ctx? r = some c) (d : Dir) (k : State → Out) :
    release r d s k = if s.lock.get d = some r then k { s with lock := s.lock.set d none }
      else .next { s with ctxs := s.ctxs.set r { c with stopped := true }, fault := some .releaseNotOwner } := by
  rw [release, raise_requester hc]
  rfl

/-- CONSUME: one event is taken, or the requester is stopped by the fault. -/
theorem consume_eq {s : State} {r : Nat} {c : Ctx} (hc : s.ctx? r = some c) (d : Dir) (k : State → Out) :
    consume r d s k = if s.count.get d = 0 then
        .next { s with ctxs := s.ctxs.set r { c with stopped := true }, fault := some .consumeAtZero }
      else k { s with count := s.count.set d (s.count.get d - 1) } := by
  rw [consume, raise_requester hc]
  rfl

/-- Settles O14. -/
theorem transferTakesItsLock : Obligations.TransferTakesItsLock := by
  intro s r c hv hl hp
  have own : step (s.willMove (.own r)) = acquire r c.dir s (goto r c .tWaddr) (.next s) := by
    simp only [step_own hv hl, stepAt, hp, stepTAcq]
  refine ⟨fun hfree => own.trans (if_pos hfree), fun hheld => own.trans (if_neg hheld), ?_⟩
  simp only [step_cancel hv hl, cancelAt, hp, finish]

/-- Settles O17. -/
theorem transferReadsTheMode : Obligations.TransferReadsTheMode := by
  rintro s r c b o hv hl hp rfl rfl
  have own := step_own hv hl
  simp only [stepAt, hp, stepTMode, getBitField_eq hv] at own
  refine ⟨fun hbit => own.trans (if_pos hbit), fun hbit => own.trans (if_neg (by simp [hbit])), fun hstorage => ?_⟩
  rw [State.readValue_storage hstorage, State.irqMode, fieldBit_eq, Config.irqEn_bank hv]

/-- Settles O18. -/
theorem transferWaitHasThreeOutcomes : Obligations.TransferWaitHasThreeOutcomes := by
  intro s r c hv hl hp
  refine ⟨?_, ?_, ?_⟩
  · simp only [step_own hv hl, stepAt, hp, stepTWait, awaitSignal, goto]
  · simp only [step_timeout hv hl, timeoutAt, hp, goto]
  · simp only [step_cancel hv hl, cancelAt, hp, goto]

/-- Settles O19. -/
theorem transferConsumesOneEvent : Obligations.TransferConsumesOneEvent := by
  intro s r c hv hl hp
  have own := step_own hv hl
  simp only [stepAt, hp, stepTConsume] at own
  rw [consume_eq hl.1] at own
  refine ⟨fun n hn => own.trans ?_, fun h0 => own.trans (if_pos h0)⟩
  rw [if_neg (by omega), hn]
  rfl

/-- Settles O20. -/
theorem transferPollsOnce : Obligations.TransferPollsOnce := by
  rintro s r c b o hv hl hp rfl rfl
  refine ⟨?_, ?_, ?_⟩
  · simp only [step_own hv hl, stepAt, hp, stepTPoll, getBitField_eq hv, State.afterRead_cfg, goto]
    split
    · rfl
    · split <;> rfl
  · simp only [step_cancel hv hl, cancelAt, hp]
  · simp only [step_timeout hv hl, timeoutAt, hp]

/-- Settles O23: both exits are the same release, with their own result. -/
theorem transferReleasesAndReturns : Obligations.TransferReleasesAndReturns := by
  intro s r c res hv hl hexit
  have own : step (s.willMove (.own r)) =
      release r c.dir s fun t => .next (t.setCtx r { c with op := .none, pc := .idle, res := res }) := by
    rcases hexit with ⟨hp, rfl⟩ | ⟨hp, rfl⟩ <;> simp only [step_own hv hl, stepAt, hp] <;> rfl
  rw [release_eq hl.1] at own
  exact ⟨fun h => own.trans (if_pos h), fun h => own.trans (if_neg h)⟩

/-! ### RESET and SET_IRQ_MASK -/

/-- Settles O24: both operations take and release the two locks by the same steps. -/
theorem globalTakesBothLocksInOrder : Obligations.GlobalTakesBothLocksInOrder := by
  intro s r c p1 p2 pc1 p3 hv hl hcase
  refine ⟨fun hp => ⟨?_, ?_⟩, fun hp => ⟨?_, ?_⟩, fun hp => ?_⟩
  · have own : step (s.willMove (.own r)) = acquire r .mm2s s (goto r c p2) (.next s) := by
      rcases hcase with ⟨rfl, rfl, rfl, rfl⟩ | ⟨rfl, rfl, rfl, rfl⟩ <;> simp only [step_own hv hl, stepAt, hp] <;> rfl
    exact own
  · rcases hcase with ⟨rfl, rfl, rfl, rfl⟩ | ⟨rfl, rfl, rfl, rfl⟩ <;> simp only [step_cancel hv hl, cancelAt, hp] <;> rfl
  · have own : step (s.willMove (.own r)) = acquire r .s2mm s (goto r c p3) (.next s) := by
      rcases hcase with ⟨rfl, rfl, rfl, rfl⟩ | ⟨rfl, rfl, rfl, rfl⟩ <;> simp only [step_own hv hl, stepAt, hp] <;> rfl
    exact own
  · rcases hcase with ⟨rfl, rfl, rfl, rfl⟩ | ⟨rfl, rfl, rfl, rfl⟩ <;> simp only [step_cancel hv hl, cancelAt, hp] <;> rfl
  · have own : step (s.willMove (.own r)) = release r .mm2s s (finish r c .interrupted) := by
      rcases hcase with ⟨rfl, rfl, rfl, rfl⟩ | ⟨rfl, rfl, rfl, rfl⟩ <;> simp only [step_own hv hl, stepAt, hp] <;> rfl
    rw [release_eq hl.1] at own
    exact own

/-- Settles O25. -/
theorem resetPulsesTheResetBit : Obligations.ResetPulsesTheResetBit := by
  rintro s r c b o hv hl rfl rfl
  have own := step_own hv hl
  refine ⟨fun hp => ?_, fun hp => ?_, fun hp => ?_, fun hp => ?_⟩ <;> simp only [stepAt, hp] at own
  · exact own.trans (latchStep_eq hv _ _ _ _)
  · exact own.trans (writeBitSet_eq hv _ _ _)
  · exact own.trans (latchStep_eq hv _ _ _ _)
  · exact own.trans (writeBitClear_eq hv _ _ _)

theorem fullWidth_iff {d : FDesc} : fullWidth d = true ↔ d.width = 32 := by simp [fullWidth]

/-- A word written whole over a full-width field replaces exactly the field's bits, which are all. -/
theorem getLsbD_full {d : FDesc} (hw : d.width = 32) (ho : d.offset = 0) (tmp v : Word) {j : Nat} (hj : j < 32) :
    v.getLsbD j = if d.offset ≤ j ∧ j < d.offset + d.width then v.getLsbD (j - d.offset) else tmp.getLsbD j := by
  rw [if_pos (by omega), ho, Nat.sub_zero]

/-- Settles O26: a full-width field is written whole, a narrow one merged into the latched word. -/
theorem resetWritesBusAttributes : Obligations.ResetWritesBusAttributes := by
  rintro s r c k d val after hv hl rfl rfl hafter
  have own := step_own hv hl
  have hnext : afterBusAttr k = after := by
    rcases hafter with ⟨rfl, rfl⟩ | ⟨rfl, rfl⟩ | ⟨rfl, rfl⟩ | ⟨rfl, rfl⟩ <;> rfl
  refine ⟨fun hp hw => ?_, fun hp hw => ?_, fun hp => ?_⟩ <;> simp only [stepAt, hp] at own
  · rw [stepGBaR, if_neg (by simpa [fullWidth_iff] using hw), latchStep_eq hv] at own
    exact own
  · rw [stepGBaR, if_pos (fullWidth_iff.2 hw)] at own
    exact own
  · simp only [stepGBaW, hnext] at own
    by_cases hw : (s.cfg.field (.busAttr k)).width = 32
    · rw [if_pos (fullWidth_iff.2 hw), writeFull_eq hv] at own
      exact ⟨_, _, own, rfl, fun j hj => getLsbD_full hw ((Config.valid_fits hv _).2.2.2.2 hw) _ _ hj,
        fun a ha => State.byte_afterWrite_outside _ ha⟩
    · rw [if_neg (by simpa [fullWidth_iff] using hw), writeMerged_eq hv] at own
      exact ⟨_, _, own, rfl, fun j hj => getLsbD_mergeField _ _ _ hj, fun a ha => State.byte_afterWrite_outside _ ha⟩

/-- Settles O27. -/
theorem maskWrittenThenLocksReleased : Obligations.MaskWrittenThenLocksReleased := by
  rintro s r c b hv hl rfl
  have own := step_own hv hl
  refine ⟨fun hp => ?_, fun p hp => ?_, fun hp => ?_⟩
  · simp only [stepAt, hp, stepMWr, writeFull_eq hv] at own
    exact ⟨_, own, rfl, State.stored_afterWrite_same _, fun a ha => State.byte_afterWrite_outside _ ha⟩
  · have hrel : stepAt r c s = release r .s2mm s (goto r c p) := by
      rcases hp with ⟨hp, rfl⟩ | ⟨hp, rfl⟩ <;> simp only [stepAt, hp] <;> rfl
    rw [hrel, release_eq hl.1] at own
    exact own
  · have hrel : stepAt r c s = release r .mm2s s (finish r c .success) := by
      rcases hp with hp | hp <;> simp only [stepAt, hp] <;> rfl
    rw [hrel, release_eq hl.1] at own
    exact own

/-- Settles O28: the field is the whole word, so its value is the bank's. -/
theorem statusReadReturnsTheBank : Obligations.StatusReadReturnsTheBank := by
  rintro s r c b hv hl hp rfl
  refine ⟨?_, ?_⟩
  · simp only [step_own hv hl, stepAt, hp, stepSRd, readField_eq hv, fieldValue_full _ (Config.width_irqStatus hv), finish]
  · simp only [step_cancel hv hl, cancelAt, hp]

/-! ### The device -/

theorem State.irqMode_eq (s : State) (d : Dir) : s.irqMode d =
    (s.stored (s.cfg.field .irqEnable).bank).getLsbD (s.cfg.field (.irqEn d)).offset := fieldBit_eq _ _

/-- COMPLETE(d) as one update: an event is added exactly in interrupt mode. -/
theorem State.completed_eq (s : State) (d : Dir) : s.completed d = { s with
    busy := s.busy.set d false
    fifo := s.fifo.set d (s.fifo.get d ++ [Config.freeWord s.draws])
    draws := s.draws + 1
    irqPending := if s.irqMode d then s.irqPending + 1 else s.irqPending } := by
  unfold State.completed
  cases s.irqMode d <;> rfl

theorem State.refDeviceMoves_iff {s : State} : s.refDeviceMoves = true ↔ s.cfg.dev = .reference ∧ s.devStopped = false := by
  simp [State.refDeviceMoves]

/-- The reference device completes a busy transfer, unless a model fault has stopped it. -/
theorem stepComplete_eq {d : Dir} {s : State} (hm : s.refDeviceMoves = true) (hb : s.busy.get d = true) :
    stepComplete d s = .next (s.completed d) := by simp [stepComplete, hm, hb]

/-- Settles O44. -/
theorem deviceStepsByItself : Obligations.DeviceStepsByItself := by
  rintro s d b o n hv rfl rfl
  simp only [step_willMove hv, ← State.irqMode_eq]
  refine ⟨fun hdev hstop => ?_, fun id hdev hstop => ?_, fun hstop e he => ?_⟩
  · have hm := State.refDeviceMoves_iff.2 ⟨hdev, hstop⟩
    refine ⟨fun hb => ?_, fun hb => by simp [runEvent, stepComplete, hb], by simp [runEvent, stepSpurious, hm, State.raiseIrq],
      by simp [runEvent, stepDevice, hdev]⟩
    exact (stepComplete_eq hm hb).trans (congrArg Host.Outcome.next (s.completed_eq d))
  · have hm : s.refDeviceMoves = false := by simp [State.refDeviceMoves, hdev]
    exact ⟨by simp [runEvent, stepDevice, hdev, hstop], by simp [runEvent, stepComplete, hm],
      by simp [runEvent, stepSpurious, hm]⟩
  · have hm : s.refDeviceMoves = false := by simp [State.refDeviceMoves, hstop]
    rcases he with rfl | rfl | rfl
    · simp [runEvent, stepComplete, hm]
    · simp [runEvent, stepSpurious, hm]
    · cases hdev : s.cfg.dev <;> simp [runEvent, stepDevice, hdev, hstop]

/-! ### IRQ and DISPATCH -/

/-- Settles O38. -/
theorem irqAndDispatch : Obligations.IrqAndDispatch := by
  intro s
  refine ⟨fun h => by simp [exec, execIrq, h, State.raiseIrq], fun h => by simp [exec, execIrq, h],
    fun n hs hp hn => by simp [exec, execDispatch, hs, hp, hn], fun h => ?_⟩
  have hno : ¬(s.dispStopped = false ∧ s.dispPc = .dIdle ∧ 0 < s.irqPending) := by
    rintro ⟨-, hp, hn⟩
    rcases h with h | h
    · exact h hp
    · omega
  exact if_neg hno

end Sys2Proof.Machine
end

section
/-! SUPPORT. Micro-operations taken by hand at `IDLE` (R122-R128, R142-R157) [log 12], and recorded ones replayed (R99, R105)
[log 13]. -/

namespace Sys2Proof.Machine

open Sys2Proof

/-! ### Reading a field -/

/-- A read of a quiet bank only extends the log of accesses. -/
theorem State.afterRead_quiet {s : State} {b : Nat} (h : quietBank s.cfg b = true) :
    s.afterRead b = { s with portLog := .read b (s.readValue b) :: s.portLog } := by
  rw [State.afterRead, State.readEffect_quiet h]

theorem execRead_takes {s : State} {r : Nat} {c : Ctx} (hv : s.cfg.valid = true) (h : s.takes r c) (f : FieldId) :
    exec (.read f) s = .next ((s.afterRead (s.cfg.field f).bank).setCtx r
      { c with dest := fieldValue (s.cfg.field f) (s.readValue (s.cfg.field f).bank) }) := by
  simp only [exec, execRead]
  rw [runMicroOp_takes h, readField_eq hv]

/-- Settles O29. -/
theorem readAnswersTheField : Obligations.ReadAnswersTheField := by
  rintro s r c f d hv h rfl
  refine ⟨_, _, execRead_takes hv h f, rfl, fun hw => fieldValue_full _ hw, fun j hw => getLsbD_fieldValue _ hw j,
    fun a => by rw [State.setCtx_dregs, State.afterRead_dregs], fun hq => ?_⟩
  rw [State.afterRead_quiet hq]
  rfl

/-! ### Writing a field -/

/-- Where a write meets no reset effect, it leaves the status FIFOs. -/
theorem State.fifo_afterWrite_spared {s : State} {b : Nat} (v : Word) (h : resetSpares s.cfg b = true ∨ s.pulsesReset b v = false) :
    (s.afterWrite b v).fifo = s.fifo := by
  rw [State.afterWrite_fifo]
  cases hdev : s.cfg.dev with
  | reference =>
    rw [State.writeEffect_spared v hdev h]
    split <;> rfl
  | other id => simp only [State.writeEffect, hdev]

theorem execWrite_full {s : State} {r : Nat} {c : Ctx} (hv : s.cfg.valid = true) (h : s.takes r c) {f : FieldId}
    (hw : (s.cfg.field f).width = 32) (v : Word) :
    exec (.write f v) s = .next (s.afterWrite (s.cfg.field f).bank v) := by
  simp only [exec, execWrite]
  rw [runMicroOp_takes h, if_pos (fullWidth_iff.2 hw), writeFull_eq hv]

/-- Settles O30. -/
theorem writeFullFieldStoresTheWord : Obligations.WriteFullFieldStoresTheWord := by
  rintro s r c f v b hv h hw rfl
  exact ⟨_, execWrite_full hv h hw v, rfl, rfl, State.afterWrite_ctxs _ _ _,
    fun hr => State.fifo_afterWrite_spared v (.inl hr), State.stored_afterWrite_same v,
    fun a ha => State.byte_afterWrite_outside v ha⟩

/-- The machine in which requester r, with context c, has latched the bank of f for micro-operation i. -/
def latched (s : State) (r : Nat) (c : Ctx) (f : FieldId) (i : Instr) : State :=
  (s.afterRead (s.cfg.field f).bank).setCtx r { c with tmp := s.readValue (s.cfg.field f).bank, uop := some i }

theorem beginPartial_eq {s : State} (hv : s.cfg.valid = true) (i : Instr) (f : FieldId) (r : Nat) (c : Ctx) :
    beginPartial i f r c s = .next (latched s r c f i) := by
  simp only [beginPartial, latchBank, regRead_field hv, latched]

theorem latched_cfg (s : State) (r : Nat) (c : Ctx) (f : FieldId) (i : Instr) : (latched s r c f i).cfg = s.cfg := by
  simp [latched]

theorem latched_dregs (s : State) (r : Nat) (c : Ctx) (f : FieldId) (i : Instr) : (latched s r c f i).dregs = s.dregs := by
  simp [latched]

/-- The next own step of a requester that has latched the bank for a WRITE merges the value into it (R123). -/
theorem step_latched {s : State} {r : Nat} {c : Ctx} (hv : s.cfg.valid = true) (h : s.takes r c) (f : FieldId) (v : Word) :
    step ((latched s r c f (.write f v)).willMove (.own r)) =
      .next (((latched s r c f (.write f v)).afterWrite (s.cfg.field f).bank
        (mergeField (s.cfg.field f) (s.readValue (s.cfg.field f).bank) v)).setCtx r
          { c with tmp := s.readValue (s.cfg.field f).bank }) := by
  obtain ⟨-, hc, hready⟩ := h
  obtain ⟨hp, hu, hs⟩ := Ctx.ready_iff.1 hready
  have hcfg := latched_cfg s r c f (.write f v)
  have hlive : (latched s r c f (.write f v)).live r
      { c with tmp := s.readValue (s.cfg.field f).bank, uop := some (.write f v) } :=
    State.live_setCtx (by simpa [State.ctx?] using hc) hs
  rw [step_own (by rw [hcfg]; exact hv) hlive]
  simp only [stepAt, hp, stepIdle, resumeUop]
  rw [writeMerged_eq (by rw [hcfg]; exact hv), hcfg, ← hu, ← hp]

/-- What the write back of a latched field leaves alone. -/
theorem byte_latched_outside {s : State} {r : Nat} {c : Ctx} {f : FieldId} {i : Instr} {w : Word} {a : Nat}
    (ha : outsideWrite s.cfg (s.cfg.field f).bank a) :
    ((latched s r c f i).afterWrite (s.cfg.field f).bank w).dregs.get a = s.dregs.get a := by
  rw [State.byte_afterWrite_outside w (by rw [latched_cfg]; exact ha), latched_dregs]

theorem execWrite_narrow {s : State} {r : Nat} {c : Ctx} (hv : s.cfg.valid = true) (h : s.takes r c) {f : FieldId}
    (hw : (s.cfg.field f).width < 32) (v : Word) : exec (.write f v) s = .next (latched s r c f (.write f v)) := by
  simp only [exec, execWrite]
  rw [runMicroOp_takes h, if_neg (by rw [fullWidth_iff]; omega), beginPartial_eq hv]

/-- Settles O31. -/
theorem writePartialFieldIsTwoSteps : Obligations.WritePartialFieldIsTwoSteps := by
  rintro s r c f v d hv h rfl hw
  exact ⟨_, _, execWrite_narrow hv h hw v, rfl, fun a => by rw [latched_dregs], step_latched hv h f v,
    fun j hj => getLsbD_mergeField _ _ _ hj, fun a ha => byte_latched_outside ha⟩

/-- Settles O32: SET_BIT and CLEAR_BIT stand as the WRITE of 1 and of 0, whose merge sets and clears the bit. -/
theorem bitOperationsOnOneBitFields : Obligations.BitOperationsOnOneBitFields := by
  rintro s r c f b o hv h hw rfl rfl
  refine ⟨⟨_, ?_, fun a => ?_, rfl⟩, fun i v w hi => ?_⟩
  · simp only [exec, execGetBit, hw, if_true]
    rw [runMicroOp_takes h, getBitField_eq hv]
    rfl
  · rw [State.setCtx_dregs, State.afterRead_dregs]
  · have hexec : exec i s = .next (latched s r c f (.write f v)) := by
      rcases hi with ⟨rfl, rfl, -⟩ | ⟨rfl, rfl, -⟩
      · simp only [exec, execSetBit, hw, if_true]
        rw [runMicroOp_takes h, beginPartial_eq hv]
      · simp only [exec, execClearBit, hw, if_true]
        rw [runMicroOp_takes h, beginPartial_eq hv]
    have hmerge : mergeField (s.cfg.field f) (s.readValue (s.cfg.field f).bank) v = w := by
      rcases hi with ⟨-, rfl, rfl⟩ | ⟨-, rfl, rfl⟩
      · exact mergeField_one hw _
      · exact mergeField_zero hw _
    exact ⟨_, hexec, rfl, fun a => by rw [latched_dregs], hmerge ▸ step_latched hv h f v, fun a ha => byte_latched_outside ha⟩

/-- Settles O33. -/
theorem bitOperationsOnWideFieldsRefused : Obligations.BitOperationsOnWideFieldsRefused := by
  rintro s f i hw (rfl | rfl | rfl)
  · exact if_neg hw
  · exact if_neg hw
  · exact if_neg hw

/-- READ after the word w was stored in the bank answers the field's bits of w. -/
theorem read_stored {u : State} {r : Nat} {c : Ctx} {f : FieldId} (hv : u.cfg.valid = true) (h : u.takes r c)
    (hst : storageBank u.cfg (u.cfg.field f).bank = true) : ∃ t, exec (.read f) u = .next t ∧ ∀ e, t.ctx? r = some e →
      e.dest = fieldValue (u.cfg.field f) (u.stored (u.cfg.field f).bank) := by
  refine ⟨_, execRead_takes hv h f, fun e he => ?_⟩
  rw [State.ctx?_setCtx_same (c₀ := c) _ (by simpa [State.ctx?] using h.2.1)] at he
  rw [← Option.some.inj he, ← State.readValue_storage hst]

/-- The machine after that requester has written the field back. -/
def writtenBack (s : State) (r : Nat) (c : Ctx) (f : FieldId) (v : Word) : State :=
  ((latched s r c f (.write f v)).afterWrite (s.cfg.field f).bank
    (mergeField (s.cfg.field f) (s.readValue (s.cfg.field f).bank) v)).setCtx r
      { c with tmp := s.readValue (s.cfg.field f).bank }

theorem writtenBack_cfg (s : State) (r : Nat) (c : Ctx) (f : FieldId) (v : Word) : (writtenBack s r c f v).cfg = s.cfg := by
  simp [writtenBack, latched]

/-- It is ready again. -/
theorem writtenBack_takes {s : State} {r : Nat} {c : Ctx} (h : s.takes r c) (f : FieldId) (v : Word) :
    (writtenBack s r c f v).takes r { c with tmp := s.readValue (s.cfg.field f).bank } := by
  obtain ⟨hcur, hc, hready⟩ := h
  refine ⟨by simpa [writtenBack, latched] using hcur, ?_, hready⟩
  have hlt := State.ctx?_lt hc
  simp [writtenBack, latched, State.ctx?, hlt]

/-- In a plain bank it has merged the value into the word that was stored. -/
theorem writtenBack_stored {s : State} {f : FieldId} (hplain : plainBank s.cfg (s.cfg.field f).bank = true) (r : Nat)
    (c : Ctx) (v : Word) : (writtenBack s r c f v).stored (s.cfg.field f).bank =
      mergeField (s.cfg.field f) (s.stored (s.cfg.field f).bank) v := by
  rw [writtenBack, State.stored_setCtx, State.stored_afterWrite_same _ (by rw [latched_cfg]; exact hplain),
    State.readValue_storage (plainBank_iff.1 hplain).1]

/-- The field's bits of a merged word are the value's. -/
theorem getLsbD_fieldValue_mergeField {d : FDesc} (hw : d.width < 32) (hsum : d.offset + d.width ≤ 32) (tmp v : Word)
    (j : Nat) : (fieldValue d (mergeField d tmp v)).getLsbD j = (decide (j < d.width) && v.getLsbD j) := by
  rw [getLsbD_fieldValue _ hw]
  by_cases hj : j < d.width
  · rw [getLsbD_mergeField d tmp v (by omega), if_pos (by omega), Nat.add_sub_cancel_left]
  · simp [hj]

/-- Settles O34: the bank holds the word written whole, or the merged one; READ gives the field's bits of either. -/
theorem writeThenReadRoundTrip : Obligations.WriteThenReadRoundTrip := by
  rintro s r c f v d hv h rfl hplain
  have hst := (plainBank_iff.1 hplain).1
  obtain ⟨-, hle, hsum, -, hfull⟩ := Config.valid_fits hv f
  by_cases hw : (s.cfg.field f).width = 32
  · have hcfg : (s.afterWrite (s.cfg.field f).bank v).cfg = s.cfg := State.afterWrite_cfg _ _ _
    have htakes : (s.afterWrite (s.cfg.field f).bank v).takes r c := by simpa [State.takes, State.ctx?] using h
    obtain ⟨t, ht, hdest⟩ := read_stored (f := f) (by rw [hcfg]; exact hv) htakes (by rw [hcfg]; exact hst)
    refine ⟨_, _, c, execWrite_full hv h hw v, .inl ⟨hw, rfl⟩, htakes, fun j hj hout => ?_, t, ht, fun e he j => ?_⟩
    · exact absurd ⟨by have := hfull hw; omega, by omega⟩ hout
    · rw [hdest e he, hcfg, fieldValue_full _ hw, State.stored_afterWrite_same v hplain, hw]
      by_cases hj : j < 32
      · simp [hj]
      · simp [BitVec.getLsbD_of_ge v j (by omega)]
  · have hw' : (s.cfg.field f).width < 32 := by omega
    have hcfg := writtenBack_cfg s r c f v
    obtain ⟨t, ht, hdest⟩ := read_stored (f := f) (by rw [hcfg]; exact hv) (writtenBack_takes h f v)
      (by rw [hcfg]; exact hst)
    refine ⟨_, _, _, execWrite_narrow hv h hw' v, .inr ⟨hw', step_latched hv h f v⟩, writtenBack_takes h f v,
      fun j hj hout => ?_, t, ht, fun e he j => ?_⟩
    · rw [show (((latched s r c f (.write f v)).afterWrite _ _).setCtx r _).stored _ = _ from writtenBack_stored hplain r c v,
        getLsbD_mergeField _ _ _ hj, if_neg hout]
    · rw [hdest e he, hcfg, writtenBack_stored hplain, getLsbD_fieldValue_mergeField hw' hsum]

/-! ### Locks, counts and waits -/

/-- Settles O35. -/
theorem lockMicroOperations : Obligations.LockMicroOperations := by
  intro s r c d h
  have ⟨_, hc, hready⟩ := h
  obtain ⟨hp, hu, hs⟩ := Ctx.ready_iff.1 hready
  simp only [exec, execAcquire, execRelease]
  rw [runMicroOp_takes h, runMicroOp_takes h, release_eq hc]
  refine ⟨fun hfree => if_pos hfree, fun hheld => if_neg hheld, ?_, fun hmine => if_pos hmine, fun hother => if_neg hother⟩
  rintro u hv rfl
  rw [step_own (s := s.setCtx r _) hv (State.live_setCtx (e := { c with uop := some (.acquire d) }) hc hs)]
  simp only [stepAt, hp, stepIdle, resumeUop, acquire, State.setCtx_lock]
  split
  · exact congrArg Host.Outcome.next (by simp [State.setCtx])
  · rfl

/-- A NOTIFY presented to a ready requester runs for it. -/
theorem execNotify_takes {s : State} {r : Nat} {c : Ctx} (h : s.takes r c) (d : Dir) :
    exec (.notify d) s = notify (.requester r) d s .next := by
  obtain ⟨hcur, hc, hready⟩ := h
  simp [exec, execNotify, hcur, hc, (Ctx.ready_iff.1 hready).2.2]

/-- Settles O36. -/
theorem countMicroOperations : Obligations.CountMicroOperations := by
  rintro s r c d n h rfl
  have ⟨_, hc, hready⟩ := h
  rw [execNotify_takes h]
  simp only [exec, execConsume]
  rw [runMicroOp_takes h, consume_eq hc, notify, raise_requester hc]
  exact ⟨fun hne => if_neg hne, fun heq => if_pos heq, fun hpos => if_neg (by omega), fun h0 => if_pos h0⟩

/-- Settles O37. -/
theorem waitMicroOperation : Obligations.WaitMicroOperation := by
  rintro s u r c d h hv rfl
  have ⟨_, hc, hready⟩ := h
  obtain ⟨hp, hu, hs⟩ := Ctx.ready_iff.1 hready
  have hlive := State.live_setCtx (e := { c with uop := some (.wait d) }) hc hs
  simp only [exec, execWait]
  rw [runMicroOp_takes h, step_own (s := s.setCtx r _) hv hlive, step_timeout (s := s.setCtx r _) hv hlive,
    step_cancel (s := s.setCtx r _) hv hlive]
  refine ⟨fun hpos => if_pos hpos, fun h0 => if_neg (by omega), ?_, ?_, ?_⟩
  · simp only [stepAt, hp, stepIdle, resumeUop, awaitSignal, State.setCtx_count, State.setCtx_setCtx]
  · simp only [timeoutAt, hp, State.setCtx_count, State.setCtx_setCtx]
  · simp only [cancelAt, hp, State.setCtx_setCtx]

/-! ### Recorded micro-operations -/

/-- A busy requester takes its own step for the micro-operation its micro-state issues. -/
theorem runMicroOp_issued {s : State} {r : Nat} {c : Ctx} {i : Instr} (hcur : s.cur = .requester r) (hl : s.live r c)
    (hat : microOpAt s.cfg c = some i) (k : Nat → Ctx → State → Out) : runMicroOp i k s = ownStep r s := by
  obtain ⟨hc, hs⟩ := hl
  have hp : c.pc ≠ .idle := fun hp => by simp [microOpAt, hp] at hat
  simp [runMicroOp, hcur, hc, Ctx.ready, hp, hs, issues, hat]

theorem runMicroOp_dispatcher {s : State} {i : Instr} (hcur : s.cur = .dispatcher) (hat : dispMicroOp s.dispPc = some i)
    (k : Nat → Ctx → State → Out) : runMicroOp i k s = dispStep s := by
  simp [runMicroOp, hcur, hat, issues]

/-- Two spellings that do the same by hand do the same for every agent. -/
theorem runMicroOp_congr {s : State} {i j : Instr} {k k' : Nat → Ctx → State → Out} (hij : asWrite j = asWrite i)
    (hk : ∀ r c, k' r c s = k r c s) : runMicroOp j k' s = runMicroOp i k s := by
  simp only [runMicroOp, issues, hij, hk] <;> rfl

/-- What a micro-state issues: a bit operation only on a field of width 1, and no step of the dispatcher or the device. -/
theorem microOpAt_cases {cfg : Config} {c : Ctx} {i : Instr} (hv : cfg.valid = true) (h : microOpAt cfg c = some i) :
    i.format = .uop ∧ i.wellFormed cfg = true ∧ i ≠ .dispatch ∧ i ≠ .irq ∧ ∀ d, i ≠ .notify d := by
  unfold microOpAt at h
  split at h <;> try cases h
  all_goals simp [Instr.format, Instr.wellFormed, Config.width_xferEn hv, Config.width_irqEn hv,
    Config.width_stsFifoEmpty hv, Config.width_globalReset hv]

/-- A well-formed micro-operation of a requester is run by `runMicroOp`. -/
theorem exec_of_runMicroOp {s : State} {i : Instr} {o : Out} (hf : i.format = .uop) (hw : i.wellFormed s.cfg = true)
    (h1 : i ≠ .dispatch) (h2 : i ≠ .irq) (h3 : ∀ d, i ≠ .notify d) (h : ∀ k, runMicroOp i k s = o) : exec i s = o := by
  cases i with
  | reset _ | setIrqMask _ | getIrqStatus _ | getBufPhys _ | dmaWrite _ | dmaRead _ | map _ => simp [Instr.format] at hf
  | read f => simp only [exec, execRead, h]
  | write f v => simp only [exec, execWrite, h]
  | acquire d => simp only [exec, execAcquire, h]
  | release d => simp only [exec, execRelease, h]
  | wait d => simp only [exec, execWait, h]
  | consume d => simp only [exec, execConsume, h]
  | getBit f => simp only [exec, execGetBit, if_pos (of_decide_eq_true hw), h]
  | setBit f => simp only [exec, execSetBit, if_pos (of_decide_eq_true hw), h]
  | clearBit f => simp only [exec, execClearBit, if_pos (of_decide_eq_true hw), h]
  | dispatch => exact absurd rfl h1
  | irq => exact absurd rfl h2
  | notify d => exact absurd rfl (h3 d)

/-- The two spellings of a bit write do the same in every state (R105). -/
theorem exec_bitWrite {s : State} {f : FieldId} (hw : (s.cfg.field f).width = 1) :
    exec (.write f 1) s = exec (.setBit f) s ∧ exec (.write f 0) s = exec (.clearBit f) s := by
  have hnarrow : fullWidth (s.cfg.field f) = false := by simp [fullWidth, hw]
  simp only [exec, execWrite, execSetBit, execClearBit, hw, if_true]
  exact ⟨runMicroOp_congr rfl fun r c => by simp [hnarrow], runMicroOp_congr rfl fun r c => by simp [hnarrow]⟩

theorem exec_dispatcher {s : State} {i : Instr} (hv : s.cfg.valid = true) (hcur : s.cur = .dispatcher)
    (hs : s.dispStopped = false) (hat : dispMicroOp s.dispPc = some i) : exec i s = dispStep s := by
  cases hp : s.dispPc <;> simp only [hp, dispMicroOp, Option.some.injEq, reduceCtorEq] at hat
  case dIdle =>
    subst hat
    simp [exec, dispStep, hs, hp]
  case dChkS | dChkM =>
    subst hat
    simp only [exec, execGetBit, Config.width_stsFifoEmpty hv, if_true]
    exact runMicroOp_dispatcher hcur (by simp [hp, dispMicroOp]) _
  case dNotifyS | dNotifyM =>
    subst hat
    simp [exec, execNotify, hcur, hs, hp, dispMicroOp]

/-- Settles O45. -/
theorem replayedMicroOpIsTheAgentsStep : Obligations.ReplayedMicroOpIsTheAgentsStep := by
  intro s i j hv hij
  have spelled : i.wellFormed s.cfg = true → exec j s = exec i s := by
    rcases hij with rfl | ⟨f, rfl, rfl⟩ | ⟨f, rfl, rfl⟩
    · exact fun _ => rfl
    · exact fun hw => (exec_bitWrite (of_decide_eq_true hw)).1
    · exact fun hw => (exec_bitWrite (of_decide_eq_true hw)).2
  refine ⟨fun r c hcur hl _ hat => ?_, fun hcur hs hat => ?_, spelled⟩
  · obtain ⟨hf, hw, h1, h2, h3⟩ := microOpAt_cases hv hat
    exact (spelled hw).trans (exec_of_runMicroOp hf hw h1 h2 h3 (runMicroOp_issued hcur hl hat))
  · have hi : j = i := by
      rcases hij with rfl | ⟨f, rfl, -⟩ | ⟨f, rfl, -⟩
      · rfl
      · cases hp : s.dispPc <;> simp [hp, dispMicroOp] at hat
      · cases hp : s.dispPc <;> simp [hp, dispMicroOp] at hat
    rw [hi]
    exact exec_dispatcher hv hcur hs hat

end Sys2Proof.Machine
end

section
/-! SUPPORT. The device behind the REG port: what a read answers and does, what a write does (R64-R77); and the dispatcher's
steps in any layout (R172-R183). -/

namespace Sys2Proof.Machine

open Sys2Proof

/-! ### Reads -/

/-- The word with the empty flag put in differs only in the flag's bit. -/
theorem getLsbD_mergeField_bit {d : FDesc} (hw : d.width = 1) (w v : Word) {j : Nat} (hj : j < 32) :
    (mergeField d w v).getLsbD j = if j = d.offset then v.getLsbD 0 else w.getLsbD j := by
  rw [getLsbD_mergeField _ _ _ hj, hw]
  by_cases h : j = d.offset
  · simp [h]
  · rw [if_neg (by omega), if_neg h]

theorem getLsbD_boolWord (b : Bool) : (boolWord b).getLsbD 0 = b := by cases b <;> decide

/-- A bank with the empty flag of one direction answers that flag, and the other bits as stored (R73). -/
theorem getLsbD_readValue_flag {s : State} {d : Dir} (hv : s.cfg.valid = true)
    (hq : quietBank s.cfg (s.cfg.field (.stsFifoEmpty d)).bank = true)
    (ho : (s.cfg.field (.stsFifoEmpty d.other)).bank ≠ (s.cfg.field (.stsFifoEmpty d)).bank) {j : Nat} (hj : j < 32) :
    (s.readValue (s.cfg.field (.stsFifoEmpty d)).bank).getLsbD j =
      if j = (s.cfg.field (.stsFifoEmpty d)).offset then (s.fifo.get d).isEmpty
      else (s.stored (s.cfg.field (.stsFifoEmpty d)).bank).getLsbD j := by
  obtain ⟨hdev, hfifo, hirq⟩ := quietBank_iff.1 hq
  have hvalue : s.readValue (s.cfg.field (.stsFifoEmpty d)).bank = mergeField (s.cfg.field (.stsFifoEmpty d))
      (s.stored (s.cfg.field (.stsFifoEmpty d)).bank) (boolWord (s.fifoEmpty d)) := by
    have hirq' : (s.cfg.field .irqStatus).bank ≠ (s.cfg.field (.stsFifoEmpty d)).bank := by simpa [holdsField] using hirq
    cases d <;> simp only [Dir.other] at ho <;>
      simp [State.readValue, hdev, State.refReadValue, hfifo, hirq', State.withEmptyFlag, holdsField, ho]
  rw [hvalue, getLsbD_mergeField_bit (Config.width_stsFifoEmpty hv d) _ _ hj, getLsbD_boolWord]
  rfl

/-- Settles O42. -/
theorem deviceAnswersReads : Obligations.DeviceAnswersReads := by
  intro s hv
  refine ⟨fun b h => ⟨State.readValue_storage h, State.readEffect_quiet (quietBank_of_storage h)⟩, ?_, ?_, ?_, ?_⟩
  · rintro d b rfl hq ho
    exact ⟨State.readEffect_quiet hq, fun j hj => getLsbD_readValue_flag hv hq ho hj⟩
  · rintro hdev d b rfl ho
    have hat := fifoAt_own ho
    refine ⟨fun e es hf => ?_, fun hf => ?_⟩ <;>
      simp [State.readValue, State.readEffect, hdev, State.refReadValue, State.refReadEffect, hat, hf, State.nextDraw,
        State.drawn]
  · rintro hdev b rfl hat
    simp [State.readValue, State.readEffect, hdev, State.refReadValue, State.refReadEffect, hat, holdsField, State.nextDraw,
      State.drawn]
  · intro id b hdev
    simp [State.readValue, State.readEffect, hdev]

/-! ### Writes -/

/-- A write to a bank the device keeps to itself changes nothing (R74, R75). -/
theorem State.writeEffect_owned {s : State} {b : Nat} (v : Word) (hdev : s.cfg.dev = .reference)
    (h : quietBank s.cfg b = false) : s.writeEffect b v = s := by
  have howned : ((fifoAt s.cfg b).isSome || holdsField s.cfg b .irqStatus) = true := by
    cases hf : fifoAt s.cfg b <;> cases hi : holdsField s.cfg b .irqStatus <;>
      simp [quietBank, refDev, hdev, hf, hi] at h ⊢
  simp only [State.writeEffect, hdev, State.refWriteEffect, howned, if_true]

/-- A write to a quiet bank stores, where no reset follows. -/
theorem State.writeEffect_quiet {s : State} {b : Nat} {v : Word} (hq : quietBank s.cfg b = true)
    (hp : s.pulsesReset b v = false) : s.writeEffect b v = s.store b v := by
  obtain ⟨hdev, hfifo, hirq⟩ := quietBank_iff.1 hq
  rw [State.writeEffect_spared v hdev (.inr hp)]
  simp [hfifo, hirq]

/-- Where a reset follows, it acts on the state with the word stored (R66). -/
theorem State.writeEffect_reset {s : State} {b : Nat} {v : Word} (hq : quietBank s.cfg b = true)
    (hp : s.pulsesReset b v = true) : s.writeEffect b v = (s.store b v).resetDevice := by
  obtain ⟨hdev, hfifo, hirq⟩ := quietBank_iff.1 hq
  simp [State.writeEffect, hdev, State.refWriteEffect, hfifo, hirq, hp]

/-- The word a store puts in a bank: the empty flags' bits as they were. -/
def State.storedWord (s : State) (b : Nat) (v : Word) : Word := s.keepEmptyBit b .s2mm (s.keepEmptyBit b .mm2s v)

theorem State.store_stored (s : State) (b : Nat) (v : Word) : (s.store b v).stored b = s.storedWord b v := by
  simp [State.store, State.stored, Memory.bank_setBank_same, State.storedWord]

/-- A store starts a transfer exactly where it takes the enable bit from 0 to 1 (R77). -/
theorem State.store_busy (s : State) (b : Nat) (v : Word) (d : Dir) : (s.store b v).busy.get d = (s.busy.get d ||
    (decide ((s.cfg.field (.xferEn d)).bank = b) && !s.xferEnabled d &&
      fieldBit (s.cfg.field (.xferEn d)) (s.storedWord b v))) := by
  have hstart : s.startsTransfer b (s.storedWord b v) d = (decide ((s.cfg.field (.xferEn d)).bank = b) &&
      !s.xferEnabled d && fieldBit (s.cfg.field (.xferEn d)) (s.storedWord b v)) := by
    by_cases hb : (s.cfg.field (.xferEn d)).bank = b
    · simp [State.startsTransfer, holdsField, State.xferEnabled, hb]
    · simp [State.startsTransfer, holdsField, hb]
  rw [← hstart]
  cases d <;> rfl

theorem State.storedWord_storage {s : State} {b : Nat} (h : storageBank s.cfg b = true) (v : Word) :
    s.storedWord b v = v := by
  obtain ⟨-, -, -, h3, h4⟩ := storageBank_iff.1 h
  simp [State.storedWord, State.keepEmptyBit, h3, h4]

/-- In a bank with the empty flag of one direction the flag's stored bit stays (R73). -/
theorem State.getLsbD_storedWord_flag {s : State} {d : Dir} (hv : s.cfg.valid = true)
    (ho : (s.cfg.field (.stsFifoEmpty d.other)).bank ≠ (s.cfg.field (.stsFifoEmpty d)).bank) (v : Word) {j : Nat}
    (hj : j < 32) : (s.storedWord (s.cfg.field (.stsFifoEmpty d)).bank v).getLsbD j =
      if j = (s.cfg.field (.stsFifoEmpty d)).offset then
        (s.stored (s.cfg.field (.stsFifoEmpty d)).bank).getLsbD j else v.getLsbD j := by
  have hw := Config.width_stsFifoEmpty hv d
  have hword : s.storedWord (s.cfg.field (.stsFifoEmpty d)).bank v = mergeField (s.cfg.field (.stsFifoEmpty d)) v
      (fieldValue (s.cfg.field (.stsFifoEmpty d)) (s.stored (s.cfg.field (.stsFifoEmpty d)).bank)) := by
    cases d <;> simp only [Dir.other] at ho <;> simp [State.storedWord, State.keepEmptyBit, holdsField, ho]
  rw [hword, getLsbD_mergeField_bit hw _ _ hj, getLsbD_fieldValue _ (by omega), hw]
  split
  · simp [*]
  · rfl

/-- A reset effect clears the `busy` bits and empties the FIFOs it names. -/
theorem State.resetDevice_get (s : State) (d : Dir) :
    s.resetDevice.fifo.get d = (if s.cfg.devResetEffect.emptiesFifo.get d then [] else s.fifo.get d) ∧
      s.resetDevice.busy.get d = (s.busy.get d && !s.cfg.devResetEffect.clearsBusy.get d) := by
  cases d <;> exact ⟨rfl, rfl⟩

/-- Where no reset follows, a write leaves every byte outside its bank. -/
theorem State.byte_afterWrite_noReset {s : State} {b a : Nat} {v : Word} (hp : s.pulsesReset b v = false)
    (ha : a < 4 * b ∨ 4 * b + 4 ≤ a) : (s.afterWrite b v).dregs.get a = s.dregs.get a := by
  rw [State.afterWrite_dregs]
  cases hdev : s.cfg.dev with
  | reference =>
    rw [State.writeEffect_spared v hdev (.inr hp)]
    split
    · rfl
    · exact Memory.get_setBank_outside _ _ _ _ ha
  | other id => simp only [State.writeEffect, hdev]

/-- A write that no reset follows starts a transfer exactly where the enable bit, as stored, goes from 0 to 1. -/
theorem State.busy_afterWrite_noReset {s : State} {b : Nat} {v : Word} (hdev : s.cfg.dev = .reference)
    (hp : s.pulsesReset b v = false) (d : Dir) : (s.afterWrite b v).busy.get d = (s.busy.get d ||
      (decide ((s.cfg.field (.xferEn d)).bank = b) && !s.xferEnabled d && (s.afterWrite b v).xferEnabled d)) := by
  cases hq : quietBank s.cfg b with
  | false =>
    have hx : (s.afterWrite b v).xferEnabled d = s.xferEnabled d :=
      State.xferEnabled_congr (State.afterWrite_cfg _ _ _)
        (State.stored_congr (State.afterWrite_cfg _ _ _) (by rw [State.afterWrite_dregs, State.writeEffect_owned v hdev hq]) _)
    rw [hx, State.afterWrite_busy, State.writeEffect_owned v hdev hq]
    cases s.xferEnabled d <;> simp
  | true =>
    rw [State.afterWrite_busy, State.writeEffect_quiet hq hp, State.store_busy]
    by_cases hb : (s.cfg.field (.xferEn d)).bank = b
    · have hx : (s.afterWrite b v).xferEnabled d = fieldBit (s.cfg.field (.xferEn d)) (s.storedWord b v) := by
        rw [State.xferEnabled, State.afterWrite_cfg, hb, ← State.store_stored, ← State.writeEffect_quiet hq hp]
        rfl
      rw [hx]
    · simp [hb]

/-- A bank after a write that a reset follows: what the reset makes of it, after the word was stored. -/
theorem State.stored_afterReset {s : State} {b : Nat} {v : Word} (hst : storageBank s.cfg b = true)
    (hp : s.pulsesReset b v = true) (e : Nat) : (s.afterWrite b v).stored e =
      (resetBanks s.cfg.byteOrder (s.dregs.setBank s.cfg.byteOrder b v) s.cfg.devResetEffect.banks).bank
        s.cfg.byteOrder e := by
  rw [State.stored, State.afterWrite_cfg, State.afterWrite_dregs,
    State.writeEffect_reset (quietBank_of_storage hst) hp, State.store_storage v hst]
  rfl

/-- Settles O43: the clauses by the kind of bank: the device's own, stored, or stored with a reset effect after it. -/
theorem deviceTakesWrites : Obligations.DeviceTakesWrites := by
  rintro s b v t hv rfl
  have hnodup := (Config.valid_resetEffect hv).2
  refine ⟨fun hp hst => ?_, ?_, fun hdev hown => ?_, fun d hdev hp => State.busy_afterWrite_noReset hdev hp d,
    fun hp => ⟨State.fifo_afterWrite_spared v (.inr hp), fun a ha => State.byte_afterWrite_noReset hp ha⟩, fun hp hst => ?_,
    fun a ha => State.byte_afterWrite_outside v ha, fun id hdev => by simp [State.afterWrite, State.writeEffect, hdev]⟩
  · rw [show (s.afterWrite b v).stored b = (s.writeEffect b v).stored b from rfl,
      State.writeEffect_quiet (quietBank_of_storage hst) hp, State.store_stored, State.storedWord_storage hst]
  · rintro d hp rfl hq ho j hj
    rw [show (s.afterWrite (s.cfg.field (.stsFifoEmpty d)).bank v).stored (s.cfg.field (.stsFifoEmpty d)).bank =
        (s.writeEffect (s.cfg.field (.stsFifoEmpty d)).bank v).stored (s.cfg.field (.stsFifoEmpty d)).bank from rfl,
      State.writeEffect_quiet hq hp, State.store_stored, State.getLsbD_storedWord_flag hv ho v hj]
  · rw [State.afterWrite, State.writeEffect_owned v hdev hown]
  · have hq := quietBank_of_storage hst
    have hget := (s.store b v).resetDevice_get
    rw [← State.writeEffect_reset hq hp] at hget
    refine ⟨fun e he hne => ?_, fun e he heq => ?_, fun hall => ?_, fun d => (hget d).1, fun d => ?_⟩
    · rw [State.stored_afterReset hst hp, bank_resetBanks_mem _ _ he hnodup, Memory.bank_setBank_other _ _ _ hne]
      rfl
    · subst heq
      rw [State.stored_afterReset hst hp, bank_resetBanks_mem _ _ he hnodup, Memory.bank_setBank_same]
    · rw [State.stored_afterReset hst hp, bank_resetBanks_other _ _ hall, Memory.bank_setBank_same]
    · rw [State.afterWrite_busy, (hget d).2, State.store_busy, State.storedWord_storage hst]
      rfl

/-! ### The dispatcher -/

theorem step_disp {s : State} (hv : s.cfg.valid = true) : step (s.willMove .disp) = dispStep s := step_willMove hv _

section

variable {s : State} (hs : s.dispStopped = false)
include hs

theorem dispStep_dIdle (hp : s.dispPc = .dIdle) : dispStep s = execDispatch s := by simp [dispStep, hs, hp]
theorem dispStep_dRdM (hp : s.dispPc = .dRdM) : dispStep s = stepDRdM s := by simp [dispStep, hs, hp]
theorem dispStep_dRdS (hp : s.dispPc = .dRdS) : dispStep s = stepDRdS s := by simp [dispStep, hs, hp]
theorem dispStep_dChkS (hp : s.dispPc = .dChkS) : dispStep s = stepDChkS s := by simp [dispStep, hs, hp]
theorem dispStep_dChkM (hp : s.dispPc = .dChkM) : dispStep s = stepDChkM s := by simp [dispStep, hs, hp]
theorem dispStep_dNotifyS (hp : s.dispPc = .dNotifyS) : dispStep s = stepDNotifyS s := by simp [dispStep, hs, hp]
theorem dispStep_dNotifyM (hp : s.dispPc = .dNotifyM) : dispStep s = stepDNotifyM s := by simp [dispStep, hs, hp]
theorem dispStep_dLog (hp : s.dispPc = .dLog) : dispStep s = stepDLog s := by simp [dispStep, hs, hp]

end

/-- Settles O39. -/
theorem dispatcherStepsAsStated : Obligations.DispatcherStepsAsStated := by
  intro s e b hv hs hflags
  have hread (d : Dir) (k : Bool → State → Out) : getBitField (.stsFifoEmpty d) s k = k (e d) (s.afterRead (b d)) := by
    rw [getBitField_eq hv, (hflags d).2, (hflags d).1]
  rw [step_disp hv]
  refine ⟨dispStep_dRdM hs, dispStep_dRdS hs, fun hp => ?_, fun hp => ?_, fun hp hn => ?_, fun hp hn => ?_, dispStep_dLog hs⟩
  · rw [dispStep_dChkS hs hp, stepDChkS, hread]
    simp only [State.afterRead_dispHeldM]
  · rw [dispStep_dChkM hs hp, stepDChkM, hread]
  · exact (dispStep_dNotifyS hs hp).trans (if_neg hn)
  · exact (dispStep_dNotifyM hs hp).trans (if_neg hn)

/-- A read of an empty flag changes the device's own state at most, in a device other than the reference one. -/
theorem afterRead_flag {s : State} {b : Nat} (hq : s.cfg.dev = .reference → quietBank s.cfg b = true) :
    s.afterRead b = { s with
      extDev := (s.afterRead b).extDev, draws := (s.afterRead b).draws, portLog := (s.afterRead b).portLog } ∧
    (s.cfg.dev = .reference → (s.afterRead b).extDev = s.extDev ∧ (s.afterRead b).draws = s.draws) := by
  cases hdev : s.cfg.dev with
  | reference =>
    rw [State.afterRead_quiet (hq hdev)]
    exact ⟨rfl, fun _ => ⟨rfl, rfl⟩⟩
  | other id =>
    have hread : s.afterRead b = { s with
        extDev := Config.devAfterRead id s.extDev s.draws b, draws := s.draws + 1
        portLog := .read b (s.readValue b) :: s.portLog } := by simp [State.afterRead, State.readEffect, hdev]
    rw [hread]
    exact ⟨rfl, fun h => nomatch h⟩

/-- Settles O41: only the two reads of empty flags touch the device. -/
theorem dispatcherLeavesTheRestAlone : Obligations.DispatcherLeavesTheRestAlone := by
  intro s hv hq
  obtain ⟨t, hm, ht⟩ := dispStep_move hv
  refine ⟨t, (step_disp hv).trans ht, ?_⟩
  cases hm with
  | chkS p =>
    obtain ⟨heq, hdev⟩ := afterRead_flag fun hdev => hq hdev .s2mm
    exact ⟨by rw [heq], hdev⟩
  | chkM p =>
    obtain ⟨heq, hdev⟩ := afterRead_flag fun hdev => hq hdev .mm2s
    exact ⟨by rw [heq], hdev⟩
  | still | dispatch | rdM | rdS | notify | full | log => exact ⟨rfl, fun _ => ⟨rfl, rfl⟩⟩

end Sys2Proof.Machine
end

section
/-! SUPPORT. Runs over placed moves, step by step; polling up to the ceiling (R200, R208) and the attribution table (R180). -/

namespace Sys2Proof.Machine

open Sys2Proof

/-! ### Runs -/

theorem runMoves_append {es fs : List Event} : ∀ {s t : State}, runMoves es s = .next t →
    runMoves (es ++ fs) s = runMoves fs t := by
  induction es with
  | nil =>
    intro s t h
    rw [Host.Outcome.next.inj h]
    rfl
  | cons e es ih =>
    intro s t h
    cases he : runEvent e s with
    | next u =>
      rw [runMoves_cons he] at h
      rw [List.cons_append, runMoves_cons he, ih h]
    | fault f => simp [runMoves, he] at h
    | refused f => simp [runMoves, he] at h

theorem runMoves_one {s t : State} {e : Event} (h : runEvent e s = .next t) : runMoves [e] s = .next t :=
  runMoves_cons h

/-- A move repeated n times, through a sequence of states. -/
theorem runMoves_replicate {e : Event} : ∀ (n : Nat) (f : Nat → State),
    (∀ k, k < n → runEvent e (f k) = .next (f (k + 1))) → runMoves (List.replicate n e) (f 0) = .next (f n)
  | 0, f, _ => rfl
  | n + 1, f, h => by
    rw [List.replicate_succ, runMoves_cons (h 0 (by omega))]
    exact runMoves_replicate n (fun k => f (k + 1)) fun k hk => h (k + 1) (by omega)

/-- Running the machine over n placed moves of one kind is running the moves. -/
theorem run_willMoves_replicate {s t : State} {e : Event} {n : Nat} (hv : s.cfg.valid = true)
    (h : runMoves (List.replicate n e) s = .next t) : core.run n (s.willMoves (List.replicate n e)) = .next t := by
  have hrun := run_willMoves (List.replicate n e) s hv
  rw [List.length_replicate] at hrun
  exact hrun.trans h

/-! ### Polling -/

/-- The machine after requester r, polling bank b with context c, has made k reads that found the FIFO empty. -/
def polled (s : State) (r : Nat) (c : Ctx) (b k : Nat) : State :=
  { s with
    ctxs := s.ctxs.set r (if k = s.cfg.pollLimit then { c with iter := k, err := some .timeout, pc := .tAbtR }
      else { c with iter := k })
    portLog := List.replicate k (.read b (s.readValue b)) ++ s.portLog }

theorem polled_zero {s : State} {r : Nat} {c : Ctx} (hc : s.ctx? r = some c) (hi : c.iter = 0)
    (hlimit : s.cfg.pollLimit ≠ 0) (b : Nat) : polled s r c b 0 = s := by
  have hself : { c with iter := 0 } = c := by rw [← hi]
  have hset := congrArg State.ctxs (State.setCtx_self hc)
  rw [State.setCtx_ctxs] at hset
  simp only [polled, hlimit.symm, if_false, hself, hset, List.replicate_zero, List.nil_append]

/-- A poll below the ceiling that finds the FIFO empty makes one more read. -/
theorem polled_step {s : State} {r : Nat} {c : Ctx} {b k : Nat} (hv : s.cfg.valid = true) (hl : s.live r c)
    (hp : c.pc = .tPoll) (hb : b = (s.cfg.field (.stsFifoEmpty c.dir)).bank) (hq : quietBank s.cfg b = true)
    (hbit : (s.readValue b).getLsbD (s.cfg.field (.stsFifoEmpty c.dir)).offset = true) (hk : k < s.cfg.pollLimit) :
    runEvent (.own r) (polled s r c b k) = .next (polled s r c b (k + 1)) := by
  have hlt := State.ctx?_lt hl.1
  have hctx : (polled s r c b k).live r { c with iter := k } := by
    refine ⟨?_, hl.2⟩
    simp [polled, State.ctx?, hlt, Nat.ne_of_lt hk]
  have hread : (polled s r c b k).afterRead b = { polled s r c b k with
      portLog := List.replicate (k + 1) (.read b (s.readValue b)) ++ s.portLog } := State.afterRead_quiet hq
  rw [show runEvent (.own r) (polled s r c b k) = stepAt r { c with iter := k } (polled s r c b k) from ownStep_live hctx]
  simp only [stepAt, hp, stepTPoll]
  rw [getBitField_eq (s := polled s r c b k) hv]
  simp only [show (polled s r c b k).cfg = s.cfg from rfl, ← hb,
    show (polled s r c b k).readValue b = s.readValue b from rfl, hbit, hread, Bool.true_eq_false, if_false]
  by_cases hceil : k + 1 = s.cfg.pollLimit
  · simp [polled, hceil, goto, State.setCtx]
  · simp [polled, hceil, goto, State.setCtx, ← hp]

/-- Settles O57, by counting the reads: each finds the FIFO empty, and only the one at the ceiling leaves `T_POLL`. -/
theorem pollingReadsUpToTheCeiling : Obligations.PollingReadsUpToTheCeiling := by
  rintro s r n c d b hv hl hp hi rfl rfl hq ho hf hn
  have hpos := Config.pollLimit_pos hv
  have hbit : (s.readValue (s.cfg.field (.stsFifoEmpty c.dir)).bank).getLsbD
      (s.cfg.field (.stsFifoEmpty c.dir)).offset = true := by
    rw [getLsbD_readValue_flag hv hq ho (Config.offset_lt hv _), if_pos rfl, hf]
    rfl
  have hrun := runMoves_replicate n (polled s r c _) fun k hk => polled_step hv hl hp rfl hq hbit (by omega)
  rw [polled_zero hl.1 hi (by omega)] at hrun
  exact run_willMoves_replicate hv hrun

/-! ### The attribution table -/

/-- The bank of the empty flag in the reference layout (R34). -/
def flagBank : Dir → Nat
  | .mm2s => 4
  | .s2mm => 12

theorem reference_flag (d : Dir) : Config.reference.field (.stsFifoEmpty d) = ⟨flagBank d, 0, 1⟩ ∧
    quietBank .reference (flagBank d) = true ∧ (Config.reference.field (.stsFifoEmpty d.other)).bank ≠ flagBank d := by
  cases d <;> decide

/-- GET_BIT of an empty flag in the reference layout: the flag is 1 exactly when the FIFO is empty, and nothing but the log
of accesses changes. -/
theorem getBitField_flag {s : State} (hcfg : s.cfg = .reference) (d : Dir) (k : Bool → State → Out) :
    getBitField (.stsFifoEmpty d) s k = k (s.fifo.get d).isEmpty
      { s with portLog := .read (flagBank d) (s.readValue (flagBank d)) :: s.portLog } := by
  have hv : s.cfg.valid = true := hcfg ▸ Config.reference_valid
  obtain ⟨hfield, hq, ho⟩ := reference_flag d
  have hbit := getLsbD_readValue_flag (s := s) (d := d) hv (by rw [hcfg, hfield]; exact hq)
    (by rw [hcfg, hfield]; exact ho) (j := (s.cfg.field (.stsFifoEmpty d)).offset) (Config.offset_lt hv (.stsFifoEmpty d))
  have hb : (s.cfg.field (.stsFifoEmpty d)).bank = flagBank d := by rw [hcfg, hfield]
  rw [getBitField_eq hv, hbit, if_pos rfl, hb, State.afterRead_quiet (by rw [hcfg]; exact hq)]

/-- The machine in the middle of an invocation that started at s: both flags read, at micro-state p. -/
def invoked (s : State) (p : DispPc) (l : List Access) : State :=
  { s with
    irqPending := s.irqPending - 1, dispHeldM := s.held .mm2s, dispHeldS := s.held .s2mm, dispPc := p, portLog := l }

/-- At most k moves of the dispatcher take s to t. -/
def DispReaches (k : Nat) (s t : State) : Prop := ∃ n, n ≤ k ∧ runMoves (List.replicate n .disp) s = .next t

theorem DispReaches.refl (s : State) : DispReaches 0 s s := ⟨0, le_refl 0, rfl⟩

theorem DispReaches.cons {k : Nat} {s t u : State} (h : dispStep s = .next t) (hr : DispReaches k t u) :
    DispReaches (k + 1) s u := by
  obtain ⟨n, hn, hrun⟩ := hr
  exact ⟨n + 1, by omega, by rw [List.replicate_succ, runMoves_cons (e := .disp) h, hrun]⟩

theorem DispReaches.mono {j k : Nat} {s t : State} (hr : DispReaches j s t) (hjk : j ≤ k) : DispReaches k s t := by
  obtain ⟨n, hn, hrun⟩ := hr
  exact ⟨n, by omega, hrun⟩

/-- The outcome of an invocation by the table of R180: the counts, the errant log and the accesses after it. -/
def State.attribution (s : State) : PerDir Nat × List LogEvent × List Access :=
  if s.held .s2mm = true ∧ s.fifo.s2mm ≠ [] then
    (⟨s.count.mm2s, s.count.s2mm + 1⟩, s.errlog, .read 12 (s.readValue 12) :: s.portLog)
  else if s.held .s2mm = true ∧ s.held .mm2s = true ∧ s.fifo.mm2s ≠ [] then
    (⟨s.count.mm2s + 1, s.count.s2mm⟩, s.errlog, .read 4 (s.readValue 4) :: .read 12 (s.readValue 12) :: s.portLog)
  else if s.held .s2mm = true ∧ s.held .mm2s = true then
    (s.count, s.errlog ++ [.errant], .read 4 (s.readValue 4) :: .read 12 (s.readValue 12) :: s.portLog)
  else if s.held .s2mm = true then (s.count, s.errlog ++ [.errant], .read 12 (s.readValue 12) :: s.portLog)
  else if s.held .mm2s = true ∧ s.fifo.mm2s ≠ [] then
    (⟨s.count.mm2s + 1, s.count.s2mm⟩, s.errlog, .read 4 (s.readValue 4) :: s.portLog)
  else if s.held .mm2s = true then (s.count, s.errlog ++ [.errant], .read 4 (s.readValue 4) :: s.portLog)
  else (s.count, s.errlog ++ [.errant], s.portLog)

/-- The machine after an invocation that started at s, with these counts, this errant log and these accesses. -/
def invocationEnd (s : State) (x : PerDir Nat × List LogEvent × List Access) : State :=
  { invoked s .dIdle x.2.2 with count := x.1, errlog := x.2.1 }

section

variable {s : State} (hs : s.dispStopped = false)
include hs

/-- The start of an invocation reads the two lock-held flags. -/
theorem dispReaches_flags (hp : s.dispPc = .dIdle) (hq : 0 < s.irqPending) {k : Nat} {t : State}
    (h : DispReaches k (invoked s (if s.held .s2mm then .dChkS else if s.held .mm2s then .dChkM else .dLog) s.portLog) t) :
    DispReaches (k + 3) s t := by
  have hstart := (dispStep_dIdle hs hp).trans (if_pos ⟨hs, hp, hq⟩)
  refine .cons hstart (.cons (dispStep_dRdM (s := { s with irqPending := s.irqPending - 1, dispPc := .dRdM }) hs rfl)
    (.cons ?_ h))
  exact dispStep_dRdS (s := { s with irqPending := s.irqPending - 1, dispHeldM := s.held .mm2s, dispPc := .dRdS }) hs rfl

theorem dispReaches_log (l : List Access) :
    DispReaches 1 (invoked s .dLog l) (invocationEnd s (s.count, s.errlog ++ [.errant], l)) :=
  .cons (dispStep_dLog (s := invoked s .dLog l) hs rfl) (.refl _)

theorem dispReaches_notifyM (hn : s.count.mm2s < s.cfg.countMax) (l : List Access) : DispReaches 1 (invoked s .dNotifyM l)
    (invocationEnd s (⟨s.count.mm2s + 1, s.count.s2mm⟩, s.errlog, l)) :=
  .cons ((dispStep_dNotifyM (s := invoked s .dNotifyM l) hs rfl).trans (if_neg (Nat.ne_of_lt hn))) (.refl _)

theorem dispReaches_notifyS (hn : s.count.s2mm < s.cfg.countMax) (l : List Access) : DispReaches 1 (invoked s .dNotifyS l)
    (invocationEnd s (⟨s.count.mm2s, s.count.s2mm + 1⟩, s.errlog, l)) :=
  .cons ((dispStep_dNotifyS (s := invoked s .dNotifyS l) hs rfl).trans (if_neg (Nat.ne_of_lt hn))) (.refl _)

/-- `D_CHK_S` reads its flag: empty goes on to MM2S where its flag read true, else to the log. -/
theorem dispReaches_chkS (hcfg : s.cfg = .reference) {l : List Access} {k : Nat} {t : State}
    (h : DispReaches k (invoked s (if s.fifo.s2mm.isEmpty = false then .dNotifyS else if s.held .mm2s then .dChkM else .dLog)
      (.read 12 (s.readValue 12) :: l)) t) : DispReaches (k + 1) (invoked s .dChkS l) t := by
  refine .cons ?_ h
  rw [dispStep_dChkS (s := invoked s .dChkS l) hs rfl, stepDChkS, getBitField_flag (s := invoked s .dChkS l) hcfg]
  rfl

theorem dispReaches_chkM (hcfg : s.cfg = .reference) {l : List Access} {k : Nat} {t : State}
    (h : DispReaches k (invoked s (if s.fifo.mm2s.isEmpty = false then .dNotifyM else .dLog)
      (.read 4 (s.readValue 4) :: l)) t) : DispReaches (k + 1) (invoked s .dChkM l) t := by
  refine .cons ?_ h
  rw [dispStep_dChkM (s := invoked s .dChkM l) hs rfl, stepDChkM, getBitField_flag (s := invoked s .dChkM l) hcfg]
  rfl

/-- An invocation of six moves or fewer ends as the table says. -/
theorem dispReaches_attribution (hcfg : s.cfg = .reference) (hp : s.dispPc = .dIdle) (hq : 0 < s.irqPending)
    (hm : s.count.mm2s < s.cfg.countMax) (hn : s.count.s2mm < s.cfg.countMax) :
    DispReaches 6 s (invocationEnd s s.attribution) := by
  refine dispReaches_flags hs hp hq ?_
  have hchkM : ∀ l, s.held .mm2s = true → DispReaches 2 (invoked s .dChkM l) (invocationEnd s
      (if s.fifo.mm2s ≠ [] then (⟨s.count.mm2s + 1, s.count.s2mm⟩, s.errlog, .read 4 (s.readValue 4) :: l)
      else (s.count, s.errlog ++ [.errant], .read 4 (s.readValue 4) :: l))) := by
    intro l hM
    refine dispReaches_chkM hs hcfg ?_
    by_cases hf : s.fifo.mm2s = []
    · simpa [hf] using dispReaches_log hs _
    · simpa [hf] using dispReaches_notifyM hs hm _
  by_cases hS : s.held .s2mm = true
  · rw [if_pos hS]
    refine dispReaches_chkS hs hcfg ?_
    by_cases hf : s.fifo.s2mm = []
    · by_cases hM : s.held .mm2s = true
      · simpa [State.attribution, hS, hM, hf] using hchkM (.read 12 (s.readValue 12) :: s.portLog) hM
      · simpa [State.attribution, hS, hM, hf] using (dispReaches_log hs _).mono (by decide : 1 ≤ 2)
    · simpa [State.attribution, hS, hf] using (dispReaches_notifyS hs hn _).mono (by decide : 1 ≤ 2)
  · by_cases hM : s.held .mm2s = true
    · simpa [State.attribution, hS, hM] using (hchkM s.portLog hM).mono (by decide : 2 ≤ 3)
    · simpa [State.attribution, hS, hM] using (dispReaches_log hs _).mono (by decide : 1 ≤ 3)

end

/-- Settles O40, by `dispReaches_attribution`. -/
theorem attributionTable : Obligations.AttributionTable := by
  rintro s _ _ hcfg hs hp hq hm hn rfl rfl
  obtain ⟨n, hle, hrun⟩ := dispReaches_attribution hs hcfg hp hq hm hn
  exact ⟨n, _, hle, run_willMoves_replicate (hcfg ▸ Config.reference_valid) hrun, rfl, rfl⟩

end Sys2Proof.Machine
end

section
/-! SUPPORT. A whole operation of one requester in the reference layout, run step by step: the state between its steps, one
rule per kind of step, and the run of RESET (R240, R249). -/

namespace Sys2Proof.Machine

open Sys2Proof

theorem runMoves_trans {es fs : List Event} {s t u : State} (h : runMoves es s = .next t) (h' : runMoves fs t = .next u) :
    runMoves (es ++ fs) s = .next u := (runMoves_append h).trans h'

/-- The machine during an operation of requester r: its context is e, the locks are k, the register bytes m and the accesses
l; everything else is as in s. -/
def during (s : State) (r : Nat) (e : Ctx) (k : PerDir (Option Nat)) (m : Memory) (l : List Access) : State :=
  { s with cur := .requester r, ctxs := s.ctxs.set r e, lock := k, dregs := m, portLog := l }

/-! ### One rule per kind of step -/

theorem reference_bank_lt {f : FieldId} : (Config.reference.field f).bank < 64 := Config.bank_lt Config.reference_valid f

section

variable {s : State} {r : Nat} {e : Ctx} {k : PerDir (Option Nat)} {m : Memory} {l : List Access}

theorem during_setCtx (e' : Ctx) : (during s r e k m l).setCtx r e' = during s r e' k m l := by
  simp [during, State.setCtx]

theorem during_ctx? (hr : r < s.ctxs.length) : (during s r e k m l).ctx? r = some e := by simp [during, State.ctx?, hr]

theorem during_frame (h : k = s.lock) : during s r e k m l =
    { s with cur := .requester r, ctxs := (during s r e k m l).ctxs, dregs := m, portLog := l } := by
  subst h
  rfl

theorem during_own (hr : r < s.ctxs.length) (hs : e.stopped = false) :
    runEvent (.own r) (during s r e k m l) = stepAt r e (during s r e k m l) := ownStep_live ⟨during_ctx? hr, hs⟩

theorem during_step {s' : State} {e' : Ctx} {k' : PerDir (Option Nat)} {m' : Memory} {l' : List Access}
    (hr : r < s.ctxs.length) (hs : e.stopped = false)
    (h : stepAt r e (during s r e k m l) = .next ((during s' r e k' m' l').setCtx r e')) :
    runMoves [.own r] (during s r e k m l) = .next (during s' r e' k' m' l') :=
  runMoves_one ((during_own hr hs).trans (h.trans (congrArg Host.Outcome.next (during_setCtx e'))))

/-- A command that is taken begins its operation. -/
theorem during_host {sel arg : Word} {i : Instr}
    (hdecode : decode s.cfg .hcmd [sel, arg] = .ok i [])
    (hi : exec i (s.present (.requester r)) = .next ((s.present (.requester r)).setCtx r e)) :
    runMoves [.host r sel arg] s = .next (during s r e s.lock s.dregs s.portLog) :=
  runMoves_one ((hostCommand_of_decode hdecode r).trans hi)

/-- An acquisition of a free lock. -/
theorem during_acquire {q : MicroState} (hr : r < s.ctxs.length) (hs : e.stopped = false) {d : Dir}
    (hstep : ∀ t, stepAt r e t = acquire r d t (goto r e q) (.next t)) (hk : k.get d = none) :
    runMoves [.own r] (during s r e k m l) = .next (during s r { e with pc := q } (k.set d (some r)) m l) := by
  refine during_step hr hs ?_
  rw [hstep, acquire, if_pos (show (during s r e k m l).lock.get d = none from hk)]
  rfl

/-- A release by the holder. -/
theorem during_release {e' : Ctx} (hr : r < s.ctxs.length) (hs : e.stopped = false) {d : Dir}
    (hstep : ∀ t, stepAt r e t = release r d t fun t => .next (t.setCtx r e')) (hk : k.get d = some r) :
    runMoves [.own r] (during s r e k m l) = .next (during s r e' (k.set d none) m l) := by
  refine during_step hr hs ?_
  rw [hstep, release, if_pos (show (during s r e k m l).lock.get d = some r from hk)]
  rfl

variable {b : Nat}

/-- A read of a storage bank. -/
theorem during_regRead (hb : b < s.cfg.numBanks) (hst : storageBank s.cfg b = true) (got : Word → State → Out) :
    regRead b (during s r e k m l) got = got (m.bank s.cfg.byteOrder b)
      (during s r e k m (.read b (m.bank s.cfg.byteOrder b) :: l)) := by
  have hvalue : (during s r e k m l).readValue b = m.bank s.cfg.byteOrder b := State.readValue_storage hst
  rw [regRead_of_lt (s := during s r e k m l) hb, hvalue,
    State.afterRead_quiet (s := during s r e k m l) (quietBank_of_storage hst), hvalue]
  rfl

/-- A write of a plain bank leaves the busy bits at x, as far as it starts a transfer. -/
theorem during_regWrite {v : Word} {x : PerDir Bool} (hb : b < s.cfg.numBanks) (hst : plainBank s.cfg b = true)
    (hx : ∀ d, x.get d = (s.busy.get d || (during s r e k m l).startsTransfer b v d)) (done : State → Out) :
    regWrite b v (during s r e k m l) done =
      done (during { s with busy := x } r e k (m.setBank s.cfg.byteOrder b v) (.write b v :: l)) := by
  have hbusy : x = ⟨s.busy.mm2s || (during s r e k m l).startsTransfer b v .mm2s,
      s.busy.s2mm || (during s r e k m l).startsTransfer b v .s2mm⟩ := by
    refine PerDir.ext_get fun d => (hx d).trans ?_
    cases d <;> rfl
  rw [regWrite_of_lt (s := during s r e k m l) hb, State.afterWrite,
    State.writeEffect_storage (s := during s r e k m l) v hst, hbusy]
  rfl

/-- A step that latches the word of a storage bank. -/
theorem during_latch {f : FieldId} {p : MicroState} (hcfg : s.cfg = .reference) (hr : r < s.ctxs.length)
    (hs : e.stopped = false) (hb : b = (Config.reference.field f).bank) (hst : storageBank .reference b = true)
    (hstep : ∀ t, t.cfg = .reference → stepAt r e t = latchStep f p r e t) :
    runMoves [.own r] (during s r e k m l) = .next (during s r
      { e with tmp := m.bank s.cfg.byteOrder b, pc := p } k m (.read b (m.bank s.cfg.byteOrder b) :: l)) := by
  have hlt : b < s.cfg.numBanks := by rw [hcfg, hb]; exact reference_bank_lt
  have hfield : ((during s r e k m l).cfg.field f).bank = b := by rw [hb, ← hcfg]; rfl
  refine during_step hr hs ?_
  rw [hstep (during s r e k m l) hcfg, latchStep, latchBank, hfield, during_regRead hlt (by rw [hcfg]; exact hst)]

/-- A step that writes v to a plain bank. -/
theorem during_write {f : FieldId} {q : MicroState} {v : Word} {x : PerDir Bool} (hcfg : s.cfg = .reference)
    (hr : r < s.ctxs.length) (hs : e.stopped = false) (hb : b = (Config.reference.field f).bank)
    (hst : plainBank .reference b = true)
    (hstep : ∀ t, t.cfg = .reference → stepAt r e t = regWrite b v t (goto r e q))
    (hx : ∀ d, x.get d = (s.busy.get d || (during s r e k m l).startsTransfer b v d)) :
    runMoves [.own r] (during s r e k m l) = .next (during { s with busy := x } r { e with pc := q } k
      (m.setBank s.cfg.byteOrder b v) (.write b v :: l)) := by
  have hlt : b < s.cfg.numBanks := by rw [hcfg, hb]; exact reference_bank_lt
  refine during_step hr hs ?_
  rw [hstep (during s r e k m l) hcfg, during_regWrite hlt (by rw [hcfg]; exact hst) hx, goto]

end

/-! ### RESET (R240-R249) -/

theorem and_or_and_or (w a b c d : Word) : (((w &&& a) ||| b) &&& c) ||| d = (w &&& (a &&& c)) ||| ((b &&& c) ||| d) := by
  rw [BitVec.and_or_distrib_right, BitVec.and_assoc, BitVec.or_assoc]

section

variable {s : State} {r : Nat} {e : Ctx} {k : PerDir (Option Nat)} {m : Memory} {l : List Access} (hcfg : s.cfg = .reference)
  (hr : r < s.ctxs.length) (hs : e.stopped = false)
include hcfg hr hs

/-- A write to a bank without an enable bit starts no transfer. -/
theorem during_write_spared {f : FieldId} {b : Nat} {q : MicroState} {v : Word}
    (hb : b = (Config.reference.field f).bank) (hst : plainBank .reference b = true)
    (hf : ∀ d, f ≠ .xferEn d)
    (hstep : ∀ t, t.cfg = .reference → stepAt r e t = regWrite b v t (goto r e q)) :
    runMoves [.own r] (during s r e k m l) = .next (during s r { e with pc := q } k
      (m.setBank s.cfg.byteOrder b v) (.write b v :: l)) := by
  refine during_write (x := s.busy) hcfg hr hs hb hst hstep fun d => ?_
  have hnone : (s.cfg.field (.xferEn d)).bank ≠ b := fun h =>
    hf d (reference_xferEn_bank (by rw [← hb, ← h, hcfg]))
  rw [State.startsTransfer_elsewhere (s := during s r e k m l) _ hnone, Bool.or_false]

/-- The two steps that rewrite such a bank: its word is latched, and written back changed by g. -/
theorem during_modify {f : FieldId} {b : Nat} {p q : MicroState} {g : Word → Word} {w v : Word}
    (hw : m.bank s.cfg.byteOrder b = w) (hv : g w = v)
    (hb : b = (Config.reference.field f).bank) (hst : plainBank .reference b = true)
    (hf : ∀ d, f ≠ .xferEn d)
    (hread : ∀ t, t.cfg = .reference → stepAt r e t = latchStep f p r e t)
    (hwrite : ∀ t, t.cfg = .reference → stepAt r { e with tmp := w, pc := p } t =
      regWrite b (g w) t (goto r { e with tmp := w, pc := p } q)) :
    runMoves [.own r, .own r] (during s r e k m l) = .next (during s r { e with tmp := w, pc := q } k
      (m.setBank s.cfg.byteOrder b v) (.write b v :: .read b w :: l)) := by
  have hlatch := during_latch (k := k) (m := m) (l := l) hcfg hr hs hb (plainBank_iff.1 hst).1 hread
  have hstore := during_write_spared (e := { e with tmp := w, pc := p }) (k := k) (m := m) (l := .read b w :: l) hcfg hr hs
    hb hst hf hwrite
  rw [hw] at hlatch
  rw [hv] at hstore
  exact runMoves_trans hlatch hstore

/-- The word of bank 48 with the reset bit set, then with it clear again. -/
theorem during_resetPulse (hp : e.pc = .gRsR) (w : Word) (hw : m.bank s.cfg.byteOrder 48 = w) :
    ∃ m', runMoves [.own r, .own r, .own r, .own r] (during s r e k m l) = .next (during s r
      { e with tmp := w ||| 1, pc := .gBaR .k0 } k m'
      (.write 48 (w &&& 0xFFFFFFFE) :: .read 48 (w ||| 1) :: .write 48 (w ||| 1) :: .read 48 w :: l)) ∧
      m'.bank s.cfg.byteOrder 48 = w &&& 0xFFFFFFFE ∧
      ∀ b, b ≠ 48 → m'.bank s.cfg.byteOrder b = m.bank s.cfg.byteOrder b := by
  have hset := during_modify (k := k) (l := l) (f := .globalReset) (p := .gRsW) (q := .gRcR) (g := withBitSet ⟨48, 0, 1⟩)
    (v := w ||| 1) hcfg hr hs hw rfl rfl (by decide) (by nofun) (fun t _ => by simp only [stepAt, hp]; rfl)
    (fun t ht => by simp only [stepAt, stepGRsW, writeBitSet, ht]; rfl)
  have hback : withBitClear ⟨48, 0, 1⟩ (w ||| 1) = w &&& 0xFFFFFFFE := by
    simp [withBitClear, BitVec.and_or_distrib_right]
  have hclear := during_modify (e := { e with tmp := w, pc := .gRcR }) (k := k) (l := .write 48 (w ||| 1) :: .read 48 w :: l)
    (f := .globalReset) (p := .gRcW) (q := .gBaR .k0) (g := withBitClear ⟨48, 0, 1⟩) hcfg hr hs
    (Memory.bank_setBank_same m _ 48 (w ||| 1)) hback rfl (by decide) (by nofun) (fun t _ => rfl)
    (fun t ht => by simp only [stepAt, stepGRcW, writeBitClear, ht]; rfl)
  refine ⟨_, runMoves_trans hset hclear, Memory.bank_setBank_same _ _ _ _, fun b hb => ?_⟩
  rw [Memory.bank_setBank_other _ _ _ hb, Memory.bank_setBank_other _ _ _ hb]

/-- Two steps put the constant of one bus field in its place. -/
theorem during_busAttr {j : BusIx} {tmp w v : Word} (hw : m.bank s.cfg.byteOrder 49 = w)
    (hv : mergeField (Config.reference.field (.busAttr j)) w (Config.reference.busAttrVal.get j) = v) :
    runMoves [.own r, .own r] (during s r { e with tmp := tmp, pc := .gBaR j } k m l) = .next (during s r
      { e with tmp := w, pc := afterBusAttr j } k (m.setBank s.cfg.byteOrder 49 v) (.write 49 v :: .read 49 w :: l)) := by
  have hbank : 49 = (Config.reference.field (.busAttr j)).bank := by cases j <;> rfl
  have hnarrow : fullWidth (Config.reference.field (.busAttr j)) = false := by cases j <;> rfl
  exact during_modify (e := { e with tmp := tmp, pc := .gBaR j }) (f := .busAttr j) (p := .gBaW j)
    (g := fun w => mergeField (Config.reference.field (.busAttr j)) w (Config.reference.busAttrVal.get j)) hcfg hr hs hw hv
    hbank (by decide) (by nofun) (fun t ht => by simp [stepAt, stepGBaR, ht, hnarrow])
    (fun t ht => by simp [stepAt, stepGBaW, ht, hnarrow, writeMerged, ← hbank])

/-- The eight steps that put the bus attributes in their fields (R246). -/
theorem during_busAttrs {tmp w : Word} (hw : m.bank s.cfg.byteOrder 49 = w) :
    ∃ m' tmp', runMoves (List.replicate 8 (.own r)) (during s r { e with tmp := tmp, pc := .gBaR .k0 } k m l) =
      .next (during s r { e with tmp := tmp', pc := .gRel2 } k m'
      (.write 49 ((w &&& 0xFFFF0000) ||| 0x000011FF) :: .read 49 ((w &&& 0xFFFFF000) ||| 0x000001FF) ::
        .write 49 ((w &&& 0xFFFFF000) ||| 0x000001FF) :: .read 49 ((w &&& 0xFFFFFF00) ||| 0x000000FF) ::
        .write 49 ((w &&& 0xFFFFFF00) ||| 0x000000FF) :: .read 49 ((w &&& 0xFFFFFFF0) ||| 0x0000000F) ::
        .write 49 ((w &&& 0xFFFFFFF0) ||| 0x0000000F) :: .read 49 w :: l)) ∧
      m'.bank s.cfg.byteOrder 49 = (w &&& 0xFFFF0000) ||| 0x000011FF ∧
      ∀ b, b ≠ 49 → m'.bank s.cfg.byteOrder b = m.bank s.cfg.byteOrder b := by
  have h0 := during_busAttr (e := e) (k := k) (l := l) (j := .k0) (tmp := tmp) hcfg hr hs hw
    (v := (w &&& 0xFFFFFFF0) ||| 0x0000000F) rfl
  have next {j : BusIx} {tmp w v : Word} (m : Memory) (l : List Access)
      (hv : mergeField (Config.reference.field (.busAttr j)) w (Config.reference.busAttrVal.get j) = v) :=
    during_busAttr (e := e) (k := k) (l := l) (tmp := tmp) hcfg hr hs (Memory.bank_setBank_same m _ 49 w) hv
  have hrun := runMoves_trans h0 (runMoves_trans
    (next (j := .k1) (v := (w &&& 0xFFFFFF00) ||| 0x000000FF) _ _ (and_or_and_or w _ _ _ _)) (runMoves_trans
    (next (j := .k2) (v := (w &&& 0xFFFFF000) ||| 0x000001FF) _ _ (and_or_and_or w _ _ _ _))
    (next (j := .k3) (v := (w &&& 0xFFFF0000) ||| 0x000011FF) _ _ (and_or_and_or w _ _ _ _))))
  refine ⟨_, _, hrun, Memory.bank_setBank_same _ _ _ _, fun b hb => ?_⟩
  simp only [Memory.bank_setBank_other _ _ _ hb]

end

/-- Settles O58: both acquisitions, the pulse of the reset bit, the four bus attributes, both releases. -/
theorem resetRunsToSuccess : Obligations.ResetRunsToSuccess := by
  rintro s r c arg w48 w49 hcfg hc hready hlock h48 h49
  have hv : s.cfg.valid = true := hcfg ▸ Config.reference_valid
  have hr := State.ctx?_lt hc
  obtain ⟨-, -, hs⟩ := Ctx.ready_iff.1 hready
  have hhost := during_host (s := s) (r := r) (sel := 0) (arg := arg) (i := .reset arg) (by rw [hcfg]; rfl)
    (hostOperationsStart _ r c arg (State.takes_present hc hready)).1
  rw [hlock] at hhost
  have hacquire := runMoves_trans hhost (runMoves_trans
    (during_acquire (q := .gAcq2) (d := .mm2s) hr (by exact hs) (fun _ => rfl) rfl)
    (during_acquire (q := .gRsR) (d := .s2mm) hr (by exact hs) (fun _ => rfl) rfl))
  obtain ⟨m', hpulse, hm48, hm'⟩ := during_resetPulse (k := ⟨some r, some r⟩) (l := s.portLog)
    (e := { c with arg := arg, res := none, out := none, op := .reset, pc := .gRsR }) hcfg hr hs rfl w48 h48
  obtain ⟨m'', tmp, hattrs, hm49, hm''⟩ := during_busAttrs (k := ⟨some r, some r⟩)
    (e := { c with arg := arg, res := none, out := none, op := .reset }) (tmp := w48 ||| 1) hcfg hr hs
    ((hm' 49 (by decide)).trans h49)
  have hrun := runMoves_trans hacquire (runMoves_trans hpulse (runMoves_trans hattrs (runMoves_trans
    (during_release (d := .s2mm) hr (by exact hs) (fun _ => rfl) rfl)
    (during_release (d := .mm2s) hr (by exact hs) (fun _ => rfl) rfl))))
  have hmoves := (run_willMoves (.host r 0 arg :: List.replicate 16 (.own r)) s hv).trans hrun
  refine ⟨_, hmoves, (hm'' 48 (by decide)).trans hm48, hm49,
    fun b h48 h49 => (hm'' b h49).trans (hm' b h48), by simp [during], ⟨_, during_ctx? hr, rfl, rfl, rfl, rfl⟩,
    fun q hq => State.ctx?_setCtx_other s _ hq, during_frame hlock.symm⟩

end Sys2Proof.Machine
end

section
/-! SUPPORT. A whole transfer in the reference layout, with either detector (R190-R207). -/

namespace Sys2Proof.Machine

open Sys2Proof

/-- Clearing the bit that was set over a 0 gives the word back. -/
theorem or_one_and_not_one {w : Word} (h : w.getLsbD 0 = false) : (w ||| 1) &&& ~~~1 = w := by
  refine BitVec.eq_of_getLsbD_eq fun i hi => ?_
  rw [BitVec.getLsbD_and, BitVec.getLsbD_or, BitVec.getLsbD_not, show (1 : Word) = 1#32 from rfl, BitVec.getLsbD_one]
  by_cases h0 : i = 0
  · simpa [h0] using h
  · simp [h0, hi]

/-- The first bank of a direction's block (R34). -/
def dirBase : Dir → Nat
  | .mm2s => 0
  | .s2mm => 8

theorem reference_block (d : Dir) : Config.reference.field (.cmdAddr d) = ⟨dirBase d, 0, 32⟩ ∧
    Config.reference.field (.cmdData d) = ⟨dirBase d + 1, 0, 32⟩ ∧
    Config.reference.field (.stsFifo d) = ⟨dirBase d + 2, 0, 32⟩ ∧
    Config.reference.field (.xferEn d) = ⟨dirBase d + 3, 0, 1⟩ := by cases d <;> decide

theorem reference_block_plain (d : Dir) : plainBank .reference (dirBase d) = true ∧
    plainBank .reference (dirBase d + 1) = true ∧ plainBank .reference (dirBase d + 3) = true := by cases d <;> decide

/-- The context of a requester that has begun a transfer of d. -/
def Ctx.begun (c : Ctx) (op : Op) (d : Dir) (arg : Word) : Ctx :=
  { c with arg := arg, res := none, out := none, op := op, dir := d }

/-- The accesses up to the enable, the last one first, where the bank of the enable bit holds en (R194-R196). -/
def enableLog (d : Dir) (buf arg en : Word) : List Access :=
  [.write (dirBase d + 3) (en ||| 1), .read (dirBase d + 3) en, .write (dirBase d + 1) arg, .write (dirBase d) buf]

/-- The reference device after a transfer of d that was enabled and completed, but for the interrupt event (R77, R78). -/
def State.transferred (s : State) (d : Dir) : State :=
  { s with
    busy := (s.busy.set d true).set d false, fifo := s.fifo.set d (s.fifo.get d ++ [Config.freeWord s.draws])
    draws := s.draws + 1 }

/-- A read of a status FIFO word takes the first entry. -/
theorem afterRead_fifo_cons {s : State} {b : Nat} {d : Dir} {x : Word} {xs : List Word} (hdev : s.cfg.dev = .reference)
    (hb : fifoAt s.cfg b = some d) (hf : s.fifo.get d = x :: xs) :
    s.afterRead b = { s with fifo := s.fifo.set d xs, portLog := .read b x :: s.portLog } := by
  simp [State.afterRead, State.readEffect, State.readValue, hdev, State.refReadEffect, State.refReadValue, hb, hf]

/-- A write to the bank of the enable bit of d starts a transfer of d exactly when the bit goes from 0 to 1. -/
theorem startsTransfer_dirBase {t : State} (hcfg : t.cfg = .reference) (v : Word) (d f : Dir) :
    t.startsTransfer (dirBase d + 3) v f =
      (decide (f = d) && !(t.stored (dirBase d + 3)).getLsbD 0 && v.getLsbD 0) := by
  obtain ⟨-, -, -, hxfer⟩ := reference_block f
  have hbank : dirBase f = dirBase d ↔ f = d := by cases f <;> cases d <;> decide
  simp [State.startsTransfer, holdsField, hcfg, hxfer, fieldBit_eq, hbank]

theorem xferEnabled_dirBase {t : State} (hcfg : t.cfg = .reference) (d : Dir) :
    t.xferEnabled d = (t.stored (dirBase d + 3)).getLsbD 0 := by
  obtain ⟨-, -, -, hxfer⟩ := reference_block d
  rw [State.xferEnabled, fieldBit_eq, hcfg, hxfer]

section

variable {s : State} {r : Nat} {e : Ctx} {k : PerDir (Option Nat)} {m : Memory} {l : List Access} {d : Dir}
  (hcfg : s.cfg = .reference) (hr : r < s.ctxs.length) (hs : e.stopped = false)
include hcfg hr hs

/-- A write of v to the bank of the enable bit, over the word w. -/
theorem during_writeEnable {q : MicroState} {v w : Word} {x : PerDir Bool}
    (hstep : ∀ t, t.cfg = .reference → stepAt r e t = regWrite (dirBase d + 3) v t (goto r e q))
    (hw : m.bank s.cfg.byteOrder (dirBase d + 3) = w)
    (hx : x = if w.getLsbD 0 = false ∧ v.getLsbD 0 = true then s.busy.set d true else s.busy) :
    runMoves [.own r] (during s r e k m l) = .next (during { s with busy := x } r { e with pc := q } k
      (m.setBank s.cfg.byteOrder (dirBase d + 3) v) (.write (dirBase d + 3) v :: l)) := by
  obtain ⟨-, -, -, hxfer⟩ := reference_block d
  obtain ⟨-, -, hplain⟩ := reference_block_plain d
  refine during_write (f := .xferEn d) hcfg hr hs (by rw [hxfer]) hplain hstep fun f => ?_
  rw [startsTransfer_dirBase (t := during s r e k m l) hcfg v d f, hx,
    show (during s r e k m l).stored (dirBase d + 3) = w from hw]
  by_cases hf : f = d
  · subst hf
    cases hw0 : w.getLsbD 0 <;> cases hv0 : v.getLsbD 0 <;> simp
  · simp only [hf, decide_false, Bool.false_and, Bool.or_false]
    split
    · exact PerDir.get_set_other _ _ hf
    · rfl

variable (hd : e.dir = d)
include hd

/-- The five steps from `T_ACQ` up to the enable: the lock, the address, the command word, and the enable bit, which goes
from 0 to 1 and starts the transfer. -/
theorem during_begins {en : Word} (hk : k.get d = none) (hen : m.bank s.cfg.byteOrder (dirBase d + 3) = en)
    (hbit : en.getLsbD 0 = false) : ∃ m', runMoves (List.replicate 5 (.own r)) (during s r { e with pc := .tAcq } k m l) =
      .next (during { s with busy := s.busy.set d true } r { e with tmp := en, pc := .tMode } (k.set d (some r)) m'
        (enableLog d e.buf e.arg en ++ l)) ∧
      m'.bank s.cfg.byteOrder (dirBase d + 3) = en ||| 1 ∧ m'.bank s.cfg.byteOrder 14 = m.bank s.cfg.byteOrder 14 := by
  obtain ⟨haddr, hdata, -, hxfer⟩ := reference_block d
  obtain ⟨p0, p1, p3⟩ := reference_block_plain d
  have hacq := during_acquire (e := { e with pc := .tAcq }) (q := .tWaddr) (m := m) (l := l) hr hs
    (fun t => by simp only [stepAt, stepTAcq, hd]) hk
  have hwaddr := during_write_spared (e := { e with pc := .tWaddr }) (k := k.set d (some r)) (m := m) (l := l)
    (f := .cmdAddr d) (q := .tWdata) (v := e.buf) hcfg hr hs (by rw [haddr]) p0 (by nofun)
    (fun t ht => by simp only [stepAt, stepTWaddr, writeFull, hd, ht, haddr])
  have hwdata := during_write_spared (e := { e with pc := .tWdata }) (k := k.set d (some r))
    (m := m.setBank s.cfg.byteOrder (dirBase d) e.buf) (l := .write (dirBase d) e.buf :: l)
    (f := .cmdData d) (q := .tEnR) (v := e.arg) hcfg hr hs (by rw [hdata]) p1 (by nofun)
    (fun t ht => by simp only [stepAt, stepTWdata, writeFull, hd, ht, hdata])
  have hstored : ((m.setBank s.cfg.byteOrder (dirBase d) e.buf).setBank s.cfg.byteOrder (dirBase d + 1) e.arg).bank
      s.cfg.byteOrder (dirBase d + 3) = en := by
    rw [Memory.bank_setBank_other _ _ _ (by omega), Memory.bank_setBank_other _ _ _ (by omega), hen]
  have hlatch := during_latch (e := { e with pc := .tEnR }) (k := k.set d (some r))
    (m := (m.setBank s.cfg.byteOrder (dirBase d) e.buf).setBank s.cfg.byteOrder (dirBase d + 1) e.arg)
    (l := .write (dirBase d + 1) e.arg :: .write (dirBase d) e.buf :: l)
    (f := .xferEn d) (p := .tEnW) hcfg hr hs (by rw [hxfer]) (plainBank_iff.1 p3).1
    (fun t ht => by simp only [stepAt, stepTEnR, hd])
  rw [hstored] at hlatch
  have hset : (en ||| 1).getLsbD 0 = true := getLsbD_or_bitAt (o := 0) (by decide) en
  have henable := during_writeEnable (x := s.busy.set d true) (e := { e with tmp := en, pc := .tEnW }) (q := .tMode)
    (v := en ||| 1) (k := k.set d (some r))
    (l := .read (dirBase d + 3) en :: .write (dirBase d + 1) e.arg :: .write (dirBase d) e.buf :: l) hcfg hr hs
    (fun t ht => by simp only [stepAt, stepTEnW, writeBitSet, hd, ht, hxfer]; rfl) hstored (if_pos ⟨hbit, hset⟩).symm
  have hrun := runMoves_trans hacq (runMoves_trans hwaddr (runMoves_trans hwdata (runMoves_trans hlatch henable)))
  refine ⟨_, hrun, Memory.bank_setBank_same _ _ _ _, ?_⟩
  have hother : 14 ≠ dirBase d + 3 ∧ 14 ≠ dirBase d + 1 ∧ 14 ≠ dirBase d := by cases d <;> decide
  obtain ⟨h3, h1, h0⟩ := hother
  rw [Memory.bank_setBank_other _ _ _ h3, Memory.bank_setBank_other _ _ _ h1, Memory.bank_setBank_other _ _ _ h0]

/-- The drain takes the one entry of the status FIFO. -/
theorem during_drain {x : Word} (hp : e.pc = .tDrain) (hfifo : s.fifo.get d = [x]) :
    runMoves [.own r] (during s r e k m l) = .next (during { s with fifo := s.fifo.set d [] } r { e with pc := .tDisR } k m
      (.read (dirBase d + 2) x :: l)) := by
  subst hd
  obtain ⟨-, -, hsts, -⟩ := reference_block e.dir
  have hlt : dirBase e.dir + 2 < s.cfg.numBanks := by rw [hcfg]; cases e.dir <;> decide
  have hat : fifoAt s.cfg (dirBase e.dir + 2) = some e.dir := by rw [hcfg]; cases e.dir <;> rfl
  have hdev : s.cfg.dev = .reference := by rw [hcfg]; rfl
  have hfield : (during s r e k m l).cfg.field (.stsFifo e.dir) = ⟨dirBase e.dir + 2, 0, 32⟩ := by rw [← hsts, ← hcfg]; rfl
  refine during_step hr hs ?_
  simp only [stepAt, hp, stepTDrain, readField, hfield]
  rw [regRead_of_lt (s := during s r e k m l) hlt, afterRead_fifo_cons (s := during s r e k m l) hdev hat hfifo]
  rfl

/-- The way out from the drain: the one entry is taken, the enable bit is cleared, the lock is freed. -/
theorem during_ends {en x : Word} (hk : k.get d = some r) (hfifo : s.fifo.get d = [x])
    (hon : m.bank s.cfg.byteOrder (dirBase d + 3) = en ||| 1) (hbit : en.getLsbD 0 = false) (tmp : Word) :
    ∃ m', runMoves (List.replicate 4 (.own r)) (during s r { e with tmp := tmp, pc := .tDrain } k m l) =
      .next (during { s with fifo := s.fifo.set d [] } r
        { e with tmp := en ||| 1, op := .none, pc := .idle, res := some .success } (k.set d none) m'
        (.write (dirBase d + 3) en :: .read (dirBase d + 3) (en ||| 1) :: .read (dirBase d + 2) x :: l)) ∧
      m'.bank s.cfg.byteOrder (dirBase d + 3) = en := by
  obtain ⟨-, -, -, hxfer⟩ := reference_block d
  obtain ⟨-, -, p3⟩ := reference_block_plain d
  have hdrain := during_drain (e := { e with tmp := tmp, pc := .tDrain }) (k := k) (m := m) (l := l) hcfg hr hs hd rfl hfifo
  have hlatch := during_latch (s := { s with fifo := s.fifo.set d [] }) (e := { e with tmp := tmp, pc := .tDisR }) (k := k)
    (m := m) (l := .read (dirBase d + 2) x :: l) (f := .xferEn d) (p := .tDisW) hcfg hr hs (by rw [hxfer])
    (plainBank_iff.1 p3).1 (fun t ht => by simp only [stepAt, stepTDisR, hd])
  rw [hon] at hlatch
  have hclear : withBitClear ⟨dirBase d + 3, 0, 1⟩ (en ||| 1) = en := or_one_and_not_one hbit
  have hdisable := during_writeEnable (s := { s with fifo := s.fifo.set d [] }) (x := s.busy)
    (e := { e with tmp := en ||| 1, pc := .tDisW }) (q := .tRel) (v := en) (k := k)
    (l := .read (dirBase d + 3) (en ||| 1) :: .read (dirBase d + 2) x :: l) hcfg hr hs
    (fun t ht => by simp only [stepAt, stepTDisW, writeBitClear, hd, ht, hxfer, hclear]) hon
    (if_neg (by simp)).symm
  have hrelease := during_release (s := { s with fifo := s.fifo.set d [] }) (e := { e with tmp := en ||| 1, pc := .tRel })
    (e' := { e with tmp := en ||| 1, op := .none, pc := .idle, res := some .success })
    (m := m.setBank s.cfg.byteOrder (dirBase d + 3) en)
    (l := .write (dirBase d + 3) en :: .read (dirBase d + 3) (en ||| 1) :: .read (dirBase d + 2) x :: l) hr hs
    (fun t => by simp only [stepAt, stepTRel, hd]; rfl) hk
  have hrun := runMoves_trans hdrain (runMoves_trans hlatch (runMoves_trans hdisable hrelease))
  exact ⟨_, hrun, Memory.bank_setBank_same _ _ _ _⟩

/-- The mode bit chooses the detector. -/
theorem during_mode {mode : Bool} (hp : e.pc = .tMode)
    (hmode : (m.bank s.cfg.byteOrder 14).getLsbD (Config.reference.field (.irqEn d)).offset = mode) :
    runMoves [.own r] (during s r e k m l) = .next (during s r
      (if mode then { e with pc := .tWait } else { e with iter := 0, pc := .tPoll }) k m
      (.read 14 (m.bank s.cfg.byteOrder 14) :: l)) := by
  subst hd
  have hlt : 14 < s.cfg.numBanks := by rw [hcfg]; decide
  have hst : storageBank s.cfg 14 = true := by rw [hcfg]; decide
  have hbank : (Config.reference.field (.irqEn e.dir)).bank = 14 := by cases e.dir <;> rfl
  have hfield : (during s r e k m l).cfg.field (.irqEn e.dir) = Config.reference.field (.irqEn e.dir) := by rw [← hcfg]; rfl
  refine during_step hr hs ?_
  simp only [stepAt, hp, stepTMode, getBitField, hfield, hbank]
  rw [during_regRead hlt hst, fieldBit_eq, hmode]
  cases mode
  · rfl
  · rfl

/-- A poll that finds an entry goes to the drain. -/
theorem during_poll {x : Word} (hp : e.pc = .tPoll) (hfifo : s.fifo.get d = [x]) :
    ∃ w, runMoves [.own r] (during s r e k m l) = .next (during s r { e with iter := e.iter + 1, pc := .tDrain } k m
      (.read (flagBank d) w :: l)) := by
  subst hd
  refine ⟨(during s r e k m l).readValue (flagBank e.dir), during_step hr hs ?_⟩
  simp only [stepAt, hp, stepTPoll]
  rw [getBitField_flag (s := during s r e k m l) hcfg, show (during s r e k m l).fifo.get e.dir = [x] from hfifo]
  rfl

omit hcfg in
/-- A wait that finds an event consumes it and goes to the drain. -/
theorem during_consume {s' : State} (hn : 0 < s.count.get d)
    (hs' : { s with count := s.count.set d (s.count.get d - 1) } = s') :
    runMoves [.own r, .own r] (during s r { e with pc := .tWait } k m l) =
      .next (during s' r { e with pc := .tDrain } k m l) := by
  subst hs'
  subst hd
  have hwait := during_step (s' := s) (e := { e with pc := .tWait }) (e' := { e with pc := .tConsume }) (k := k) (k' := k)
    (m := m) (m' := m) (l := l) (l' := l) hr hs (if_pos hn)
  have htake := during_step (s := s) (s' := { s with count := s.count.set e.dir (s.count.get e.dir - 1) })
    (e := { e with pc := .tConsume }) (e' := { e with pc := .tDrain }) (k := k) (k' := k) (m := m) (m' := m) (l := l) (l' := l)
    hr hs (if_neg hn.ne')
  exact runMoves_trans hwait htake

end

/-! ### The dispatcher's part -/

/-- Moves of an idle dispatcher with nothing pending change nothing. -/
theorem runMoves_disp_idle {t : State} (hs : t.dispStopped = false) (hp : t.dispPc = .dIdle) (hq : t.irqPending = 0) :
    ∀ n, runMoves (List.replicate n .disp) t = .next t
  | 0 => rfl
  | n + 1 => by
    have hidle : dispStep t = .next t := (dispStep_dIdle hs hp).trans (if_neg (by simp [hq]))
    rw [List.replicate_succ, runMoves_cons (e := .disp) hidle, runMoves_disp_idle hs hp hq n]

theorem DispReaches.runMoves {n : Nat} {s t : State} (h : DispReaches n s t) (hs : t.dispStopped = false)
    (hp : t.dispPc = .dIdle) (hq : t.irqPending = 0) : runMoves (List.replicate n .disp) s = .next t := by
  obtain ⟨j, hj, hrun⟩ := h
  have hsplit : List.replicate n Event.disp = List.replicate j .disp ++ List.replicate (n - j) .disp := by
    rw [List.replicate_append_replicate, Nat.add_sub_cancel' hj]
  rw [hsplit]
  exact runMoves_trans hrun (runMoves_disp_idle hs hp hq _)

/-- An invocation that finds only the lock of d held, and an entry in its FIFO, notifies d (R180). -/
theorem dispReaches_notified {s : State} {d : Dir} (hcfg : s.cfg = .reference) (hs : s.dispStopped = false)
    (hp : s.dispPc = .dIdle) (hq : 0 < s.irqPending) (hheld : s.held d = true) (hother : s.held d.other = false)
    (hfifo : (s.fifo.get d).isEmpty = false) (hmax : s.count.get d < s.cfg.countMax) :
    DispReaches 5 s (invocationEnd s (s.count.set d (s.count.get d + 1), s.errlog,
      .read (flagBank d) (s.readValue (flagBank d)) :: s.portLog)) := by
  cases d with
  | mm2s =>
    refine dispReaches_flags hs hp hq ?_
    rw [show s.held .s2mm = false from hother, hheld]
    refine dispReaches_chkM hs hcfg ?_
    rw [if_pos (show s.fifo.mm2s.isEmpty = false from hfifo)]
    exact dispReaches_notifyM hs hmax _
  | s2mm =>
    refine dispReaches_flags hs hp hq ?_
    rw [hheld]
    refine dispReaches_chkS hs hcfg ?_
    rw [if_pos (show s.fifo.s2mm.isEmpty = false from hfifo)]
    exact dispReaches_notifyS hs hmax _

theorem PerDir.set_set_get {α : Type} (x : PerDir α) (d : Dir) (v : α) : (x.set d v).set d (x.get d) = x := by
  cases d <;> rfl

section

variable {s : State} {r : Nat} {e : Ctx} {k : PerDir (Option Nat)} {m : Memory} {l : List Access} {d : Dir}
  (hcfg : s.cfg = .reference) (hr : r < s.ctxs.length) (hs : e.stopped = false) (hd : e.dir = d)
include hcfg hr hs hd

/-- The interrupt's way from `T_WAIT` to the drain: an invocation of the dispatcher notifies, and the requester consumes. -/
theorem during_interrupted {x : Word} (hdisp : s.dispStopped = false) (hp : s.dispPc = .dIdle) (hq : s.irqPending = 1)
    (hcount : s.count.get d = 0) (hk : k.get d = some r) (hother : k.get d.other = none) (hfifo : s.fifo.get d = [x]) :
    ∃ hM hS w, runMoves (List.replicate 5 .disp ++ [.own r, .own r]) (during s r { e with pc := .tWait } k m l) =
      .next (during { s with irqPending := 0, dispHeldM := hM, dispHeldS := hS } r { e with pc := .tDrain } k m
        (.read (flagBank d) w :: l)) := by
  have hheld : (during s r { e with pc := .tWait } k m l).held d = true := by simp [State.held, during, hk]
  have hfree : (during s r { e with pc := .tWait } k m l).held d.other = false := by simp [State.held, during, hother]
  have hmax : s.count.get d < s.cfg.countMax := by rw [hcount, hcfg]; decide
  have hdispatch := (dispReaches_notified (s := during s r { e with pc := .tWait } k m l) hcfg hdisp hp
    (show 0 < s.irqPending by omega) hheld hfree (congrArg List.isEmpty hfifo) hmax).runMoves hdisp rfl
    (show s.irqPending - 1 = 0 by omega)
  have hconsume := during_consume (e := e) (k := k) (m := m)
    (l := .read (flagBank d) ((during s r { e with pc := .tWait } k m l).readValue (flagBank d)) :: l)
    (s := { s with
      irqPending := s.irqPending - 1, dispPc := .dIdle, count := s.count.set d (s.count.get d + 1)
      dispHeldM := (during s r { e with pc := .tWait } k m l).held .mm2s
      dispHeldS := (during s r { e with pc := .tWait } k m l).held .s2mm })
    (s' := { s with
      irqPending := 0, dispHeldM := (during s r { e with pc := .tWait } k m l).held .mm2s
      dispHeldS := (during s r { e with pc := .tWait } k m l).held .s2mm }) hr hs hd (by simp)
    (by simp [PerDir.set_set_get, hq, ← hp])
  exact ⟨_, _, _, runMoves_trans hdispatch hconsume⟩

/-- The moves from `T_MODE` to the drain. -/
def detectMoves (r : Nat) (mode : Bool) : List Event :=
  Event.own r :: if mode then List.replicate 5 Event.disp ++ [Event.own r, Event.own r] else [Event.own r]

/-- Either detector, from `T_MODE` to the drain, writes nothing and leaves the machine alike. -/
theorem during_detects {x : Word} {mode : Bool} (hp : e.pc = .tMode)
    (hmode : (m.bank s.cfg.byteOrder 14).getLsbD (Config.reference.field (.irqEn d)).offset = mode)
    (hdisp : s.dispStopped = false) (hidle : s.dispPc = .dIdle) (hq : s.irqPending = if mode then 1 else 0)
    (hcount : s.count.get d = 0) (hk : k.get d = some r) (hother : k.get d.other = none) (hfifo : s.fifo.get d = [x]) :
    ∃ hM hS i l', runMoves (detectMoves r mode) (during s r e k m l) =
      .next (during { s with irqPending := 0, dispHeldM := hM, dispHeldS := hS } r { e with iter := i, pc := .tDrain } k m
        (l' ++ l)) ∧ writesOf l' = [] := by
  have hread := during_mode (k := k) (l := l) hcfg hr hs hd hp hmode
  cases mode with
  | true =>
    obtain ⟨hM, hS, w, hrun⟩ := during_interrupted (m := m) (l := .read 14 (m.bank s.cfg.byteOrder 14) :: l) hcfg hr hs hd
      hdisp hidle hq hcount hk hother hfifo
    exact ⟨hM, hS, e.iter, [.read (flagBank d) w, .read 14 (m.bank s.cfg.byteOrder 14)], runMoves_trans hread hrun, rfl⟩
  | false =>
    obtain ⟨w, hrun⟩ := during_poll (e := { e with iter := 0, pc := .tPoll }) (k := k) (m := m)
      (l := .read 14 (m.bank s.cfg.byteOrder 14) :: l) hcfg hr hs hd rfl hfifo
    have hself : { s with irqPending := 0 } = s := by rw [← show s.irqPending = 0 from hq]
    refine ⟨s.dispHeldM, s.dispHeldS, 1, [.read (flagBank d) w, .read 14 (m.bank s.cfg.byteOrder 14)], ?_, rfl⟩
    exact (runMoves_trans hread hrun).trans (congrArg (fun u => Host.Outcome.next (during u r _ k m _)) hself.symm)

end

/-- The command that begins a transfer of d. -/
theorem during_transferCommand {s : State} {r : Nat} {c : Ctx} (hcfg : s.cfg = .reference) (hc : s.ctx? r = some c)
    (hready : c.ready = true) (d : Dir) (arg : Word) : ∃ op, runMoves [.host r (if d = .mm2s then 4 else 5) arg] s =
      .next (during s r { c.begun op d arg with pc := .tAcq } s.lock s.dregs s.portLog) := by
  obtain ⟨-, -, -, hwrite, hread⟩ := hostOperationsStart _ r c arg (State.takes_present hc hready)
  cases d with
  | mm2s => exact ⟨.dmaWrite, during_host (i := .dmaWrite arg) (by rw [hcfg]; rfl) hwrite⟩
  | s2mm => exact ⟨.dmaRead, during_host (i := .dmaRead arg) (by rw [hcfg]; rfl) hread⟩

/-- COMPLETE(d) during a busy transfer. -/
theorem during_complete {s : State} {r : Nat} {e : Ctx} {k : PerDir (Option Nat)} {m : Memory} {l : List Access} {d : Dir}
    (hcfg : s.cfg = .reference) (hdev : s.devStopped = false) (hbusy : s.busy.get d = true) {mode : Bool}
    (hmode : (m.bank s.cfg.byteOrder 14).getLsbD (Config.reference.field (.irqEn d)).offset = mode) :
    runMoves [.complete d] (during s r e k m l) = .next (during { s with
      busy := s.busy.set d false, fifo := s.fifo.set d (s.fifo.get d ++ [Config.freeWord s.draws]), draws := s.draws + 1
      irqPending := if mode then s.irqPending + 1 else s.irqPending } r e k m l) := by
  have hbit : (during s r e k m l).irqMode d = mode := by
    rw [State.irqMode_eq, ← hmode, show (during s r e k m l).cfg = Config.reference from hcfg]
    rfl
  have hmoves : (during s r e k m l).refDeviceMoves = true :=
    State.refDeviceMoves_iff.2 ⟨by rw [show (during s r e k m l).cfg = Config.reference from hcfg]; rfl, hdev⟩
  refine runMoves_one ((stepComplete_eq hmoves hbusy).trans ?_)
  rw [State.completed_eq, hbit]
  rfl

/-- The moves of the schedule, in the parts that the run is put together from. -/
theorem transferMoves_eq (r : Nat) (d : Dir) (arg : Word) (mode : Bool) :
    [Event.host r (if d = .mm2s then 4 else 5) arg] ++ List.replicate 5 (Event.own r) ++ [Event.complete d, Event.own r] ++
      (if mode = true then List.replicate 5 Event.disp ++ List.replicate 6 (Event.own r)
      else List.replicate 5 (Event.own r)) =
    [Event.host r (if d = .mm2s then 4 else 5) arg] ++ (List.replicate 5 (Event.own r) ++ ([Event.complete d] ++
      (detectMoves r mode ++ List.replicate 4 (Event.own r)))) := by
  cases mode
  · rfl
  · rfl

/-- Settles O59: the way to the enable and the way from the drain are shared, and either detector leads from one to the
other with no write. -/
theorem bothDetectorsSucceedAlike : Obligations.BothDetectorsSucceedAlike := by
  rintro s r c d arg en _ moves hcfg hc hready hlock hcount hirq hidle hdisp hdev hfifo rfl hen hbit hmoves
  have hv : s.cfg.valid = true := hcfg ▸ Config.reference_valid
  have hr := State.ctx?_lt hc
  obtain ⟨-, -, hs⟩ := Ctx.ready_iff.1 hready
  have hbase : (if d = .mm2s then 0 else 8) = dirBase d := by cases d <;> rfl
  rw [hbase] at hen ⊢
  rw [transferMoves_eq] at hmoves
  obtain ⟨op, hhost⟩ := during_transferCommand hcfg hc hready d arg
  have hfree : ∀ f, s.lock.get f = none := fun f => by rw [hlock]; cases f <;> rfl
  have hother : (s.lock.set d (some r)).get d.other = none := by rw [hlock]; cases d <;> rfl
  obtain ⟨m, hbegins, hon, h14⟩ := during_begins (s := s) (m := s.dregs) (l := s.portLog)
    (e := c.begun op d arg) hcfg hr hs rfl (hfree d) hen hbit
  have hzero : s.count.get d = 0 := by rw [hcount]; cases d <;> rfl
  have hone : (s.transferred d).fifo.get d = [Config.freeWord s.draws] := by simp [State.transferred, hfifo]
  have hmode : (m.bank s.cfg.byteOrder 14).getLsbD (Config.reference.field (.irqEn d)).offset = s.irqMode d := by
    rw [h14, State.irqMode_eq, State.stored, hcfg]
    rfl
  have hcomplete := during_complete (s := { s with busy := s.busy.set d true }) (r := r)
    (e := { c.begun op d arg with tmp := en, pc := .tMode }) (k := s.lock.set d (some r))
    (l := enableLog d c.buf arg en ++ s.portLog) hcfg hdev (PerDir.get_set_same _ _ _) hmode
  obtain ⟨hM, hS, i, l', hdetects, hl'⟩ := during_detects (s := { s.transferred d with
      irqPending := if s.irqMode d then s.irqPending + 1 else s.irqPending })
    (e := { c.begun op d arg with tmp := en, pc := .tMode })
    (l := enableLog d c.buf arg en ++ s.portLog) (x := Config.freeWord s.draws)
    hcfg hr hs rfl rfl hmode hdisp hidle (by simp [hirq]) hzero (PerDir.get_set_same _ _ _) hother hone
  obtain ⟨m', hends, hoff⟩ := during_ends (s := { s.transferred d with irqPending := 0, dispHeldM := hM, dispHeldS := hS })
    (e := { c.begun op d arg with iter := i })
    (l := l' ++ (enableLog d c.buf arg en ++ s.portLog)) (x := Config.freeWord s.draws)
    hcfg hr hs rfl (PerDir.get_set_same _ _ _) hone hon hbit en
  have hrun := runMoves_trans hhost (runMoves_trans hbegins (runMoves_trans hcomplete (runMoves_trans hdetects hends)))
  rw [← hmoves] at hrun
  refine ⟨_, (run_willMoves moves s hv).trans hrun, ?_⟩
  refine ⟨⟨_, during_ctx? hr, rfl, rfl, rfl⟩,
    ⟨_, (List.append_assoc (_ :: _ :: _ :: l') (enableLog d c.buf arg en) _).symm, ?_⟩,
    ?_, ?_, ?_, ?_, hcount, rfl, rfl, rfl⟩
  · simp only [writesOf] at hl' ⊢
    simp [hl', enableLog, Ctx.begun]
  · exact hfifo ▸ PerDir.set_set_get s.fifo d _
  · rw [xferEnabled_dirBase (by exact hcfg)]
    exact (congrArg (BitVec.getLsbD · 0) hoff).trans hbit
  · exact PerDir.get_set_same _ _ _
  · exact (congrArg (PerDir.set _ d) (hfree d).symm).trans ((PerDir.set_set_get _ _ _).trans hlock)

end Sys2Proof.Machine
end
